-- ==== Sys2Proof/Word.lean ====
section
/-! DEFINITION. The machine's words (spec/10_state.md R20, spec/00_scope.md R9): a register is one 32-bit word,
a stored audio sample an i16, a stored symbol a u8. A computation leaves the word at once: arithmetic is on
Nat and Int and never wraps (R9). -/

namespace Sys2Proof

/-- A register or a command word: 32 bits, read as an unsigned number (R9, R20). -/
abbrev Word := BitVec 32

/-- A u8 element of BYTES (R9). -/
abbrev Byte := BitVec 8

/-- An i16 sample of AIN, AOUT, CH or RX, read by `toInt` as −32768..32767 (R9). -/
abbrev Sample := BitVec 16

end Sys2Proof
end

