-- ==== Sys2Proof/Config.lean ====
section
/-! DEFINITION. The free values: what the spec leaves open and the model does not choose. Each is an opaque
constant with no body, so no proof can see a value of it and every claim holds for all of them. The
platform's capacities are data in State (Machine/Params.lean, log entry 1). -/

namespace Sys2Proof

/-- The two modes of the band filter (spec/42_band_filter.md R150). -/
inductive Band where
  | pass
  | stop
  deriving DecidableEq, Repr

namespace Config

/-- The i16 value at index `i` of the filter's output for an input that is not all zero
(spec/42_band_filter.md R151, R153 L5: "no other law"; spec/92_eei_decisions.md D17: OPEN). A function of the
six arguments of NUM.bwf and the index alone (L3). Free value, log entry 3. -/
opaque bwfSample (type : Band) (order lo hi fs : Nat) (x : List Sample) (i : Nat) : Sample

/-- What a host read of SPP returns when its exact value does not fit in 32 bits: spec/10_state.md R20 makes
the register 32 bits wide and R31 states no result there. Free value, log entry 7. -/
opaque sppWide (fs pulseUs : Word) : Word

end Config

end Sys2Proof
end

