-- ==== Sys2Proof/Machine/Params.lean ====
section
/-! DEFINITION. The platform's parameters (spec/00_scope.md R7, spec/92_eei_decisions.md D18, D19, D21): what
the spec leaves to the implementation and says "a model takes as arguments". They are plain data in State, so
a statement about every state is a statement about every platform; no step changes them. Log entries 1, 2. -/

namespace Sys2Proof.Machine

/-- The capacities and limits of one platform (R7). `minLens` lists FILTER_MIN_LEN of the orders 1, 2, …; an
order beyond the list has the spec's reference value. A filter command consults FILTER_MIN_LEN only for an
order in 1..MAX_ORDER, so the list can give any function there. -/
structure Params where
  maxFrames : Nat
  maxBytes  : Nat
  maxOrder  : Nat
  minLens   : List Nat
  deriving DecidableEq, Repr

/-- R7's constraints on the parameters. -/
def Params.ok (p : Params) : Bool :=
  1 ≤ p.maxFrames && 10 ≤ p.maxBytes && 7 ≤ p.maxOrder

/-- The reference value of FILTER_MIN_LEN, 3 × (2 × order + 1) (R7). PRESUMED: the spec marks it as general
knowledge (spec/93_implementation_defined.md G1), log entry 2. -/
def referenceMinLen (order : Nat) : Nat := 3 * (2 * order + 1)

/-- FILTER_MIN_LEN(order) of a platform: the largest segment length its filter refuses (R7, R156). -/
def filterMinLen (p : Params) (order : Nat) : Nat :=
  p.minLens.getD (order - 1) (referenceMinLen order)

/-- The parameters of the state after reset. DESIGN CHOICE: R7 gives only lower bounds, log entry 1. -/
def referencePlatform : Params :=
  { maxFrames := 1048576, maxBytes := 1024, maxOrder := 16, minLens := [] }

end Sys2Proof.Machine
end

