-- ==== Sys2Proof/Syntax.lean ====
section
/-! DEFINITION. The commands of the block (spec/30_encoding.md R94), one constructor per row of the opcode
table, with the operands of R91. -/

namespace Sys2Proof

/-- One of the two mono channels (spec/43_stereo_mux.md R180). -/
abbrev Channel := Fin 2

/-- A carrier index: it selects one of F0 to F3 (spec/00_scope.md R14). -/
abbrev Carrier := Fin 4

/-- One of the eight lanes (spec/10_state.md R46). -/
abbrev Lane := Fin 8

/-- A decoded command (R94): `c` is the field CH, `k` the field K, `b` the field BIT. -/
inductive Instr where
  | nop
  | clr
  | synth (c : Channel) (k : Carrier) (b : Bool)
  | mod
  | bpf (c : Channel) (k : Carrier)
  | bsf (c : Channel)
  | xlanes
  | demux
  | ovl (c : Channel)
  | mux
  | embed
  | decide (c : Channel) (k : Carrier)
  | decode
  | demod
  deriving DecidableEq, Repr

end Sys2Proof
end

