-- ==== Sys2Proof/Machine/State.lean ====
section
/-! DEFINITION. The state of the block (spec/10_state.md), the buffer spaces of spec/20_memory.md, the host's
queue of actions, and the state after reset (spec/70_reset_and_hazards.md R281 to R283). Plain data. -/

namespace Sys2Proof.Machine

/-- A real number held by a TX element, exactly (spec/20_memory.md R64, spec/41_lane_modulator.md R124). Every
sample NUM.synth can give is one of the two; log entry 4.
`half h` is h / 2; `sine a p q` is a × sin(2π × p / q), with a ≠ 0 and p / q in lowest terms, strictly between
0 and 1/4 and not 1/12 (whose sine is 1/2). In this form laws (a), (c), (d) and (e) of R125 are equalities of
data. -/
inductive Tone where
  | half (h : Int)
  | sine (a : Int) (p q : Nat)
  deriving DecidableEq, Repr

/-- One array of a buffer space: the elements whose valid bit is 1 (spec/10_state.md R42), as pairs of index
and value with the indexes strictly rising. An index that is not listed has valid bit 0. Log entry 9. -/
abbrev Buf (α : Type) := List (Nat × α)

/-- A pair of arrays, one per channel (spec/20_memory.md R60). -/
structure Stereo (α : Type) where
  ch0 : α
  ch1 : α
  deriving DecidableEq, Repr

/-- Eight arrays, one per lane (spec/20_memory.md R60). -/
structure Lanes (α : Type) where
  l0 : α
  l1 : α
  l2 : α
  l3 : α
  l4 : α
  l5 : α
  l6 : α
  l7 : α
  deriving DecidableEq, Repr

/-- The six buffer spaces (spec/10_state.md R41, spec/20_memory.md R60 to R68). -/
structure Memory where
  ain   : Stereo (Buf Sample)
  aout  : Stereo (Buf Sample)
  ch    : Stereo (Buf Sample)
  tx    : Lanes (Buf Tone)
  rx    : Lanes (Buf Sample)
  bytes : Buf Byte
  deriving DecidableEq, Repr

/-- A buffer space's name (spec/20_memory.md R60). -/
inductive Space where
  | ain
  | aout
  | ch
  | tx
  | rx
  | bytes
  deriving DecidableEq, Repr

/-- The registers of the register map (spec/10_state.md R20). -/
inductive Reg where
  | cmd | status | errInfo0 | errInfo1
  | segStart | segSyms | symIdx | envSum | envZones
  | fs | refRate | pulseUs | spp | amp | thrCenti | zone | window | order | stopLo | stopHi
  | f0 | f1 | f2 | f3
  | ainLen | bytesLen | laneLen | chLen | rxLen | aoutLen
  deriving DecidableEq, Repr

/-- The value of one buffer element, of the type its space holds (spec/20_memory.md R60). -/
inductive Elem where
  | sample (v : Sample)
  | tone (v : Tone)
  | byte (v : Byte)
  deriving DecidableEq, Repr

/-- One action of the host (spec/80_host_interface.md R310): a platform reset (70 R280), a register access of
`width` bytes (20 R66), or a buffer element access (20 R67). A buffer write carries an integer, since the host
may offer one outside the element type, which R67 refuses. Log entry 5. -/
inductive HostAction where
  | reset
  | regRead (width off : Nat)
  | regWrite (width off : Nat) (v : Word)
  | bufRead (space : Space) (a i : Nat)
  | bufWrite (space : Space) (a i : Nat) (v : Int)
  deriving DecidableEq, Repr

/-- What a host read returned (spec/20_memory.md R66, R67). -/
inductive Reply where
  | reg (r : Reg) (v : Word)
  | elem (space : Space) (a i : Nat) (v : Elem)
  deriving DecidableEq, Repr

/-- The STATUS register's fields (spec/10_state.md R22). Its reserved bits read 0 and are not stored. -/
structure Status where
  done : Bool
  err  : Bool
  bit  : Bool
  code : BitVec 8
  deriving DecidableEq, Repr

/-- The configuration registers (spec/10_state.md R28 to R38; SPP is derived, R31). -/
structure ConfigRegs where
  fs       : Word
  refRate  : Word
  pulseUs  : Word
  amp      : Word
  thrCenti : Word
  zone     : Word
  window   : Word
  order    : Word
  stopLo   : Word
  stopHi   : Word
  f0       : Word
  f1       : Word
  f2       : Word
  f3       : Word
  deriving DecidableEq, Repr

/-- The state of the block: "the registers of this file, the buffer spaces of 20_memory.md with their valid
bits, and nothing else" (spec/10_state.md), with the platform's parameters and the host's side of the
interface (`pending`, `replies`: the model's own, log entry 5). -/
structure State where
  cmd      : Word
  status   : Status
  errInfo0 : Word
  errInfo1 : Word
  segStart : Word
  segSyms  : Word
  symIdx   : Word
  envSum   : Word
  envZones : Word
  cfg      : ConfigRegs
  ainLen   : Word
  bytesLen : Word
  laneLen  : Word
  chLen    : Word
  rxLen    : Word
  aoutLen  : Word
  mem      : Memory
  params   : Params
  pending  : List HostAction
  replies  : List Reply
  deriving DecidableEq, Repr

/-- The block has no fault that stops it: every error of spec/60_exceptions.md R250 to R257 is a next state.
The type has no constructor, so no step ends in a fault. Safe. Log entry 11. -/
inductive Fault where
  deriving DecidableEq, Repr

/-- Why a step has no meaning. All but the first are host accesses that R66 or R67 of spec/20_memory.md
refuse ("the host has no such step"); no instruction ends in one. Log entry 6. -/
inductive Refusal where
  /-- Raised by an arm of exec whose instruction has no meaning yet. Safe: the machine stops. -/
  | notModelled (mnemonic : String)
  /-- Raised by a register access whose width is not 4 bytes (R66). Safe. -/
  | registerWidth
  /-- Raised by a register access at an offset that is no multiple of 4 (R66, R70). Safe. -/
  | registerMisaligned
  /-- Raised by a register access at an unmapped offset (R66, R72). Safe. -/
  | registerUnmapped
  /-- Raised by a host write of a read-only register (R66). Safe. -/
  | registerReadOnly
  /-- Raised by a host write to a read-only buffer space (R67). Safe. -/
  | spaceReadOnly
  /-- Raised by a buffer access whose array number or index lies outside R60's ranges (R67). Safe. -/
  | elementOutOfRange
  /-- Raised by a buffer write of a value outside the element type (R67). Safe. -/
  | valueOutOfRange
  /-- Raised by a host read of an element whose valid bit is 0 (R67). Safe. -/
  | elementUnwritten
  deriving DecidableEq, Repr

/-- Buffers with every valid bit 0 (spec/70_reset_and_hazards.md R282). -/
def Memory.empty : Memory :=
  { ain := ⟨[], []⟩, aout := ⟨[], []⟩, ch := ⟨[], []⟩,
    tx := ⟨[], [], [], [], [], [], [], []⟩, rx := ⟨[], [], [], [], [], [], [], []⟩, bytes := [] }

/-- The configuration registers after reset: the source's defaults (spec/70_reset_and_hazards.md R281). -/
def ConfigRegs.reset : ConfigRegs :=
  { fs := 44100, refRate := 44100, pulseUs := 20000, amp := 1000, thrCenti := 65000, zone := 44, window := 200,
    order := 7, stopLo := 17000, stopHi := 19500, f0 := 17600, f1 := 18000, f2 := 18400, f3 := 18800 }

/-- The machine right after reset (spec/70_reset_and_hazards.md R281 to R283), with nothing in the host's
queue (log entry 5) and the reference platform's parameters (log entry 1). -/
def State.reset : State :=
  { cmd := 0, status := { done := false, err := false, bit := false, code := 0 }, errInfo0 := 0, errInfo1 := 0,
    segStart := 0, segSyms := 0, symIdx := 0, envSum := 0, envZones := 0, cfg := ConfigRegs.reset,
    ainLen := 0, bytesLen := 0, laneLen := 0, chLen := 0, rxLen := 0, aoutLen := 0,
    mem := Memory.empty, params := referencePlatform, pending := [], replies := [] }

end Sys2Proof.Machine
end

