-- ==== Sys2Proof/Machine/Buffers.lean ====
section
/-! DEFINITION. Reading and writing buffer arrays (spec/00_scope.md R11, spec/10_state.md R42,
spec/20_memory.md R60, R67). -/

namespace Sys2Proof.Machine

/-- The listed elements from index `i` on. -/
def Buf.skipTo {α : Type} (b : Buf α) (i : Nat) : Buf α := b.dropWhile (fun e => decide (e.1 < i))

/-- The value of element `i`, or `none` where its valid bit is 0 (R42). -/
def Buf.get {α : Type} (b : Buf α) (i : Nat) : Option α :=
  match Buf.skipTo b i with
  | [] => none
  | (j, v) :: _ => if j = i then some v else none

/-- The values of a run of `n` elements from index `i`, after those already read (last first), or the index
of the first element whose valid bit is 0. -/
def Buf.readFrom {α : Type} (b : Buf α) (i : Nat) : Nat → List α → Except Nat (List α)
  | 0, acc => .ok acc.reverse
  | n + 1, acc =>
    match Buf.skipTo b i with
    | [] => .error i
    | (j, v) :: rest => if j = i then Buf.readFrom rest (i + 1) n (v :: acc) else .error i

/-- BufRead of the elements i, i + 1, …, i + n − 1 in ascending order (R11): their values, or the index of the
first unwritten one (spec/60_exceptions.md R253). -/
def Buf.readRun {α : Type} (b : Buf α) (i n : Nat) : Except Nat (List α) := Buf.readFrom b i n []

/-- BufWrite of consecutive elements from index `i` (R11): each holds its value and has its valid bit set. -/
def Buf.writeRun {α : Type} (b : Buf α) (i : Nat) (vs : List α) : Buf α :=
  b.takeWhile (fun e => decide (e.1 < i)) ++ (vs.zipIdx i).map Prod.swap ++ Buf.skipTo b (i + vs.length)

/-- The canonical form of an array of capacity `cap`: indexes at least `lo`, strictly rising, below `cap`, and
every value of the form `good`. -/
def Buf.wfFrom {α : Type} (good : α → Bool) (cap : Nat) : Nat → Buf α → Bool
  | _, [] => true
  | lo, (i, v) :: b => decide (lo ≤ i) && decide (i < cap) && good v && Buf.wfFrom good cap (i + 1) b

/-- The array of a channel. -/
def Stereo.get {α : Type} (s : Stereo α) (c : Channel) : α :=
  match c with
  | 0 => s.ch0
  | 1 => s.ch1

/-- A pair of arrays with one channel's replaced. -/
def Stereo.set {α : Type} (s : Stereo α) (c : Channel) (x : α) : Stereo α :=
  match c with
  | 0 => { s with ch0 := x }
  | 1 => { s with ch1 := x }

/-- The array of a lane. -/
def Lanes.get {α : Type} (s : Lanes α) (l : Lane) : α :=
  match l with
  | 0 => s.l0
  | 1 => s.l1
  | 2 => s.l2
  | 3 => s.l3
  | 4 => s.l4
  | 5 => s.l5
  | 6 => s.l6
  | 7 => s.l7

/-- The eight arrays with one lane's replaced. -/
def Lanes.set {α : Type} (s : Lanes α) (l : Lane) (x : α) : Lanes α :=
  match l with
  | 0 => { s with l0 := x }
  | 1 => { s with l1 := x }
  | 2 => { s with l2 := x }
  | 3 => { s with l3 := x }
  | 4 => { s with l4 := x }
  | 5 => { s with l5 := x }
  | 6 => { s with l6 := x }
  | 7 => { s with l7 := x }

/-- Eight values, one computed for each lane. -/
def Lanes.ofFn {α : Type} (f : Lane → α) : Lanes α :=
  ⟨f 0, f 1, f 2, f 3, f 4, f 5, f 6, f 7⟩

/-- Two values, one computed for each channel. -/
def Stereo.ofFn {α : Type} (f : Channel → α) : Stereo α := ⟨f 0, f 1⟩

/-- A space's identifier in `Uninit` information (spec/20_memory.md R60). -/
def Space.id : Space → Nat
  | .ain => 1
  | .aout => 2
  | .ch => 3
  | .tx => 4
  | .rx => 5
  | .bytes => 6

/-- How many arrays a space has (R60). -/
def Space.arrays : Space → Nat
  | .ain | .aout | .ch => 2
  | .tx | .rx => 8
  | .bytes => 1

/-- How many elements each array of a space has (R60). -/
def Space.capacity (p : Params) : Space → Nat
  | .ain | .aout | .ch | .tx | .rx => p.maxFrames
  | .bytes => p.maxBytes

/-- Whether the host may write a space (R60). -/
def Space.hostWritable : Space → Bool
  | .ain | .rx | .bytes => true
  | .aout | .ch | .tx => false

/-- One channel's element, for a space of two arrays. -/
def Stereo.element (s : Stereo (Buf Sample)) (a i : Nat) : Option Elem :=
  if h : a < 2 then (Buf.get (s.get ⟨a, h⟩) i).map .sample else none

/-- The value of any element of memory, or `none` where its valid bit is 0 or no such array exists
(R42, R60). -/
def Memory.element (m : Memory) (space : Space) (a i : Nat) : Option Elem :=
  match space with
  | .ain => m.ain.element a i
  | .aout => m.aout.element a i
  | .ch => m.ch.element a i
  | .tx => if h : a < 8 then (Buf.get (m.tx.get ⟨a, h⟩) i).map .tone else none
  | .rx => if h : a < 8 then (Buf.get (m.rx.get ⟨a, h⟩) i).map .sample else none
  | .bytes => if a = 0 then (Buf.get m.bytes i).map .byte else none

/-- The canonical form of a tone (State.lean). -/
def Tone.wf : Tone → Bool
  | .half _ => true
  | .sine a p q => a ≠ 0 && 0 < p && 4 * p < q && Nat.gcd p q == 1 && q ≠ 12

/-- The canonical form of memory on a platform (log entry 9): in every array the indexes rise strictly and
lie below the capacity, and every TX element is a canonical tone. -/
def Memory.wf (p : Params) (m : Memory) : Bool :=
  let stereo (s : Stereo (Buf Sample)) : Bool :=
    Buf.wfFrom (fun _ => true) p.maxFrames 0 s.ch0 && Buf.wfFrom (fun _ => true) p.maxFrames 0 s.ch1
  let lanes {α : Type} (good : α → Bool) (s : Lanes (Buf α)) : Bool :=
    [s.l0, s.l1, s.l2, s.l3, s.l4, s.l5, s.l6, s.l7].all (Buf.wfFrom good p.maxFrames 0)
  stereo m.ain && stereo m.aout && stereo m.ch && lanes Tone.wf m.tx && lanes (fun _ => true) m.rx
    && Buf.wfFrom (fun _ => true) p.maxBytes 0 m.bytes

end Sys2Proof.Machine
end

