-- ==== Sys2Proof/Machine/Numerics.lean ====
section
/-! DEFINITION. The numbers of the rules: saturation and rounding (spec/00_scope.md R10), the bit codec
(spec/41_lane_modulator.md R120, R121), the exact sine samples NUM.synth (R124), and the rounding of the exact
real sum of an overlay (spec/43_stereo_mux.md R183). Everything is computed; nothing is approximated in the
result: log entry 4 says how the rounding of an irrational sum is decided. -/

namespace Sys2Proof.Machine

/-- The largest value of a 32-bit register. -/
def u32Max : Nat := 4294967295

/-- An exact value saturated to 2^32 − 1, as a register holds it (spec/60_exceptions.md R252). -/
def sat32 (v : Nat) : Word := BitVec.ofNat 32 (min v u32Max)

/-- sat16 of R10, as the i16 it gives. -/
def sat16 (v : Int) : Sample := BitVec.ofInt 16 (max (-32768) (min 32767 v))

/-- rne of R10 for the quotient v / d: the integer nearest it, the even one of two equally near. -/
def rneDiv (v : Int) (d : Nat) : Int :=
  let f := v / d
  let r := v % d
  if 2 * r < d then f else if 2 * r > d then f + 1 else if f % 2 = 0 then f else f + 1

/-- The bit lane l carries of a byte: bit 7 − l (spec/10_state.md R46). -/
def laneBit (b : Byte) (l : Lane) : Bool := b.getLsbD (7 - l.val)

/-- bits_of (R120): the 8 bits of a byte, most significant first, so that element l is lane l's bit. -/
def bitsOf (b : Byte) : List Bool := (List.finRange 8).map (laneBit b)

/-- bits_to_byte (R121): 8 bits folded most significant first. -/
def bitsToByte (x : List Bool) : Byte :=
  BitVec.ofNat 8 (x.foldl (fun v b => 2 * v + b.toNat) 0)

/-! ### Sine samples -/

/-- The tone a × sin(2π × x / n) for a phase of the first quarter turn, 0 ≤ x / n ≤ 1/4, in canonical form. -/
def firstQuarterTone (a : Int) (x n : Nat) : Tone :=
  let g := Nat.gcd x n
  if a = 0 ∨ x = 0 then .half 0
  else if n / g = 4 then .half (2 * a)
  else if n / g = 12 then .half a
  else .sine a (x / g) (n / g)

/-- The tone a × sin(2π × x / (2 fs)) for a phase of the first half turn, x < fs: past a quarter turn,
sin(π − θ) = sin θ. -/
def firstHalfTone (a : Int) (x fs : Nat) : Tone :=
  if 2 * x ≤ fs then firstQuarterTone a x (2 * fs) else firstQuarterTone a (fs - x) (2 * fs)

/-- NUM.synth(A, f, fs, n) = A × sin(2π × f × n / fs) (R124), the exact real number. The phase is reduced to
one turn, and past half a turn sin(θ + π) = −sin θ. -/
def numSynth (amp f fs n : Nat) : Tone :=
  let x := 2 * (f * n) % (2 * fs)
  if x < fs then firstHalfTone amp x fs else firstHalfTone (-amp) (x - fs) fs

/-- pulse(b, A, f, fs, N) (R126): N exact zeros for bit 0, the sine burst from phase 0 for bit 1. -/
def pulse (b : Bool) (amp f fs count : Nat) : List Tone :=
  (List.range count).map (fun n => if b then numSynth amp f fs n else .half 0)

/-! ### Enclosures of sine values

Fixed-point numbers: the integer v at precision w stands for v / 2^w. -/

/-- Partial sum of the series of arccot: t/(2k+1) − t/(x²(2k+3)) + …, with `n` terms. -/
def arccotSum (xx : Nat) : Nat → Nat → Nat → Int
  | 0, _, _ => 0
  | n + 1, k, t => (t / (2 * k + 1) : Nat) - arccotSum xx n (k + 1) (t / xx)

/-- arccot x at precision w. -/
def arccot (w x : Nat) : Int := arccotSum (x * x) (w / 4 + 1) 0 (2 ^ w / x)

/-- π at precision w, by Machin's formula. -/
def piScaled (w : Nat) : Nat := (4 * (4 * arccot w 5 - arccot w 239)).toNat

/-- Partial sum of the series of sine from its term `t` number k on, with `n` terms; xx is the square of the
argument, at precision w. -/
def sinSum (w xx : Nat) : Nat → Nat → Nat → Int
  | 0, _, _ => 0
  | n + 1, k, t => (t : Int) - sinSum w xx n (k + 1) (t * xx / 2 ^ w / ((2 * k + 2) * (2 * k + 3)))

/-- The sine of the angle x (0 ≤ x ≤ π/2) at precision w. -/
def sinScaled (w x : Nat) : Int := sinSum w (x * x / 2 ^ w) (w / 4 + 9) 0 x

/-- sin(2π p / q), for 0 ≤ p / q ≤ 1/4, at precision w; `pi` is `piScaled w`. -/
def sinTurn (w pi p q : Nat) : Int := sinScaled w (2 * pi * p / q)

/-- How far `sinTurn` at precision w may lie from the exact value, in units of 2^−w. -/
def sinError (w : Nat) : Nat := 16 * w + 128

/-- A list of summands a × sin(2π p / q). -/
abbrev Sines := List (Int × Nat × Nat)

/-- The sum of the |a|. -/
def Sines.amplitude (ss : Sines) : Nat := (ss.map (fun s => s.1.natAbs)).sum

/-- Twice the sum h/2 + Σ a sin(2π p / q), at precision w. -/
def twiceSum (w : Nat) (h : Int) (ss : Sines) : Int :=
  let pi := piScaled w
  h * 2 ^ w + (ss.map (fun s => 2 * s.1 * sinTurn w pi s.2.1 s.2.2)).sum

/-- How far `twiceSum` may lie from the exact value. -/
def twiceSumError (w : Nat) (ss : Sines) : Nat := 2 * Sines.amplitude ss * sinError w

/-- rne of half the number v stands for at precision w. -/
def rneHalfAt (w : Nat) (v : Int) : Int := rneDiv v (2 ^ (w + 1))

/-! ### Exact zero test for short sums of cosines of rational angles

A summand (c, n, d) stands for c × exp(2πi n / d). -/

/-- Whether a rational combination of 210th roots of unity is 0; a summand (c, j) stands for c × ζ^j, with ζ
the product of the first primitive roots of the listed primes' orders. Over the field of the other primes'
roots the only relation among the p-th roots of unity is that their coefficients are all equal. -/
def rootsVanish : List Nat → List (Int × Nat) → Bool
  | [], ts => (ts.map Prod.fst).sum == 0
  | p :: ps, ts =>
    let coefficient (u : Nat) := ts.filter (fun t => t.2 % p == u)
    let negated := (coefficient 0).map (fun t => (-t.1, t.2))
    (List.range p).all (fun u => u == 0 || rootsVanish ps (coefficient u ++ negated))

/-- The angle of a summand from another's, times 210, in units of 1 / (d d'). -/
def angleFrom (t u : Int × Nat × Nat) : Int := 210 * (u.2.1 * t.2.2 - t.2.1 * u.2.2)

/-- Whether two summands' quotient is a rational times a 210th root of unity. -/
def sameClass (t u : Int × Nat × Nat) : Bool := angleFrom t u % (t.2.2 * u.2.2) == 0

/-- A summand of a class as a power of ζ, up to the rotation by the class's first summand. -/
def classExponent (t u : Int × Nat × Nat) : Int × Nat :=
  (u.1, ((angleFrom t u / (t.2.2 * u.2.2)) % 210).toNat)

/-- Whether a sum of summands is 0, as far as each class by itself sums to 0, which is tested exactly. (By
Mann's theorem a vanishing sum of at most 9 roots of unity with no vanishing part lies in one class, so no
vanishing sum of an overlay is missed.) `fuel` is the number of summands. -/
def turnsVanish : Nat → List (Int × Nat × Nat) → Bool
  | 0, ts => ts.isEmpty
  | _ + 1, [] => true
  | fuel + 1, t :: ts =>
    rootsVanish [2, 3, 5, 7] (((t :: ts).filter (sameClass t)).map (classExponent t))
      && turnsVanish fuel ((t :: ts).filter (fun u => !sameClass t u))

/-- c + Σ 2 a sin(2π p / q) as summands: 2 sin θ = 2 cos(π/2 − θ) is a root of unity and its inverse. -/
def cosineTurns (c : Int) (ss : Sines) : List (Int × Nat × Nat) :=
  (c, 0, 1) :: ss.flatMap (fun s =>
    [(s.1, s.2.2 - 4 * s.2.1, 4 * s.2.2), (s.1, 3 * s.2.2 + 4 * s.2.1, 4 * s.2.2)])

/-- Whether twice the sum h/2 + Σ a sin(2π p / q) is exactly the integer k. -/
def twiceSumIs (k h : Int) (ss : Sines) : Bool :=
  let ts := cosineTurns (h - k) ss
  turnsVanish ts.length ts

/-! ### Rounding an exact sum -/

/-- rne of lo + 1/2: the even one of lo and lo + 1 (R10). -/
def roundTie (lo : Int) : Int := if lo % 2 = 0 then lo else lo + 1

/-- rne of S = h/2 + Σ a sin(2π p / q), from an enclosure of S at precision w. Where both its ends round alike,
S rounds so too. Otherwise S is lo + 1/2 or very near it: the exact test shows most ties, the rest is left to
`n` doublings of the precision, and a sum that even these do not tell from lo + 1/2 is lo + 1/2. -/
def roundSearch (h : Int) (ss : Sines) : Nat → Nat → Int
  | 0, w =>
    let v := twiceSum w h ss
    let e : Int := twiceSumError w ss
    let lo := rneHalfAt w (v - e)
    if lo = rneHalfAt w (v + e) then lo else roundTie lo
  | n + 1, w =>
    let v := twiceSum w h ss
    let e : Int := twiceSumError w ss
    let lo := rneHalfAt w (v - e)
    if lo = rneHalfAt w (v + e) then lo
    else if twiceSumIs (2 * lo + 1) h ss then roundTie lo
    else roundSearch h ss n (2 * w)

/-- The order of the roots of unity whose integer combination twice the sum is. -/
def Sines.order (ss : Sines) : Nat := 4 * (ss.map (fun s => s.2.2)).foldl Nat.lcm 1

/-- Doublings of the precision after which a sum has been told from every tie it differs from: a nonzero
integer combination of d-th roots of unity whose coefficients' sizes sum to at most B is at least B^(1 − d) in
size. -/
def searchFuel (ss : Sines) : Nat :=
  Nat.log2 (ss.order * (Nat.log2 (4 * Sines.amplitude ss + 1) + 1)) + 1

/-- rne (R10) of the exact real number h/2 + Σ a sin(2π p / q). Log entry 4. -/
def rneSum (h : Int) (ss : Sines) : Int :=
  if ss.isEmpty then rneDiv h 2
  else roundSearch h ss (searchFuel ss) (64 + Nat.log2 (Sines.amplitude ss + 1))

/-- Twice the rational part of a tone. -/
def Tone.halves : Tone → Int
  | .half h => h
  | .sine _ _ _ => 0

/-- The irrational part of a tone. -/
def Tone.sines : Tone → Sines
  | .half _ => []
  | .sine a p q => [(a, p, q)]

/-- mix (R183): q16 of the exact sum of a sample and four lane samples. -/
def mix (x : Sample) (t0 t1 t2 t3 : Tone) : Sample :=
  sat16 (rneSum (2 * x.toInt + t0.halves + t1.halves + t2.halves + t3.halves)
    (t0.sines ++ t1.sines ++ t2.sines ++ t3.sines))

/-- mix of each of a run of samples. -/
def mixRun (x : List Sample) (t0 t1 t2 t3 : List Tone) : List Sample :=
  (x.zip (t0.zip (t1.zip (t2.zip t3)))).map (fun e => mix e.1 e.2.1 e.2.2.1 e.2.2.2.1 e.2.2.2.2)

end Sys2Proof.Machine
end

