-- ==== Sys2Proof/Machine/Flags.lean ====
section
/-! DEFINITION. STATUS: its word, its error codes, and how the flags DONE, ERR and BIT are computed
(spec/10_state.md R22, R47, spec/60_exceptions.md R251, spec/44_envelope_slicer.md R212). -/

namespace Sys2Proof.Machine

/-- The errors a command can raise (spec/60_exceptions.md R251). -/
inductive ErrCode where
  | illegal
  | config
  | rate
  | range
  | capacity
  | uninit
  | short
  deriving DecidableEq, Repr

/-- STATUS.ERRCODE of an error (R251). -/
def ErrCode.number : ErrCode → BitVec 8
  | .illegal => 1
  | .config => 2
  | .rate => 3
  | .range => 4
  | .capacity => 5
  | .uninit => 6
  | .short => 7

/-- STATUS as software reads it: DONE bit 0, ERR bit 1, BIT bit 2, ERRCODE bits 15:8, every other bit 0
(R22). -/
def Status.word (st : Status) : Word :=
  0#16 ++ st.code ++ 0#5 ++ BitVec.ofBool st.bit ++ BitVec.ofBool st.err ++ BitVec.ofBool st.done

/-- The flags after a command that completed: DONE is 1, the others as they were (R22). -/
def Status.completed (st : Status) : Status := { st with done := true }

/-- The flags after an error: ERR is 1 with the error's code, DONE is 0, BIT as it was
(spec/60_exceptions.md R254). -/
def Status.failed (st : Status) (e : ErrCode) : Status :=
  { st with done := false, err := true, code := e.number }

/-- The flags after CLR: ERR, ERRCODE and DONE are 0, BIT as it was (spec/45_control.md R241). -/
def Status.cleared (st : Status) : Status := { st with done := false, err := false, code := 0 }

/-- The decision of R212: the average of the zone peaks exceeds THR_CENTI / 100, by exact integer comparison;
no whole zone decides 0. -/
def exceedsThreshold (sum zones thrCenti : Nat) : Bool := 1 ≤ zones && thrCenti * zones < 100 * sum

end Sys2Proof.Machine
end

