-- ==== Sys2Proof/Machine/Ops.lean ====
section
/-! DEFINITION. The shared operations: raising an error and leaving the error state (spec/60_exceptions.md
R254 to R256), the two phases of a command (spec/00_scope.md R12), and the accesses of commands to buffers and
length registers (R11). -/

namespace Sys2Proof.Machine

/-- An error with its two information words, as exact values (spec/60_exceptions.md R252). -/
structure Err where
  code  : ErrCode
  info0 : Nat
  info1 : Nat
  deriving DecidableEq, Repr

/-- Error entry (spec/60_exceptions.md R254): STATUS and the two information words, saturated (R252), and
nothing else. This is the block's only exception; it saves no other state and goes nowhere. -/
def State.raise (s : State) (e : Err) : State :=
  { s with status := s.status.failed e.code, errInfo0 := sat32 e.info0, errInfo1 := sat32 e.info1 }

/-- The return from the error state (spec/60_exceptions.md R256, spec/45_control.md R241). -/
def State.clearError (s : State) : State :=
  { s with status := s.status.cleared, errInfo0 := 0, errInfo1 := 0 }

/-- The end of a command that completed: STATUS.DONE is 1 (spec/10_state.md R22). -/
def State.complete (s : State) : State := { s with status := s.status.completed }

/-- A command of any kind but CLR. In the error state it is discarded (spec/60_exceptions.md R255). Otherwise
`body` is its check phase and its write phase (spec/00_scope.md R12): it gives the state with every write made,
or the one error that is reported, in which case nothing it wrote is kept (R250). -/
def command (s : State) (body : State → Except Err State) : Host.Outcome State Fault Refusal :=
  if s.status.err then .next s
  else
    match body s with
    | .ok t => .next t.complete
    | .error e => .next (s.raise e)

/-- One check of a check phase: the error is raised where the condition does not hold. -/
def require (holds : Bool) (e : Err) : Except Err Unit := if holds then .ok () else .error e

/-- The check that a length or end lies within a limit, raising `Range` (spec/60_exceptions.md R252). -/
def requireWithin (v limit : Nat) : Except Err Unit := require (v ≤ limit) ⟨.range, v, limit⟩

/-- BufRead of a run of elements (spec/00_scope.md R11): their values, or `Uninit` with the space's id × 16 +
the array's number and the first unwritten index (spec/60_exceptions.md R252, R253). -/
def readElems {α : Type} (space : Space) (a : Nat) (b : Buf α) (i n : Nat) : Except Err (List α) :=
  match Buf.readRun b i n with
  | .ok vs => .ok vs
  | .error j => .error ⟨.uninit, space.id * 16 + a, j⟩

/-- Elements of AIN[c]. -/
def State.readAin (s : State) (c : Channel) (i n : Nat) : Except Err (List Sample) :=
  readElems .ain c (s.mem.ain.get c) i n

/-- Elements of CH[c]. -/
def State.readCh (s : State) (c : Channel) (i n : Nat) : Except Err (List Sample) :=
  readElems .ch c (s.mem.ch.get c) i n

/-- Elements of TX[l]. -/
def State.readTx (s : State) (l : Lane) (i n : Nat) : Except Err (List Tone) :=
  readElems .tx l (s.mem.tx.get l) i n

/-- Elements of RX[l]. -/
def State.readRx (s : State) (l : Lane) (i n : Nat) : Except Err (List Sample) :=
  readElems .rx l (s.mem.rx.get l) i n

/-- Elements of BYTES[0]. -/
def State.readBytes (s : State) (i n : Nat) : Except Err (List Byte) :=
  readElems .bytes 0 s.mem.bytes i n

/-- BufWrite of a run of elements of AIN[c] (by the host only). -/
def Memory.writeAin (m : Memory) (c : Channel) (i : Nat) (vs : List Sample) : Memory :=
  { m with ain := m.ain.set c (Buf.writeRun (m.ain.get c) i vs) }

/-- BufWrite of a run of elements of AOUT[c]. -/
def Memory.writeAout (m : Memory) (c : Channel) (i : Nat) (vs : List Sample) : Memory :=
  { m with aout := m.aout.set c (Buf.writeRun (m.aout.get c) i vs) }

/-- BufWrite of a run of elements of CH[c]. -/
def Memory.writeCh (m : Memory) (c : Channel) (i : Nat) (vs : List Sample) : Memory :=
  { m with ch := m.ch.set c (Buf.writeRun (m.ch.get c) i vs) }

/-- BufWrite of a run of elements of TX[l]. -/
def Memory.writeTx (m : Memory) (l : Lane) (i : Nat) (vs : List Tone) : Memory :=
  { m with tx := m.tx.set l (Buf.writeRun (m.tx.get l) i vs) }

/-- BufWrite of a run of elements of RX[l]. -/
def Memory.writeRx (m : Memory) (l : Lane) (i : Nat) (vs : List Sample) : Memory :=
  { m with rx := m.rx.set l (Buf.writeRun (m.rx.get l) i vs) }

/-- BufWrite of a run of elements of BYTES[0]. -/
def Memory.writeBytes (m : Memory) (i : Nat) (vs : List Byte) : Memory :=
  { m with bytes := Buf.writeRun m.bytes i vs }

end Sys2Proof.Machine
end

