-- ==== Sys2Proof/Machine/Operands.lean ====
section
/-! DEFINITION. The operands of commands: lanes and carriers (spec/10_state.md R46), samples per pulse (R31),
the segment (R24, R25), and the checks the commands share, each raising the error of spec/60_exceptions.md
R252. -/

namespace Sys2Proof.Machine

/-- The lane operand l = 4 × c + k (spec/30_encoding.md R91). -/
def laneOf (c : Channel) (k : Carrier) : Lane := ⟨4 * c.val + k.val, by omega⟩

/-- The carrier index of a lane, l mod 4 (spec/10_state.md R46). -/
def carrierOf (l : Lane) : Carrier := ⟨l.val % 4, by omega⟩

/-- The channel of a lane, l div 4 (spec/10_state.md R46). -/
def channelOf (l : Lane) : Channel := ⟨l.val / 4, by omega⟩

/-- The carrier frequency F_k (spec/10_state.md R38). -/
def ConfigRegs.carrier (r : ConfigRegs) (k : Carrier) : Nat :=
  match k with
  | 0 => r.f0.toNat
  | 1 => r.f1.toNat
  | 2 => r.f2.toNat
  | 3 => r.f3.toNat

/-- The register offset of F_k (spec/10_state.md R20). -/
def carrierOffset (k : Carrier) : Nat := 0x06C + 4 * k.val

/-- The samples per pulse, exact (spec/10_state.md R31): 0 where the configuration gives no whole number. -/
def ConfigRegs.spp (r : ConfigRegs) : Nat :=
  let product := r.pulseUs.toNat * r.fs.toNat
  if 1 ≤ r.fs.toNat ∧ 1 ≤ r.pulseUs.toNat ∧ product % 1000000 = 0 then product / 1000000 else 0

/-- The error of an invalid SPP: cfg_offender() and cfg_value() of spec/60_exceptions.md R252. -/
def ConfigRegs.sppError (r : ConfigRegs) : Err :=
  if r.fs = 0 then ⟨.config, 0x040, r.fs.toNat⟩ else ⟨.config, 0x048, r.pulseUs.toNat⟩

/-- The check that SPP is valid. -/
def requireSpp (s : State) : Except Err Unit := require (s.cfg.spp ≠ 0) s.cfg.sppError

/-- The check that AMP is legal for synthesis (spec/10_state.md R32). -/
def requireAmp (s : State) : Except Err Unit := require (s.cfg.amp.toNat ≤ 32767) ⟨.config, 0x050, s.cfg.amp.toNat⟩

/-- The check that ZONE is legal for slicing (spec/10_state.md R34). -/
def requireZone (s : State) : Except Err Unit := require (s.cfg.zone ≠ 0) ⟨.config, 0x058, s.cfg.zone.toNat⟩

/-- The check of an extraction-side command that FS is the reference rate (spec/10_state.md R29). -/
def requireRate (s : State) : Except Err Unit :=
  require (s.cfg.fs = s.cfg.refRate) ⟨.rate, s.cfg.fs.toNat, s.cfg.refRate.toNat⟩

/-- The check that ORDER lies in 1..MAX_ORDER (spec/10_state.md R36). -/
def requireOrder (s : State) : Except Err Unit :=
  require (1 ≤ s.cfg.order.toNat && s.cfg.order.toNat ≤ s.params.maxOrder) ⟨.config, 0x060, s.cfg.order.toNat⟩

/-- The validity of the band-pass of carrier k, in R154's order (spec/42_band_filter.md). -/
def requireBandPass (s : State) (k : Carrier) : Except Err Unit := do
  let f := s.cfg.carrier k
  let window := s.cfg.window.toNat
  requireOrder s
  require (1 ≤ window) ⟨.config, 0x05C, window⟩
  require (window < f && 2 * (f + window) < s.cfg.fs.toNat) ⟨.config, carrierOffset k, f⟩

/-- The validity of the band-pass of every carrier, in R159's order (spec/42_band_filter.md). -/
def requireBandPasses (s : State) : Except Err Unit := do
  requireBandPass s 0
  requireBandPass s 1
  requireBandPass s 2
  requireBandPass s 3

/-- The validity of the band-stop, in R155's order (spec/42_band_filter.md). -/
def requireBandStop (s : State) : Except Err Unit := do
  let lo := s.cfg.stopLo.toNat
  let hi := s.cfg.stopHi.toNat
  requireOrder s
  require (1 ≤ lo && lo < hi) ⟨.config, 0x064, lo⟩
  require (2 * hi < s.cfg.fs.toNat) ⟨.config, 0x068, hi⟩

/-- FILTER_MIN_LEN(ORDER) on the state's platform (spec/42_band_filter.md R156). -/
def State.minLen (s : State) : Nat := filterMinLen s.params s.cfg.order.toNat

/-- The check that a sequence of n samples is long enough to filter (spec/42_band_filter.md R156). -/
def requireLong (s : State) (n : Nat) : Except Err Unit := require (s.minLen < n) ⟨.short, n, s.minLen⟩

/-- The first sample of the extraction segment (spec/10_state.md R24). -/
def State.segFrom (s : State) : Nat := s.segStart.toNat

/-- The segment's length in samples, SEG_SYMS × SPP (spec/10_state.md R25). -/
def State.segLen (s : State) : Nat := s.segSyms.toNat * s.cfg.spp

/-- The `Range` checks of the extraction segment (spec/42_band_filter.md R157). -/
def requireSegment (s : State) : Except Err Unit := do
  requireWithin s.ainLen.toNat s.params.maxFrames
  requireWithin (s.segFrom + s.segLen) s.ainLen.toNat

end Sys2Proof.Machine
end

