-- ==== Sys2Proof/Machine/Filter.lean ====
section
/-! DEFINITION. The filter function NUM.bwf (spec/42_band_filter.md R151, R153). -/

namespace Sys2Proof.Machine

/-- NUM.bwf(type, N, lo, hi, fs, x) (R151), of which only the laws of R153 hold: the output has the input's
length (L1), every value is an i16 (L2, by its type), it depends on the six arguments alone (L3), and zeros
filter to zeros (L4). Every other value is free (L5): log entry 3. -/
def bwf (type : Band) (order lo hi fs : Nat) (x : List Sample) : List Sample :=
  if x.all (fun v => v == 0) then x
  else (List.range x.length).map (fun i => Config.bwfSample type order lo hi fs x i)

/-- The band-pass of carrier k, edges F_k − WINDOW and F_k + WINDOW (R150, R157). -/
def bandPass (s : State) (k : Carrier) (x : List Sample) : List Sample :=
  bwf .pass s.cfg.order.toNat (s.cfg.carrier k - s.cfg.window.toNat) (s.cfg.carrier k + s.cfg.window.toNat)
    s.cfg.fs.toNat x

/-- The band-stop, edges STOP_LO and STOP_HI (R150, R158). -/
def bandStop (s : State) (x : List Sample) : List Sample :=
  bwf .stop s.cfg.order.toNat s.cfg.stopLo.toNat s.cfg.stopHi.toNat s.cfg.fs.toNat x

end Sys2Proof.Machine
end

