-- ==== Sys2Proof/Machine/BandFilter.lean ====
section
/-! DEFINITION. The band filter's commands: BPF, BSF and XLANES (spec/42_band_filter.md). -/

namespace Sys2Proof.Machine

/-- The check and write phases of BPF (R157). -/
def bpfBody (c : Channel) (k : Carrier) (s : State) : Except Err State := do
  requireSpp s
  requireBandPass s k
  requireRate s
  requireSegment s
  requireLong s s.segLen
  let x ← s.readAin c s.segFrom s.segLen
  pure { s with
    mem := s.mem.writeRx (laneOf c k) 0 (bandPass s k x)
    rxLen := sat32 s.segLen }

/-- BPF (R157): one channel's segment, band-passed at one carrier, into one RX lane. -/
def execBpf (c : Channel) (k : Carrier) (s : State) : Host.Outcome State Fault Refusal :=
  command s (bpfBody c k)

/-- The check and write phases of BSF (R158). -/
def bsfBody (c : Channel) (s : State) : Except Err State := do
  require (s.cfg.fs ≠ 0) ⟨.config, 0x040, s.cfg.fs.toNat⟩
  requireBandStop s
  let n := s.chLen.toNat
  requireWithin n s.params.maxFrames
  requireLong s n
  let x ← s.readCh c 0 n
  pure { s with mem := s.mem.writeCh c 0 (bandStop s x) }

/-- BSF (R158): one working channel, band-stopped in place. -/
def execBsf (c : Channel) (s : State) : Host.Outcome State Fault Refusal := command s (bsfBody c)

/-- Memory with a run written from index 0 of every RX lane. -/
def Memory.writeRxLanes (m : Memory) (run : Lane → List Sample) : Memory :=
  { m with rx := Lanes.ofFn (fun l => Buf.writeRun (m.rx.get l) 0 (run l)) }

/-- The check and write phases of XLANES (R159). -/
def xlanesBody (s : State) : Except Err State := do
  requireSpp s
  requireBandPasses s
  requireRate s
  requireSegment s
  requireLong s s.segLen
  let x0 ← s.readAin 0 s.segFrom s.segLen
  let x1 ← s.readAin 1 s.segFrom s.segLen
  pure { s with
    mem := s.mem.writeRxLanes (fun l =>
      bandPass s (carrierOf l) (if channelOf l = 0 then x0 else x1))
    rxLen := sat32 s.segLen }

/-- XLANES (R159): both channels' segments, band-passed at all four carriers, into the eight RX lanes. -/
def execXlanes (s : State) : Host.Outcome State Fault Refusal := command s xlanesBody

end Sys2Proof.Machine
end

