-- ==== Sys2Proof/Machine/Control.lean ====
section
/-! DEFINITION. The control commands NOP and CLR (spec/45_control.md). -/

namespace Sys2Proof.Machine

/-- NOP (R240): STATUS.DONE only. -/
def execNop (s : State) : Host.Outcome State Fault Refusal := command s (fun s => .ok s)

/-- CLR (R241): clears the error state, whether or not ERR is 1; the only command the error state does not
discard. -/
def execClr (s : State) : Host.Outcome State Fault Refusal := .next s.clearError

end Sys2Proof.Machine
end

