-- ==== Sys2Proof/Machine/Modulator.lean ====
section
/-! DEFINITION. The lane modulator: SYNTH and MOD (spec/41_lane_modulator.md). -/

namespace Sys2Proof.Machine

/-- The pulse of bit b at carrier k under the current configuration (R126). -/
def State.pulse (s : State) (b : Bool) (k : Carrier) : List Tone :=
  Sys2Proof.Machine.pulse b s.cfg.amp.toNat (s.cfg.carrier k) s.cfg.fs.toNat s.cfg.spp

/-- The check and write phases of SYNTH (R127). -/
def synthBody (c : Channel) (k : Carrier) (b : Bool) (s : State) : Except Err State := do
  requireSpp s
  requireAmp s
  let slot := s.symIdx.toNat
  let stop := (slot + 1) * s.cfg.spp
  requireWithin stop s.params.maxFrames
  pure { s with
    mem := s.mem.writeTx (laneOf c k) (slot * s.cfg.spp) (s.pulse b k)
    laneLen := sat32 (max s.laneLen.toNat stop) }

/-- SYNTH (R127): one pulse into one slot of one lane. -/
def execSynth (c : Channel) (k : Carrier) (b : Bool) (s : State) : Host.Outcome State Fault Refusal :=
  command s (synthBody c k b)

/-- The samples of lane l for a byte stream: one pulse per byte, of the byte's bit for the lane (R128). -/
def laneStream (s : State) (bytes : List Byte) (l : Lane) : List Tone :=
  bytes.flatMap (fun b => s.pulse (laneBit b l) (carrierOf l))

/-- Memory with a run written from index 0 of every TX lane. -/
def Memory.writeTxLanes (m : Memory) (run : Lane → List Tone) : Memory :=
  { m with tx := Lanes.ofFn (fun l => Buf.writeRun (m.tx.get l) 0 (run l)) }

/-- The check and write phases of MOD (R128). -/
def modBody (s : State) : Except Err State := do
  requireSpp s
  requireAmp s
  let n := s.bytesLen.toNat
  requireWithin n s.params.maxBytes
  requireWithin (n * s.cfg.spp) s.params.maxFrames
  let bytes ← s.readBytes 0 n
  pure { s with
    mem := s.mem.writeTxLanes (laneStream s bytes)
    laneLen := sat32 (n * s.cfg.spp) }

/-- MOD (R128): the byte stream into the eight TX lanes. -/
def execMod (s : State) : Host.Outcome State Fault Refusal := command s modBody

end Sys2Proof.Machine
end

