-- ==== Sys2Proof/Machine/Slicer.lean ====
section
/-! DEFINITION. The envelope detector and symbol slicer: DECIDE, DECODE and DEMOD
(spec/44_envelope_slicer.md). -/

namespace Sys2Proof.Machine

/-- The elements j, …, j + n − 1 of a sequence (spec/00_scope.md R9). -/
def slice {α : Type} (xs : List α) (j n : Nat) : List α := (xs.drop j).take n

/-- The zones of a segment (R210): zone j is the samples j × Z to (j + 1) × Z − 1; a final partial zone is
discarded. -/
def zones (z : Nat) (seg : List Sample) : List (List Sample) :=
  (List.range (seg.length / z)).map (fun j => slice seg (j * z) z)

/-- The peak of a zone (R211): the largest exact absolute value, so that of −32768 is 32768. -/
def peak (zone : List Sample) : Nat := zone.foldl (fun m v => max m v.toInt.natAbs) 0

/-- What `envelope` returns (R213): the bit, the sum of the zone peaks and the number of zones. -/
structure Envelope where
  bit   : Bool
  sum   : Nat
  zones : Nat
  deriving DecidableEq, Repr

/-- envelope(seg) (R213); it reads only ZONE and THR_CENTI of the configuration. -/
def envelope (r : ConfigRegs) (seg : List Sample) : Envelope :=
  let zs := zones r.zone.toNat seg
  let sum := (zs.map peak).sum
  { bit := exceedsThreshold sum zs.length r.thrCenti.toNat, sum := sum, zones := zs.length }

/-- The check and write phases of DECIDE (R215). -/
def decideBody (c : Channel) (k : Carrier) (s : State) : Except Err State := do
  requireSpp s
  requireZone s
  requireRate s
  requireWithin s.rxLen.toNat s.params.maxFrames
  let slot := s.symIdx.toNat
  requireWithin ((slot + 1) * s.cfg.spp) s.rxLen.toNat
  let seg ← s.readRx (laneOf c k) (slot * s.cfg.spp) s.cfg.spp
  let e := envelope s.cfg seg
  pure { s with
    status := { s.status with bit := e.bit }
    envSum := sat32 e.sum
    envZones := sat32 e.zones }

/-- DECIDE (R215): one lane's bit for one symbol slot. -/
def execDecide (c : Channel) (k : Carrier) (s : State) : Host.Outcome State Fault Refusal :=
  command s (decideBody c k)

/-- The first n samples of every RX lane, read lane by lane (R217). -/
def readRxLanes (s : State) (n : Nat) : Except Err (Lanes (List Sample)) := do
  let l0 ← s.readRx 0 0 n
  let l1 ← s.readRx 1 0 n
  let l2 ← s.readRx 2 0 n
  let l3 ← s.readRx 3 0 n
  let l4 ← s.readRx 4 0 n
  let l5 ← s.readRx 5 0 n
  let l6 ← s.readRx 6 0 n
  let l7 ← s.readRx 7 0 n
  pure ⟨l0, l1, l2, l3, l4, l5, l6, l7⟩

/-- The byte of symbol j (R216): the decisions of the eight lanes' slot j, lane 0 first. -/
def symbolByte (r : ConfigRegs) (lanes : Lanes (List Sample)) (j : Nat) : Byte :=
  bitsToByte ((List.finRange 8).map (fun l => (envelope r (slice (lanes.get l) (j * r.spp) r.spp)).bit))

/-- decode_symbols() (R216). -/
def decodeSymbols (r : ConfigRegs) (lanes : Lanes (List Sample)) (count : Nat) : List Byte :=
  (List.range count).map (symbolByte r lanes)

/-- The check and write phases of DECODE (R217). -/
def decodeBody (s : State) : Except Err State := do
  requireSpp s
  requireZone s
  requireRate s
  requireWithin s.rxLen.toNat s.params.maxFrames
  let count := s.rxLen.toNat / s.cfg.spp
  requireWithin count s.params.maxBytes
  let lanes ← readRxLanes s (count * s.cfg.spp)
  pure { s with
    mem := s.mem.writeBytes 0 (decodeSymbols s.cfg lanes count)
    bytesLen := sat32 count }

/-- DECODE (R217): the eight RX lanes into bytes. -/
def execDecode (s : State) : Host.Outcome State Fault Refusal := command s decodeBody

/-- The check phase of DEMOD (R218): that of XLANES, with ZONE after its Config checks and SEG_SYMS after its
Range checks. -/
def demodChecks (s : State) : Except Err Unit := do
  requireSpp s
  requireBandPasses s
  requireZone s
  requireRate s
  requireSegment s
  requireWithin s.segSyms.toNat s.params.maxBytes
  requireLong s s.segLen
  let _ ← s.readAin 0 s.segFrom s.segLen
  let _ ← s.readAin 1 s.segFrom s.segLen

/-- DEMOD's body (R218): every check, then the write phases of XLANES and of DECODE. Log entry 12. -/
def demodBody (s : State) : Except Err State := do
  demodChecks s
  let s ← xlanesBody s
  decodeBody s

/-- DEMOD (R218): extract and slice one segment. -/
def execDemod (s : State) : Host.Outcome State Fault Refusal := command s demodBody

end Sys2Proof.Machine
end

