-- ==== Sys2Proof/Machine/StereoMux.lean ====
section
/-! DEFINITION. The stereo multiplexer, the overlay and the embedder: DEMUX, OVL, MUX and EMBED
(spec/43_stereo_mux.md). -/

namespace Sys2Proof.Machine

/-- The check and write phases of DEMUX (R182). -/
def demuxBody (s : State) : Except Err State := do
  let n := s.ainLen.toNat
  requireWithin n s.params.maxFrames
  let v0 ← s.readAin 0 0 n
  let v1 ← s.readAin 1 0 n
  pure { s with mem := (s.mem.writeCh 0 0 v0).writeCh 1 0 v1, chLen := s.ainLen }

/-- DEMUX (R182): the stereo input into the two working channels. -/
def execDemux (s : State) : Host.Outcome State Fault Refusal := command s demuxBody

/-- The check and write phases of OVL (R184). -/
def ovlBody (c : Channel) (s : State) : Except Err State := do
  let n := s.laneLen.toNat
  requireWithin s.chLen.toNat s.params.maxFrames
  requireWithin n s.chLen.toNat
  let x ← s.readCh c 0 n
  let t0 ← s.readTx (laneOf c 0) 0 n
  let t1 ← s.readTx (laneOf c 1) 0 n
  let t2 ← s.readTx (laneOf c 2) 0 n
  let t3 ← s.readTx (laneOf c 3) 0 n
  pure { s with mem := s.mem.writeCh c 0 (mixRun x t0 t1 t2 t3) }

/-- OVL (R184): a working channel mixed with its four TX lanes. -/
def execOvl (c : Channel) (s : State) : Host.Outcome State Fault Refusal := command s (ovlBody c)

/-- The check and write phases of MUX (R185). -/
def muxBody (s : State) : Except Err State := do
  let n := s.chLen.toNat
  requireWithin n s.params.maxFrames
  let v0 ← s.readCh 0 0 n
  let v1 ← s.readCh 1 0 n
  pure { s with mem := (s.mem.writeAout 0 0 v0).writeAout 1 0 v1, aoutLen := s.chLen }

/-- MUX (R185): the two working channels into the stereo output. -/
def execMux (s : State) : Host.Outcome State Fault Refusal := command s muxBody

/-- The check phase of EMBED (R187), with the capacity check of R186. -/
def embedChecks (s : State) : Except Err Unit := do
  requireSpp s
  requireAmp s
  requireBandStop s
  let n := s.bytesLen.toNat
  let frames := s.ainLen.toNat
  requireWithin n s.params.maxBytes
  requireWithin frames s.params.maxFrames
  require (n * s.cfg.spp ≤ frames) ⟨.capacity, n * s.cfg.pulseUs.toNat, frames⟩
  requireLong s frames
  let _ ← s.readBytes 0 n
  let _ ← s.readAin 0 0 frames
  let _ ← s.readAin 1 0 frames

/-- The write phase of EMBED (R187): the seven sub-steps in order, each on the state the previous one left
(spec/20_memory.md R80). Log entry 12. -/
def embedSteps (s : State) : Except Err State := do
  let s ← modBody s
  let s ← demuxBody s
  let s ← bsfBody 0 s
  let s ← bsfBody 1 s
  let s ← ovlBody 0 s
  let s ← ovlBody 1 s
  muxBody s

/-- EMBED's body: every check before any write (R187). -/
def embedBody (s : State) : Except Err State := do
  embedChecks s
  embedSteps s

/-- EMBED (R187): the whole embed operation. -/
def execEmbed (s : State) : Host.Outcome State Fault Refusal := command s embedBody

end Sys2Proof.Machine
end

