-- ==== Sys2Proof/Machine/Dispatch.lean ====
section
/-! DEFINITION. The meaning of every command (spec/30_encoding.md R94), one arm per constructor. -/

namespace Sys2Proof.Machine

def exec (i : Instr) (s : State) : Host.Outcome State Fault Refusal :=
  match i with
  | .nop => Sys2Proof.Machine.execNop s
  | .clr => Sys2Proof.Machine.execClr s
  | .synth c k b => Sys2Proof.Machine.execSynth c k b s
  | .mod => Sys2Proof.Machine.execMod s
  | .bpf c k => Sys2Proof.Machine.execBpf c k s
  | .bsf c => Sys2Proof.Machine.execBsf c s
  | .xlanes => Sys2Proof.Machine.execXlanes s
  | .demux => Sys2Proof.Machine.execDemux s
  | .ovl c => Sys2Proof.Machine.execOvl c s
  | .mux => Sys2Proof.Machine.execMux s
  | .embed => Sys2Proof.Machine.execEmbed s
  | .decide c k => Sys2Proof.Machine.execDecide c k s
  | .decode => Sys2Proof.Machine.execDecode s
  | .demod => Sys2Proof.Machine.execDemod s

end Sys2Proof.Machine
end

