-- ==== Sys2Proof/WellFormed.lean ====
section
/-! DEFINITION. Well-formed command words: the fields of format C (spec/30_encoding.md R90) and the three
conditions R96 puts on a legal word. The operands of an `Instr` are bounded by their types, so the checks are
about the fields of a word; `Sys2Proof.Instr.fields` gives a command's fields. -/

namespace Sys2Proof

/-- The five fields of format C (R90). -/
structure Fields where
  opc : BitVec 8
  ch  : BitVec 1
  k   : BitVec 2
  bit : BitVec 1
  rsv : BitVec 20
  deriving DecidableEq, Repr

/-- The fields of a command word, by the bit positions of R90. -/
def Fields.ofWord (w : Word) : Fields :=
  ⟨w.extractLsb' 0 8, w.extractLsb' 8 1, w.extractLsb' 9 2, w.extractLsb' 11 1, w.extractLsb' 12 20⟩

/-- Which of CH, K and BIT a command reads: R94's column "uses". -/
structure Uses where
  ch  : Bool
  k   : Bool
  bit : Bool
  deriving DecidableEq, Repr

/-- The fields an assigned opcode uses, or `none` for an opcode R94 does not assign. -/
def Uses.ofOpcode (opc : BitVec 8) : Option Uses :=
  if opc = 0x10 then some ⟨true, true, true⟩
  else if opc = 0x20 ∨ opc = 0x40 then some ⟨true, true, false⟩
  else if opc = 0x21 ∨ opc = 0x31 then some ⟨true, false, false⟩
  else if opc ∈ [0x01, 0x02, 0x11, 0x22, 0x30, 0x32, 0x33, 0x41, 0x42] then some ⟨false, false, false⟩
  else none

/-- The three checks of R96: the opcode is assigned, RSV is 0 (R92), and every field the command does not use
is 0 (R95). -/
def Fields.wellFormed (f : Fields) : Bool :=
  match Uses.ofOpcode f.opc with
  | none => false
  | some u => f.rsv == 0 && (u.ch || f.ch == 0) && (u.k || f.k == 0) && (u.bit || f.bit == 0)

/-- The fields a command stands for (R94, R98). -/
def Instr.fields : Instr → Fields
  | .nop         => ⟨0x01, 0, 0, 0, 0⟩
  | .clr         => ⟨0x02, 0, 0, 0, 0⟩
  | .synth c k b => ⟨0x10, .ofNat 1 c, .ofNat 2 k, .ofBool b, 0⟩
  | .mod         => ⟨0x11, 0, 0, 0, 0⟩
  | .bpf c k     => ⟨0x20, .ofNat 1 c, .ofNat 2 k, 0, 0⟩
  | .bsf c       => ⟨0x21, .ofNat 1 c, 0, 0, 0⟩
  | .xlanes      => ⟨0x22, 0, 0, 0, 0⟩
  | .demux       => ⟨0x30, 0, 0, 0, 0⟩
  | .ovl c       => ⟨0x31, .ofNat 1 c, 0, 0, 0⟩
  | .mux         => ⟨0x32, 0, 0, 0, 0⟩
  | .embed       => ⟨0x33, 0, 0, 0, 0⟩
  | .decide c k  => ⟨0x40, .ofNat 1 c, .ofNat 2 k, 0, 0⟩
  | .decode      => ⟨0x41, 0, 0, 0, 0⟩
  | .demod       => ⟨0x42, 0, 0, 0, 0⟩

/-- A command whose fields are those of a legal word. It holds of every `Instr`, since the operands' types
bound them. -/
abbrev Instr.WellFormed (i : Instr) : Prop := i.fields.wellFormed = true

end Sys2Proof
end

