-- ==== Sys2Proof/Decode.lean ====
section
/-! DEFINITION. Decoding and encoding of command words (spec/30_encoding.md R90, R91, R94, R100). -/

namespace Sys2Proof

/-- One row of R94's table: a word selects the command if and only if `w AND mask = pattern`, and the command
is built from the operands c, k and b of R91. -/
structure OpcodeRow where
  pattern : Word
  mask    : Word
  build   : Channel → Carrier → Bool → Instr

/-- The opcode table of R94, in its order. -/
def opcodeTable : List OpcodeRow :=
  [ ⟨0x00000001, 0xFFFFFFFF, fun _ _ _ => .nop⟩,
    ⟨0x00000002, 0xFFFFFFFF, fun _ _ _ => .clr⟩,
    ⟨0x00000010, 0xFFFFF0FF, fun c k b => .synth c k b⟩,
    ⟨0x00000011, 0xFFFFFFFF, fun _ _ _ => .mod⟩,
    ⟨0x00000020, 0xFFFFF8FF, fun c k _ => .bpf c k⟩,
    ⟨0x00000021, 0xFFFFFEFF, fun c _ _ => .bsf c⟩,
    ⟨0x00000022, 0xFFFFFFFF, fun _ _ _ => .xlanes⟩,
    ⟨0x00000030, 0xFFFFFFFF, fun _ _ _ => .demux⟩,
    ⟨0x00000031, 0xFFFFFEFF, fun c _ _ => .ovl c⟩,
    ⟨0x00000032, 0xFFFFFFFF, fun _ _ _ => .mux⟩,
    ⟨0x00000033, 0xFFFFFFFF, fun _ _ _ => .embed⟩,
    ⟨0x00000040, 0xFFFFF8FF, fun c k _ => .decide c k⟩,
    ⟨0x00000041, 0xFFFFFFFF, fun _ _ _ => .decode⟩,
    ⟨0x00000042, 0xFFFFFFFF, fun _ _ _ => .demod⟩ ]

/-- The operand c = w[8:8] (R91). -/
def operandC (w : Word) : Channel := (w.extractLsb' 8 1).toFin

/-- The operand k = w[10:9] (R91). -/
def operandK (w : Word) : Carrier := (w.extractLsb' 9 2).toFin

/-- The operand b = w[11:11] (R91). -/
def operandB (w : Word) : Bool := w.getLsbD 11

/-- Why a word is illegal (R96). The block reports all three alike, as `Illegal` with the word. -/
inductive IllegalWord where
  | unassignedOpcode
  | reservedBitSet
  | unusedFieldSet
  deriving DecidableEq, Repr

/-- The name of a word's illegality (R92, R95, R96), for a word no row of the table matches. -/
def illegalReason (w : Word) : IllegalWord :=
  if Uses.ofOpcode (w.extractLsb' 0 8) = none then .unassignedOpcode
  else if w.extractLsb' 12 20 ≠ 0 then .reservedBitSet
  else .unusedFieldSet

/-- R100: the row whose match and mask select the word, or the word is illegal. Total on every 32-bit value. -/
def decode (w : Word) : Except IllegalWord Instr :=
  match opcodeTable.find? (fun r => w &&& r.mask == r.pattern) with
  | some r => .ok (r.build (operandC w) (operandK w) (operandB w))
  | none   => .error (illegalReason w)

/-- A command's word from the opcode and the operand fields at their places (R90). -/
def encodeFields (opc : Word) (c : Nat) (k : Nat) (b : Bool) : Word :=
  opc ||| (BitVec.ofNat 32 c <<< 8) ||| (BitVec.ofNat 32 k <<< 9) ||| (BitVec.ofNat 32 b.toNat <<< 11)

/-- The word of a command (R90, R94; worked encodings R101). -/
def encode : Instr → Word
  | .nop         => 0x01
  | .clr         => 0x02
  | .synth c k b => encodeFields 0x10 c k b
  | .mod         => 0x11
  | .bpf c k     => encodeFields 0x20 c k false
  | .bsf c       => encodeFields 0x21 c 0 false
  | .xlanes      => 0x22
  | .demux       => 0x30
  | .ovl c       => encodeFields 0x31 c 0 false
  | .mux         => 0x32
  | .embed       => 0x33
  | .decide c k  => encodeFields 0x40 c k false
  | .decode      => 0x41
  | .demod       => 0x42

/-- The command the decoder reads from a row of `nbits` bits whose value is `w`: a command is exactly one
32-bit word (R90), held as one indivisible register (spec/20_memory.md R69), so the word is `w` with every
bit above `nbits` 0. -/
def decodeTableWord (nbits w : Nat) : Option Instr :=
  match decode (BitVec.ofNat 32 (w % 2 ^ nbits)) with
  | .ok i    => some i
  | .error _ => none

end Sys2Proof
end

