-- ==== Sys2Proof/Machine/HostAccess.lean ====
section
/-! DEFINITION. The host's side of the interface: the register map (spec/10_state.md R20), register and buffer
accesses (spec/20_memory.md R66, R67), reset (spec/70_reset_and_hazards.md R280), and how a written command
word comes to run (spec/10_state.md R21). Log entries 5, 6, 7, 10. -/

namespace Sys2Proof.Machine

/-- The registers in the order of R20's table. -/
def Reg.all : List Reg :=
  [.cmd, .status, .errInfo0, .errInfo1, .segStart, .segSyms, .symIdx, .envSum, .envZones] ++
  [.fs, .refRate, .pulseUs, .spp, .amp, .thrCenti, .zone, .window, .order, .stopLo, .stopHi] ++
  [.f0, .f1, .f2, .f3, .ainLen, .bytesLen, .laneLen, .chLen, .rxLen, .aoutLen]

/-- A register's byte offset (R20). -/
def Reg.offset : Reg → Nat
  | .cmd => 0x000
  | .status => 0x004
  | .errInfo0 => 0x008
  | .errInfo1 => 0x00C
  | .segStart => 0x010
  | .segSyms => 0x014
  | .symIdx => 0x018
  | .envSum => 0x01C
  | .envZones => 0x020
  | .fs => 0x040
  | .refRate => 0x044
  | .pulseUs => 0x048
  | .spp => 0x04C
  | .amp => 0x050
  | .thrCenti => 0x054
  | .zone => 0x058
  | .window => 0x05C
  | .order => 0x060
  | .stopLo => 0x064
  | .stopHi => 0x068
  | .f0 => 0x06C
  | .f1 => 0x070
  | .f2 => 0x074
  | .f3 => 0x078
  | .ainLen => 0x080
  | .bytesLen => 0x084
  | .laneLen => 0x088
  | .chLen => 0x08C
  | .rxLen => 0x090
  | .aoutLen => 0x094

/-- The register at an offset, or `none` where the offset is unmapped (R20, R72). -/
def Reg.atOffset (off : Nat) : Option Reg := Reg.all.find? (fun r => r.offset == off)

/-- What a host read of SPP returns (R31): the computed value, or a free value where it needs more than 32
bits (log entry 7). -/
def ConfigRegs.sppWord (r : ConfigRegs) : Word :=
  if r.spp ≤ u32Max then BitVec.ofNat 32 r.spp else Config.sppWide r.fs r.pulseUs

/-- The value a host read of a register returns (R20, R66). -/
def State.readReg (s : State) : Reg → Word
  | .cmd => s.cmd
  | .status => s.status.word
  | .errInfo0 => s.errInfo0
  | .errInfo1 => s.errInfo1
  | .segStart => s.segStart
  | .segSyms => s.segSyms
  | .symIdx => s.symIdx
  | .envSum => s.envSum
  | .envZones => s.envZones
  | .fs => s.cfg.fs
  | .refRate => s.cfg.refRate
  | .pulseUs => s.cfg.pulseUs
  | .spp => s.cfg.sppWord
  | .amp => s.cfg.amp
  | .thrCenti => s.cfg.thrCenti
  | .zone => s.cfg.zone
  | .window => s.cfg.window
  | .order => s.cfg.order
  | .stopLo => s.cfg.stopLo
  | .stopHi => s.cfg.stopHi
  | .f0 => s.cfg.f0
  | .f1 => s.cfg.f1
  | .f2 => s.cfg.f2
  | .f3 => s.cfg.f3
  | .ainLen => s.ainLen
  | .bytesLen => s.bytesLen
  | .laneLen => s.laneLen
  | .chLen => s.chLen
  | .rxLen => s.rxLen
  | .aoutLen => s.aoutLen

/-- A host write of an RW register (R40): all 32 bits are stored unchanged. `none` for a read-only register
and for CMD, whose write issues a command. -/
def State.writeReg (s : State) (r : Reg) (v : Word) : Option State :=
  match r with
  | .segStart => some { s with segStart := v }
  | .segSyms => some { s with segSyms := v }
  | .symIdx => some { s with symIdx := v }
  | .fs => some { s with cfg := { s.cfg with fs := v } }
  | .refRate => some { s with cfg := { s.cfg with refRate := v } }
  | .pulseUs => some { s with cfg := { s.cfg with pulseUs := v } }
  | .amp => some { s with cfg := { s.cfg with amp := v } }
  | .thrCenti => some { s with cfg := { s.cfg with thrCenti := v } }
  | .zone => some { s with cfg := { s.cfg with zone := v } }
  | .window => some { s with cfg := { s.cfg with window := v } }
  | .order => some { s with cfg := { s.cfg with order := v } }
  | .stopLo => some { s with cfg := { s.cfg with stopLo := v } }
  | .stopHi => some { s with cfg := { s.cfg with stopHi := v } }
  | .f0 => some { s with cfg := { s.cfg with f0 := v } }
  | .f1 => some { s with cfg := { s.cfg with f1 := v } }
  | .f2 => some { s with cfg := { s.cfg with f2 := v } }
  | .f3 => some { s with cfg := { s.cfg with f3 := v } }
  | .ainLen => some { s with ainLen := v }
  | .bytesLen => some { s with bytesLen := v }
  | .rxLen => some { s with rxLen := v }
  | .cmd | .status | .errInfo0 | .errInfo1 | .envSum | .envZones | .spp | .laneLen | .chLen | .aoutLen => none

/-- What a step has to do: it is over already, or a decoded command is to run from a state. -/
inductive Fetched where
  | finished (o : Host.Outcome State Fault Refusal)
  | run (i : Instr) (s : State)

/-- The register a register access names, or why the access is refused (R66, R70). -/
def registerAt (width off : Nat) : Except Refusal Reg :=
  if width ≠ 4 then .error .registerWidth
  else if off % 4 ≠ 0 then .error .registerMisaligned
  else
    match Reg.atOffset off with
    | some r => .ok r
    | none => .error .registerUnmapped

/-- A write of a word to CMD (R21): the word is stored, then decoded. A word that is no command raises
`Illegal` with the word (R96), but in the error state it is discarded (spec/60_exceptions.md R255). -/
def State.issue (s : State) (w : Word) : Fetched :=
  let s := { s with cmd := w }
  match decode w with
  | .ok i => .run i s
  | .error _ => .finished (command s (fun _ => .error ⟨.illegal, w.toNat, 0⟩))

/-- MemRead (R66): the value goes to the host; nothing of the block changes. -/
def State.hostRegRead (s : State) (width off : Nat) : Fetched :=
  match registerAt width off with
  | .error e => .finished (.refused e)
  | .ok r => .finished (.next { s with replies := .reg r (s.readReg r) :: s.replies })

/-- MemWrite (R66). -/
def State.hostRegWrite (s : State) (width off : Nat) (v : Word) : Fetched :=
  match registerAt width off with
  | .error e => .finished (.refused e)
  | .ok .cmd => s.issue v
  | .ok r =>
    match s.writeReg r v with
    | some t => .finished (.next t)
    | none => .finished (.refused .registerReadOnly)

/-- Whether an array number and an index lie inside a space (R60). -/
def Space.contains (space : Space) (p : Params) (a i : Nat) : Bool :=
  a < space.arrays && i < space.capacity p

/-- BufHostRead (R67): the element's value goes to the host; nothing of the block changes. -/
def State.hostBufRead (s : State) (space : Space) (a i : Nat) : Fetched :=
  if space.contains s.params a i then
    match s.mem.element space a i with
    | some v => .finished (.next { s with replies := .elem space a i v :: s.replies })
    | none => .finished (.refused .elementUnwritten)
  else .finished (.refused .elementOutOfRange)

/-- Whether an integer is a value of the element type of a host-writable space (R9, R60). -/
def Space.holds (space : Space) (v : Int) : Bool :=
  match space with
  | .bytes => 0 ≤ v && v ≤ 255
  | _ => -32768 ≤ v && v ≤ 32767

/-- Memory with one element of a host-writable space written; other spaces are left as they are. -/
def Memory.hostWrite (m : Memory) (space : Space) (a i : Nat) (v : Int) : Memory :=
  match space with
  | .ain => if h : a < 2 then m.writeAin ⟨a, h⟩ i [BitVec.ofInt 16 v] else m
  | .rx => if h : a < 8 then m.writeRx ⟨a, h⟩ i [BitVec.ofInt 16 v] else m
  | .bytes => m.writeBytes i [BitVec.ofInt 8 v]
  | .aout | .ch | .tx => m

/-- BufHostWrite (R67): stores the value and sets the element's valid bit; no length register changes. -/
def State.hostBufWrite (s : State) (space : Space) (a i : Nat) (v : Int) : Fetched :=
  if !space.hostWritable then .finished (.refused .spaceReadOnly)
  else if !space.contains s.params a i then .finished (.refused .elementOutOfRange)
  else if !space.holds v then .finished (.refused .valueOutOfRange)
  else .finished (.next { s with mem := s.mem.hostWrite space a i v })

/-- A platform reset (spec/70_reset_and_hazards.md R280 to R283): every register and every valid bit. The
platform's parameters and the host's own side are no state of the block and stay (log entry 10). -/
def State.platformReset (s : State) : State :=
  { State.reset with params := s.params, pending := s.pending, replies := s.replies }

/-- What the next step does: the host's next action, or nothing while the host does nothing, since the block
is idle until the host acts (spec/60_exceptions.md R266, spec/70_reset_and_hazards.md R283). -/
def State.fetch (s : State) : Fetched :=
  match s.pending with
  | [] => .finished (.next s)
  | a :: rest =>
    let s := { s with pending := rest }
    match a with
    | .reset => .finished (.next s.platformReset)
    | .regRead width off => s.hostRegRead width off
    | .regWrite width off v => s.hostRegWrite width off v
    | .bufRead space a i => s.hostBufRead space a i
    | .bufWrite space a i v => s.hostBufWrite space a i v

end Sys2Proof.Machine
end

