-- ==== Sys2Proof/Machine/Step.lean ====
section
/-! DEFINITION. One step: the host's next action, and the command it issues, as one indivisible step
(spec/20_memory.md R74). -/

namespace Sys2Proof.Machine

/-- One step of the machine. -/
def step (s : State) : Host.Outcome State Fault Refusal :=
  match s.fetch with
  | .finished o => o
  | .run i t => exec i t

/-- `s` with a host write of the word `w` to CMD as the host's next action, so that the next step decodes and
runs it (log entry 5). -/
def State.withFetchWord (s : State) (nbits w : Nat) : State :=
  { s with pending := .regWrite 4 0 (BitVec.ofNat 32 (w % 2 ^ nbits)) :: s.pending }

end Sys2Proof.Machine
end

