-- ==== Sys2Proof/Machine/HostPrograms.lean ====
section
/-! DEFINITION. The host's side of the contract, outside the block (spec/00_scope.md R5): the stego Frame
(spec/80_host_interface.md R311 to R319), the pseudo-instructions (spec/30_encoding.md R99), and the embedding
and extraction programs (80 R320, R321), which run over the machine's own steps and end as 80 R322 and R323 say.
No step reads this file. -/

namespace Sys2Proof.Machine

/-- The error kinds the host reports (80 R322). A capacity error carries the seconds the stego Frame needs and
the seconds the carrier lasts (80 R320 step 6). -/
inductive HostError where
  | capacity (needed available : Rat)
  | protocolMismatch
  | inputConstraint
  | formatConstraint
  deriving DecidableEq, Repr

/-- The fields of a stego Frame's header (80 R311). VERSION_CODE is an argument (R315, log entry 13). -/
structure Header where
  payloadLen : Word
  nameLen    : BitVec 7
  encrypted  : Bool
  version    : Byte
  deriving DecidableEq, Repr

/-- The signature "aSx" (80 R312). -/
def signature : List Byte := [0x61, 0x53, 0x78]

/-- The control byte (80 R314): filename length above the encryption flag. -/
def Header.control (h : Header) : Byte := h.nameLen ++ BitVec.ofBool h.encrypted

/-- The 10 header bytes (80 R311, R313, R316). -/
def Header.bytes (h : Header) : List Byte :=
  signature ++
  [h.payloadLen.extractLsb' 24 8, h.payloadLen.extractLsb' 16 8, h.payloadLen.extractLsb' 8 8,
   h.payloadLen.extractLsb' 0 8, h.control, h.version, 0]

/-- build_header (80 R314, R317): rejects a filename longer than 127 bytes. -/
def buildHeader (payloadLen : Word) (nameLen : Nat) (encrypted : Bool) (version : Byte) :
    Except HostError Header :=
  if nameLen ≤ 127 then .ok ⟨payloadLen, BitVec.ofNat 7 nameLen, encrypted, version⟩
  else .error .inputConstraint

/-- parse_header (80 R313, R314, R319): the caller checks the signature itself, and the reserved byte is not
looked at (R316). `none` for anything but 10 bytes. -/
def parseHeader (bs : List Byte) : Option Header :=
  match bs with
  | [_, _, _, p3, p2, p1, p0, control, version, _] =>
    some ⟨p3 ++ p2 ++ p1 ++ p0, control.extractLsb' 1 7, control.getLsbD 0, version⟩
  | _ => none

/-- Whether a byte sequence begins with the signature (80 R312). -/
def hasSignature (bs : List Byte) : Bool := bs.take 3 == signature

/-- The whole stego Frame, header ∥ payload ∥ filename (80 R311, R319). A payload whose length does not fit
32 bits has no header and is rejected like a long filename (log entry 13). -/
def buildFrame (payload name : List Byte) (encrypted : Bool) (version : Byte) : Except HostError (List Byte) :=
  if payload.length ≤ u32Max then do
    let h ← buildHeader (BitVec.ofNat 32 payload.length) name.length encrypted version
    pure (h.bytes ++ payload ++ name)
  else .error .inputConstraint

/-- disassemble (80 R319): the payload, and the trailing `nameLen` bytes, which are the filename. DESIGN CHOICE, log
entry 15: of a stream shorter than `nameLen`, all of it is the filename. Safe: the extraction program gives it no
such stream. -/
def disassemble (bs : List Byte) (nameLen : Nat) : List Byte × List Byte :=
  (bs.take (bs.length - nameLen), bs.drop (bs.length - nameLen))

/-- `W <REG>, <value>` (30 R98). -/
def writeAction (r : Reg) (v : Word) : HostAction := .regWrite 4 r.offset v

/-- `R <REG>` (30 R98). -/
def readAction (r : Reg) : HostAction := .regRead 4 r.offset

/-- A command line, which stands for `W CMD, <its word>` (30 R98). -/
def commandAction (i : Instr) : HostAction := writeAction .cmd (encode i)

/-- `SEG start, syms` (30 R99). -/
def segActions (start syms : Word) : List HostAction :=
  [writeAction .segStart start, writeAction .segSyms syms]

/-- `EXTRACT start, syms` (30 R99). -/
def extractActions (start syms : Word) : List HostAction := segActions start syms ++ [commandAction .demod]

/-- `SYNTH L<l>, b` (30 R99). -/
def synthLane (l : Lane) (b : Bool) : Instr := .synth (channelOf l) (carrierOf l) b

/-- `BPF L<l>` (30 R99). -/
def bpfLane (l : Lane) : Instr := .bpf (channelOf l) (carrierOf l)

/-- `DECIDE L<l>` (30 R99). -/
def decideLane (l : Lane) : Instr := .decide (channelOf l) (carrierOf l)

/-- `DECIDEAT L<l>, s` (30 R99). -/
def decideAtActions (l : Lane) (slot : Word) : List HostAction :=
  [writeAction .symIdx slot, commandAction (decideLane l)]

/-- `SYNTHAT L<l>, s, b` (30 R99). -/
def synthAtActions (l : Lane) (slot : Word) (b : Bool) : List HostAction :=
  [writeAction .symIdx slot, commandAction (synthLane l b)]

/-- Writes of consecutive elements from index 0 of one array. -/
def loadActions (space : Space) (a : Nat) (vs : List Int) : List HostAction :=
  (vs.zipIdx 0).map (fun e => .bufWrite space a e.2 e.1)

/-! ### Programs -/

/-- Where a host program's run ends before its last action (80 R323): at an error the host reports (80 R322), at a
STATUS with ERR set (80 R321 steps 3 and 8), at an access the block refuses (20 R66, R67), or at a count that fits
no register (log entry 16). -/
inductive HostStop where
  | reported (e : HostError)
  | blockError (code : BitVec 8)
  | refused (r : Refusal)
  | noSuchWord (r : Reg) (v : Nat)
  deriving DecidableEq, Repr

/-- A run of a host program: from a state of the machine, what it ends with and the state it leaves (80 R323). -/
abbrev HostRun (α : Type) := ExceptT HostStop (StateM State) α

/-- One action of the host, ahead of whatever else waits, as one step of the machine (20 R74). -/
def perform (a : HostAction) : HostRun Unit := fun s =>
  match step { s with pending := a :: s.pending } with
  | .next t => (.ok (), t)
  | .fault e => nomatch e
  | .refused r => (.error (.refused r), s)

/-- Actions in order, to the first that is refused. -/
def performAll (as : List HostAction) : HostRun Unit := as.forM perform

/-- `R <REG>`: the value the read's reply carries (20 R66). -/
def readRegister (r : Reg) : HostRun Word := do
  let v := (← get).readReg r
  perform (readAction r)
  pure v

/-- `RB <space>[a][i]` for a space whose array holds `b s` in a state s: the value the read's reply carries
(20 R67). -/
def readElement {α : Type} (space : Space) (a : Nat) (b : State → Buf α) (i : Nat) : HostRun α := do
  let v := Buf.get (b (← get)) i
  perform (.bufRead space a i)
  match v with
  | some v => pure v
  | none => throw (.refused .elementUnwritten)

/-- `W <REG>, v` for a count. DESIGN CHOICE, log entry 16: a count that does not fit 32 bits ends the run. Safe. -/
def writeCount (r : Reg) (v : Nat) : HostRun Unit :=
  if v ≤ u32Max then perform (writeAction r (BitVec.ofNat 32 v)) else throw (.noSuchWord r v)

/-- ERR of a STATUS word (10 R22). -/
def statusErr (w : Word) : Bool := w.getLsbD 1

/-- ERRCODE of a STATUS word (10 R22). -/
def statusCode (w : Word) : BitVec 8 := w.extractLsb' 8 8

/-- `R STATUS`, and the end of the run on ERR (80 R321 steps 3 and 8). -/
def stopOnError : HostRun Unit := do
  let status ← readRegister .status
  if statusErr status then throw (.blockError (statusCode status))

/-- FS and any other configuration, then the audio, frame by frame a sample of each channel (70 R284 (1) to (3);
80 R320 steps 2 and 3, R321 step 1). -/
def loadAudio (fs : Word) (config : List (Reg × Word)) (audio : List (Sample × Sample)) : HostRun Unit := do
  perform (writeAction .fs fs)
  performAll (config.map (fun e => writeAction e.1 e.2))
  performAll (loadActions .ain 0 (audio.map (fun e => e.1.toInt)))
  performAll (loadActions .ain 1 (audio.map (fun e => e.2.toInt)))
  writeCount .ainLen audio.length

/-- Step 6 of 80 R320: on a `Capacity` error, the report in seconds (80 R322). On any other error the run ends too:
DESIGN CHOICE, log entry 17, since R320 names no other code. Safe: the run ends where it could rely on nothing. -/
def checkEmbed (fs : Word) : HostRun Unit := do
  let status ← readRegister .status
  if statusErr status then
    if statusCode status = ErrCode.capacity.number then
      let needed ← readRegister .errInfo0
      let available ← readRegister .errInfo1
      throw (.reported (.capacity ((needed.toNat : Rat) / 1000000) ((available.toNat : Rat) / (fs.toNat : Rat))))
    else throw (.blockError (statusCode status))

/-- Step 7 of 80 R320: the output, channel by channel, for the Audio Codec. -/
def readOutput : HostRun (Stereo (List Sample)) := do
  let n := (← readRegister .aoutLen).toNat
  let ch0 ← (List.range n).mapM (readElement .aout 0 (fun s => s.mem.aout.get 0))
  let ch1 ← (List.range n).mapM (readElement .aout 1 (fun s => s.mem.aout.get 1))
  pure ⟨ch0, ch1⟩

/-- The embedding program (80 R320): the output it hands to the Audio Codec. -/
def embedProgram (fs : Word) (config : List (Reg × Word)) (audio : List (Sample × Sample)) (payload name : List Byte)
    (encrypted : Bool) (version : Byte) : HostRun (Stereo (List Sample)) := do
  match buildFrame payload name encrypted version with
  | .error e => throw (.reported e)
  | .ok frame =>
    loadAudio fs config audio
    performAll (loadActions .bytes 0 (frame.map (fun b => (b.toNat : Int))))
    writeCount .bytesLen frame.length
    perform (commandAction .embed)
    checkEmbed fs
    readOutput

/-- What extraction hands to the Byte Sink (80 R321 step 9). -/
inductive Extracted where
  | text (payload : List Byte)
  | file (name payload : List Byte)
  deriving DecidableEq, Repr

/-- Step 9 of 80 R321. -/
def extracted (d : List Byte) (nameLen : Nat) : Extracted :=
  if nameLen = 0 then .text d
  else .file (disassemble d nameLen).2 (disassemble d nameLen).1

/-- Steps 2 and 3, or 7 and 8, of 80 R321: one segment decoded and its bytes read. -/
def extractSegment (start syms : Word) (count : Nat) : HostRun (List Byte) := do
  performAll (extractActions start syms)
  stopOnError
  (List.range count).mapM (readElement .bytes 0 (fun s => s.mem.bytes))

/-- Steps 4 and 5 of 80 R321: the signature is checked before anything else is trusted (80 R312, R319). -/
def checkHeader (h : List Byte) : HostRun Header :=
  match hasSignature h, parseHeader h with
  | true, some header => pure header
  | _, _ => throw (.reported .protocolMismatch)

/-- Steps 6 to 8 of 80 R321: the payload and the filename, nothing where both are empty (92 D46). The host knows SPP
from FS and PULSE_US (10 R31). DESIGN CHOICE, log entry 16: a start or a count beyond 32 bits is written as
2^32 − 1, so that the block raises `Range`, as R321 says of a file too short for the segment. Safe. -/
def extractBody (h : Header) : HostRun (List Byte) := do
  let count := h.payloadLen.toNat + h.nameLen.toNat
  if count = 0 then pure []
  else
    let spp := (← get).cfg.spp
    extractSegment (sat32 (10 * spp)) (sat32 count) count

/-- The extraction program (80 R321). `wavNamed` says whether the input file is WAV-named, a test of the file's name
that is no part of the block (80 R322). -/
def extractProgram (wavNamed : Bool) (fs : Word) (config : List (Reg × Word)) (audio : List (Sample × Sample)) :
    HostRun Extracted := do
  if !wavNamed then throw (.reported .formatConstraint)
  loadAudio fs config audio
  let header ← checkHeader (← extractSegment 0 10 10)
  let d ← extractBody header
  pure (extracted d header.nameLen.toNat)

end Sys2Proof.Machine
end

