-- ==== Sys2Proof/Safety.lean ====
section
/-! DEFINITION. The terms claims use: the real numbers of the rules (spec/00_scope.md R10,
spec/41_lane_modulator.md R124), validity of elements (spec/10_state.md R42), and the invariant of the
machine. No step reads this file. -/

namespace Sys2Proof.Machine

/-! ### Real numbers -/

/-- The real number a tone is (State.lean). -/
noncomputable def Tone.value : Tone → ℝ
  | .half h => (h : ℝ) / 2
  | .sine a p q => (a : ℝ) * Real.sin (2 * Real.pi * (p : ℝ) / (q : ℝ))

/-- The right side of R124: A × sin(2π × f × n / fs). -/
noncomputable def synthReal (amp f fs n : Nat) : ℝ :=
  (amp : ℝ) * Real.sin (2 * Real.pi * (f : ℝ) * (n : ℝ) / (fs : ℝ))

/-- rne of R10: the integer nearest x; when x is exactly halfway between two integers, the even one. -/
noncomputable def rneReal (x : ℝ) : ℤ :=
  if x - ⌊x⌋ < 1 / 2 then ⌊x⌋
  else if 1 / 2 < x - ⌊x⌋ then ⌊x⌋ + 1
  else if ⌊x⌋ % 2 = 0 then ⌊x⌋
  else ⌊x⌋ + 1

/-- q16 of R10, for a real number. -/
noncomputable def q16Real (x : ℝ) : Sample := sat16 (rneReal x)

/-! ### Elements -/

/-- The valid bit of an element (R42). -/
def State.valid (s : State) (space : Space) (a i : Nat) : Prop := (s.mem.element space a i).isSome

/-- The first n elements of an array from index i on are written. -/
def State.written (s : State) (space : Space) (a i n : Nat) : Prop := ∀ j < n, s.valid space a (i + j)

/-- The first unwritten element of a run of n from index i is number i + j. -/
def State.firstUnwritten (s : State) (space : Space) (a i n j : Nat) : Prop :=
  j < n ∧ ¬ s.valid space a (i + j) ∧ s.written space a i j

/-! ### When a command's checks pass -/

/-- ORDER lies in 1..MAX_ORDER (spec/10_state.md R36). -/
def State.orderOk (s : State) : Prop := 1 ≤ s.cfg.order.toNat ∧ s.cfg.order.toNat ≤ s.params.maxOrder

/-- The band-pass of carrier k is valid (spec/42_band_filter.md R154). -/
def State.bandPassOk (s : State) (k : Carrier) : Prop :=
  s.orderOk ∧ 1 ≤ s.cfg.window.toNat ∧ s.cfg.window.toNat < s.cfg.carrier k ∧
    2 * (s.cfg.carrier k + s.cfg.window.toNat) < s.cfg.fs.toNat

/-- The band-stop is valid (spec/42_band_filter.md R155). -/
def State.bandStopOk (s : State) : Prop :=
  s.orderOk ∧ 1 ≤ s.cfg.stopLo.toNat ∧ s.cfg.stopLo.toNat < s.cfg.stopHi.toNat ∧
    2 * s.cfg.stopHi.toNat < s.cfg.fs.toNat

/-- The extraction segment lies inside the present audio frames and is long enough to filter
(spec/42_band_filter.md R156, R157). -/
def State.segmentOk (s : State) : Prop :=
  s.ainLen.toNat ≤ s.params.maxFrames ∧ s.segFrom + s.segLen ≤ s.ainLen.toNat ∧ s.minLen < s.segLen

/-- The checks of EMBED pass (spec/43_stereo_mux.md R187). -/
def State.embedOk (s : State) : Prop :=
  s.cfg.spp ≠ 0 ∧ s.cfg.amp.toNat ≤ 32767 ∧ s.bandStopOk ∧ s.bytesLen.toNat ≤ s.params.maxBytes ∧
    s.ainLen.toNat ≤ s.params.maxFrames ∧ s.bytesLen.toNat * s.cfg.spp ≤ s.ainLen.toNat ∧
    s.minLen < s.ainLen.toNat ∧ s.written .bytes 0 0 s.bytesLen.toNat ∧
    s.written .ain 0 0 s.ainLen.toNat ∧ s.written .ain 1 0 s.ainLen.toNat

/-- The checks of DEMOD pass (spec/44_envelope_slicer.md R218). -/
def State.demodOk (s : State) : Prop :=
  s.cfg.spp ≠ 0 ∧ (∀ k, s.bandPassOk k) ∧ s.cfg.zone ≠ 0 ∧ s.cfg.fs = s.cfg.refRate ∧ s.segmentOk ∧
    s.segSyms.toNat ≤ s.params.maxBytes ∧ s.written .ain 0 s.segFrom s.segLen ∧
    s.written .ain 1 s.segFrom s.segLen

/-! ### Invariants -/

/-- STATUS, ERRINFO0 and ERRINFO1 agree (R22, R23, R254): outside the error state the code and both
information words are 0; in it DONE is 0 and the code is one of R251's. -/
def State.errorAgrees (s : State) : Prop :=
  (s.status.err = false → s.status.code = 0 ∧ s.errInfo0 = 0 ∧ s.errInfo1 = 0) ∧
  (s.status.err = true → s.status.done = false ∧ 1 ≤ s.status.code.toNat ∧ s.status.code.toNat ≤ 7)

/-- The lengths only commands write lie within the buffers' capacity (R39). -/
def State.lengthsFit (s : State) : Prop :=
  s.laneLen.toNat ≤ s.params.maxFrames ∧ s.chLen.toNat ≤ s.params.maxFrames ∧
    s.aoutLen.toNat ≤ s.params.maxFrames

/-- Every sample of the working channels and of the output below its length is written (R62, R63). -/
def State.channelsFilled (s : State) : Prop :=
  ∀ a < 2, s.written .ch a 0 s.chLen.toNat ∧ s.written .aout a 0 s.aoutLen.toNat

/-- The invariant of the machine: it holds at reset and every step keeps it. -/
structure State.Inv (s : State) : Prop where
  memory   : Memory.wf s.params s.mem = true
  error    : s.errorAgrees
  lengths  : s.lengthsFit
  channels : s.channelsFilled
  envelope : s.envSum.toNat ≤ 32768 * s.envZones.toNat

end Sys2Proof.Machine
end

