-- ==== Sys2Proof/Certificates/Slice0/Obligations.lean ====
section
/-! DEFINITION. The statements about the machine, for the provers. Each docstring names the rules of spec/ the
statement formalises or rests on. A statement that gives the next state as the old one with named fields
replaced says thereby that every other register, every other buffer space, the platform's parameters and the
host's queue are unchanged; a buffer space that changes is described element by element. -/

open Sys2Proof Sys2Proof.Machine

/-! ### Encoding -/

/-- R90, R94, R100: a word decodes to a command exactly when it is that command's word, so no bit of an
encoding is dropped and no word has two meanings. -/
def Obligations.DecodeAndEncodeAgree : Prop :=
  ∀ (w : Word) (i : Instr), decode w = .ok i ↔ w = encode i

/-- R101: the worked encodings, among them the two illegal words. -/
def Obligations.WorkedEncodings : Prop :=
  (encode (synthLane 5 true) = 0x00000B10 ∧ decode 0x00000B10 = .ok (.synth 1 1 true)) ∧
  (encode (bpfLane 6) = 0x00000520 ∧ decode 0x00000520 = .ok (.bpf 1 2)) ∧
  (encode (.bsf 1) = 0x00000121 ∧ decode 0x00000121 = .ok (.bsf 1)) ∧
  (encode (decideLane 3) = 0x00000640 ∧ decode 0x00000640 = .ok (.decide 0 3)) ∧
  (encode .embed = 0x00000033 ∧ decode 0x00000033 = .ok .embed) ∧
  (encode .demod = 0x00000042 ∧ decode 0x00000042 = .ok .demod) ∧
  (∀ i, decode 0x00000321 ≠ .ok i) ∧ (∀ i, decode 0x00001021 ≠ .ok i)

/-- R96: the illegal words are those whose opcode is 0 or lies in a listed gap, those with an RSV bit set, and
those that set a field their command does not use; writing one to CMD outside the error state raises `Illegal`
with the word and changes nothing else of the block but CMD itself. The queue that carries the host's write is
the model's own (log entry 5). -/
def Obligations.IllegalWords : Prop :=
  ∀ (s : State) (w : Word) (rest : List HostAction),
    s.pending = .regWrite 4 0 w :: rest → s.status.err = false →
    let opc := (Fields.ofWord w).opc.toNat
    let unassigned := opc = 0 ∨ (0x03 ≤ opc ∧ opc ≤ 0x0F) ∨ (0x12 ≤ opc ∧ opc ≤ 0x1F) ∨
      (0x23 ≤ opc ∧ opc ≤ 0x2F) ∨ (0x34 ≤ opc ∧ opc ≤ 0x3F) ∨ 0x43 ≤ opc
    let unusedCh := (Fields.ofWord w).ch ≠ 0 ∧ opc ∉ [0x10, 0x20, 0x21, 0x31, 0x40]
    let unusedK := (Fields.ofWord w).k ≠ 0 ∧ opc ∉ [0x10, 0x20, 0x40]
    let unusedBit := (Fields.ofWord w).bit ≠ 0 ∧ opc ∉ [0x10]
    let illegal := unassigned ∨ (Fields.ofWord w).rsv ≠ 0 ∨ unusedCh ∨ unusedK ∨ unusedBit
    (illegal ↔ ∀ i, decode w ≠ .ok i) ∧
    (illegal → step s = .next
      { s with
        pending := rest
        cmd := w
        status := { done := false, err := true, bit := s.status.bit, code := 1 }
        errInfo0 := w
        errInfo1 := 0 })

/-! ### Steps -/

/-- R21: a host write of a word to CMD stores the word and runs the command it decodes to, as one step. The
queue of host actions is the model's own (log entry 5). -/
def Obligations.StepRunsDecodedCommand : Prop :=
  ∀ (s : State) (w : Word) (rest : List HostAction) (i : Instr),
    s.pending = .regWrite 4 0 w :: rest → decode w = .ok i →
    step s = exec i { s with cmd := w, pending := rest }

/-- R255: while ERR is 1 a CMD write that does not decode to CLR stores the word and changes nothing else,
whether or not the word is a legal command; one that decodes to CLR executes. The queue that carries the host's
write is the model's own (log entry 5). -/
def Obligations.ErrorStateDiscardsAllButClr : Prop :=
  ∀ (s : State) (w : Word) (rest : List HostAction),
    s.pending = .regWrite 4 0 w :: rest → s.status.err = true →
    (decode w ≠ .ok .clr → step s = .next { s with cmd := w, pending := rest }) ∧
    (decode w = .ok .clr → step s = .next
      { s with
        cmd := w
        pending := rest
        status := { done := false, err := false, bit := s.status.bit, code := 0 }
        errInfo0 := 0
        errInfo1 := 0 })

/-- R266, R283: the block does nothing while the host does nothing. That no action is an empty queue is the
model's (log entry 5). -/
def Obligations.IdleBlockKeepsItsState : Prop :=
  ∀ s : State, s.pending = [] → step s = .next s

/-- R66: a 4-byte read at a register's offset returns its value and changes nothing of the block; a 4-byte
write stores all bits of an RW register and does what RegisterWriteFrame says and nothing else; a write to CMD stores the word and issues the command; every other
access is refused. The queue of accesses and the list of replies are the model's own (log entry 5). -/
def Obligations.HostRegisterAccess : Prop :=
  ∀ (s : State) (rest : List HostAction) (width off : Nat) (v : Word),
    (s.pending = .regRead width off :: rest →
      (∀ r : Reg, width = 4 → off = r.offset →
        step s = .next { s with pending := rest, replies := .reg r (s.readReg r) :: s.replies }) ∧
      ((width ≠ 4 ∨ off % 4 ≠ 0 ∨ ∀ r : Reg, off ≠ r.offset) → ∃ e, step s = .refused e)) ∧
    (s.pending = .regWrite width off v :: rest →
      (∀ r : Reg, width = 4 → off = r.offset →
        (r ∈ [Reg.segStart, .segSyms, .symIdx, .fs, .refRate, .pulseUs, .amp, .thrCenti, .zone, .window, .order,
            .stopLo, .stopHi, .f0, .f1, .f2, .f3, .ainLen, .bytesLen, .rxLen] →
          ∃ t, State.writeReg { s with pending := rest } r v = some t ∧ step s = .next t ∧ t.readReg r = v) ∧
        (r = .cmd → ∃ t, step s = .next t ∧ t.cmd = v ∧
          ∀ i, decode v = .ok i → step s = exec i { s with pending := rest, cmd := v }) ∧
        (r ∈ [Reg.status, .errInfo0, .errInfo1, .envSum, .envZones, .spp, .laneLen, .chLen, .aoutLen] →
          ∃ e, step s = .refused e)) ∧
      ((width ≠ 4 ∨ off % 4 ≠ 0 ∨ ∀ r : Reg, off ≠ r.offset) → ∃ e, step s = .refused e))

/-- R40, R20: a host write of an RW register stores all 32 bits unchanged and leaves every other register
(SPP apart, which is derived from FS and PULSE_US) and every buffer as they were. -/
def Obligations.RegisterWriteFrame : Prop :=
  ∀ (s t : State) (r : Reg) (v : Word), s.writeReg r v = some t →
    t.readReg r = v ∧ (∀ r' : Reg, r' ≠ r → r' ≠ .spp → t.readReg r' = s.readReg r') ∧
    t.mem = s.mem ∧ t.params = s.params ∧ t.pending = s.pending ∧ t.replies = s.replies

/-- R67: a host buffer write inside the space, of a value of its type, to a space the host may write, stores
the value, sets the element's valid bit and changes nothing else; a read of a written element returns its
value and changes nothing of the block; every other access is refused. The queue of accesses and the list of
replies are the model's own (log entry 5). -/
def Obligations.HostBufferAccess : Prop :=
  ∀ (s : State) (rest : List HostAction) (space : Space) (a i : Nat) (v : Int),
    (s.pending = .bufWrite space a i v :: rest →
      let legal := space ∈ [Space.ain, .rx, .bytes] ∧ a < space.arrays ∧ i < space.capacity s.params ∧
        (if space = .bytes then 0 ≤ v ∧ v ≤ 255 else -32768 ≤ v ∧ v ≤ 32767)
      (legal → ∃ m, step s = .next { s with pending := rest, mem := m } ∧
        (∀ space' a' i', m.element space' a' i' =
          if space' = space ∧ a' = a ∧ i' = i then
            some (if space = .bytes then .byte (BitVec.ofInt 8 v) else .sample (BitVec.ofInt 16 v))
          else s.mem.element space' a' i')) ∧
      (¬ legal → ∃ e, step s = .refused e)) ∧
    (s.pending = .bufRead space a i :: rest →
      (∀ x, a < space.arrays → i < space.capacity s.params → s.mem.element space a i = some x →
        step s = .next { s with pending := rest, replies := .elem space a i x :: s.replies }) ∧
      ((¬ a < space.arrays ∨ ¬ i < space.capacity s.params ∨ s.mem.element space a i = none) →
        ∃ e, step s = .refused e))

/-- R281, R282: a platform reset gives every register its reset value and clears every valid bit. That a reset is
one of the host's queued actions is the model's (log entries 5 and 10). -/
def Obligations.ResetSetsEveryRegister : Prop :=
  ∀ (s : State) (rest : List HostAction), s.pending = .reset :: rest →
    ∃ t, step s = .next t ∧
      (∀ r : Reg, r ∈ [Reg.cmd, .status, .errInfo0, .errInfo1, .segStart, .segSyms, .symIdx, .envSum, .envZones,
          .ainLen, .bytesLen, .laneLen, .chLen, .rxLen, .aoutLen] → t.readReg r = 0) ∧
      t.readReg .fs = 44100 ∧ t.readReg .refRate = 44100 ∧ t.readReg .pulseUs = 20000 ∧
      t.readReg .spp = 882 ∧ t.readReg .amp = 1000 ∧ t.readReg .thrCenti = 65000 ∧ t.readReg .zone = 44 ∧
      t.readReg .window = 200 ∧ t.readReg .order = 7 ∧ t.readReg .stopLo = 17000 ∧
      t.readReg .stopHi = 19500 ∧ t.readReg .f0 = 17600 ∧ t.readReg .f1 = 18000 ∧
      t.readReg .f2 = 18400 ∧ t.readReg .f3 = 18800 ∧
      ∀ space a i, t.mem.element space a i = none

/-! ### Whole-machine rules -/

/-- The invariant (Safety.lean: canonical memory within capacity, STATUS and the information words agreeing,
lengths that fit, channels filled below their length, and ENV_SUM bounded by ENV_ZONES) holds at reset. -/
def Obligations.InvariantHoldsAtReset : Prop := State.reset.Inv

/-- Every step of every state that meets the invariant gives a state that meets it (R22, R23, R27, R39, R62, R63,
R67, R211, R215, R250, R251, R254). The invariant's clause on memory is about the model's own representation:
element lists that rise (log entry 9) and tones in their canonical form (log entry 4). -/
def Obligations.EveryStepKeepsInvariant : Prop :=
  ∀ s t : State, s.Inv → step s = .next t → t.Inv

/-- R42: no step but a platform reset clears a valid bit, in any state. That the head of a queue names the step is
the model's (log entry 5). -/
def Obligations.OnlyResetClearsValidBits : Prop :=
  ∀ s t : State, step s = .next t → s.pending.head? ≠ some .reset →
    ∀ space a i, s.valid space a i → t.valid space a i

/-- R22, R23, R255, R257: in the error state every step but a platform reset and a write of CLR's word to CMD
keeps STATUS and both information words, and all of memory unless it is a buffer write of the host. That the
head of a queue names the step is the model's (log entry 5). -/
def Obligations.ErrorIsSticky : Prop :=
  ∀ s t : State, s.status.err = true → step s = .next t →
    s.pending.head? ≠ some .reset → s.pending.head? ≠ some (.regWrite 4 0 (encode .clr)) →
    t.status = s.status ∧ t.errInfo0 = s.errInfo0 ∧ t.errInfo1 = s.errInfo1 ∧
    ((∀ space a i v, s.pending.head? ≠ some (.bufWrite space a i v)) → t.mem = s.mem)

/-- R250, R251, R252, R254: raising an error sets ERR, clears DONE, gives ERRCODE the error's number and the information
words its two values, each saturated to 2^32 − 1, and changes nothing else; a command that ends in an error makes
none of its writes and does exactly that. -/
def Obligations.ErrorsAreAllOrNothing : Prop :=
  (∀ s : State,
    let raised (e : ErrCode) (number : BitVec 8) := ∀ i0 i1 : Nat, s.raise ⟨e, i0, i1⟩ =
      { s with
        status := { done := false, err := true, bit := s.status.bit, code := number }
        errInfo0 := BitVec.ofNat 32 (min i0 4294967295)
        errInfo1 := BitVec.ofNat 32 (min i1 4294967295) }
    raised .illegal 1 ∧ raised .config 2 ∧ raised .rate 3 ∧ raised .range 4 ∧ raised .capacity 5 ∧
      raised .uninit 6 ∧ raised .short 7) ∧
  ∀ (i : Instr) (s t : State), s.status.err = false → exec i s = .next t → t.status.err = true →
    ∃ e : Err, t = s.raise e

/-- R22, R39, R40, R60: no command writes CMD, an argument register, a configuration register, AIN or AIN_LEN;
and (the model's own fields) the platform's parameters and the host's queue and replies stay. -/
def Obligations.CommandsKeepInputsAndConfiguration : Prop :=
  ∀ (i : Instr) (s t : State), exec i s = .next t →
    t.cmd = s.cmd ∧ t.segStart = s.segStart ∧ t.segSyms = s.segSyms ∧ t.symIdx = s.symIdx ∧ t.cfg = s.cfg ∧
    t.ainLen = s.ainLen ∧ t.mem.ain = s.mem.ain ∧
    t.params = s.params ∧ t.pending = s.pending ∧ t.replies = s.replies

/-- R22, R27: STATUS.BIT, ENV_SUM and ENV_ZONES are written by DECIDE only. -/
def Obligations.OnlyDecideWritesBitAndEnvelope : Prop :=
  ∀ (i : Instr) (s t : State), exec i s = .next t → (∀ c k, i ≠ .decide c k) →
    t.status.bit = s.status.bit ∧ t.envSum = s.envSum ∧ t.envZones = s.envZones

/-- R39, R60: each length register and each buffer space is written only by the commands listed for it. -/
def Obligations.BuffersHaveTheirWriters : Prop :=
  ∀ (i : Instr) (s t : State), exec i s = .next t →
    (i ∉ [Instr.decode, .demod] → t.bytesLen = s.bytesLen ∧ t.mem.bytes = s.mem.bytes) ∧
    ((i ∉ [Instr.mod, .embed] ∧ ∀ c k b, i ≠ .synth c k b) → t.laneLen = s.laneLen ∧ t.mem.tx = s.mem.tx) ∧
    (i ∉ [Instr.demux, .embed] → t.chLen = s.chLen) ∧
    ((i ∉ [Instr.demux, .embed] ∧ ∀ c, i ≠ .bsf c ∧ i ≠ .ovl c) → t.mem.ch = s.mem.ch) ∧
    ((i ∉ [Instr.xlanes, .demod] ∧ ∀ c k, i ≠ .bpf c k) → t.rxLen = s.rxLen ∧ t.mem.rx = s.mem.rx) ∧
    (i ∉ [Instr.mux, .embed] → t.aoutLen = s.aoutLen ∧ t.mem.aout = s.mem.aout)

/-- R22: which bits of STATUS hold DONE, ERR, BIT and ERRCODE, and that the others read 0. -/
def Obligations.StatusWordLayout : Prop :=
  ∀ (st : Status) (j : Nat), st.word.getLsbD j =
    if j = 0 then st.done
    else if j = 1 then st.err
    else if j = 2 then st.bit
    else if 8 ≤ j ∧ j ≤ 15 then st.code.getLsbD (j - 8)
    else false

/-! ### Control commands -/

/-- R240: NOP sets DONE and changes nothing else; in the error state it is discarded; its word is 1, and a word
with NOP's opcode and any other bit set is illegal. -/
def Obligations.NopSetsDone : Prop :=
  (∀ s : State, s.status.err = false →
    exec .nop s = .next { s with status := { s.status with done := true } }) ∧
  (∀ s : State, s.status.err = true → exec .nop s = .next s) ∧
  (∀ w, decode w = .ok .nop ↔ w = 0x00000001) ∧
  (∀ w : Word, w.extractLsb' 0 8 = 0x01 → w ≠ 0x00000001 → ∀ i, decode w ≠ .ok i)

/-- R241, R256: CLR clears ERR, ERRCODE, DONE and both information words, whether or not ERR is 1, and changes
nothing else, STATUS.BIT included; its word is 2 and no other; no other command leaves the error state. -/
def Obligations.ClrLeavesErrorState : Prop :=
  (∀ s : State, exec .clr s = .next
    { s with
      status := { done := false, err := false, bit := s.status.bit, code := 0 }
      errInfo0 := 0
      errInfo1 := 0 }) ∧
  (∀ w, decode w = .ok .clr ↔ w = 0x00000002) ∧
  (∀ (i : Instr) (s t : State), s.status.err = true → exec i s = .next t → t.status.err = false → i = .clr)

/-! ### Operands and numbers -/

/-- R31: SPP is PULSE_US × FS / 1 000 000 where that is a positive whole number and 0 otherwise, and a host
read returns it where it fits 32 bits (where it does not, the value is free, log entry 7). -/
def Obligations.SamplesPerPulse : Prop :=
  ∀ r : ConfigRegs,
    (∀ n : Nat, 1 ≤ n → (r.spp = n ↔ r.pulseUs.toNat * r.fs.toNat = n * 1000000)) ∧
    (r.spp = 0 ↔ ¬ ∃ n : Nat, 1 ≤ n ∧ r.pulseUs.toNat * r.fs.toNat = n * 1000000) ∧
    (r.spp < 2 ^ 32 → r.sppWord.toNat = r.spp) ∧
    ConfigRegs.reset.spp = 882

/-- R46, R91: the channel, the carrier and the bit of each lane. -/
def Obligations.LaneMapping : Prop :=
  ∀ l : Lane,
    (channelOf l).val = l.val / 4 ∧ (carrierOf l).val = l.val % 4 ∧ laneOf (channelOf l) (carrierOf l) = l ∧
    (∀ b : Byte, laneBit b l = b.getLsbD (7 - l.val)) ∧
    (∀ r : ConfigRegs, r.carrier (carrierOf l) =
      if l.val = 0 ∨ l.val = 4 then r.f0.toNat
      else if l.val = 1 ∨ l.val = 5 then r.f1.toNat
      else if l.val = 2 ∨ l.val = 6 then r.f2.toNat
      else r.f3.toNat)

/-- R122: folding a byte's bits gives the byte, and splitting a fold gives the bits. -/
def Obligations.BitCodecRoundTrip : Prop :=
  (∀ b : Byte, bitsToByte (bitsOf b) = b) ∧
  (∀ x : List Bool, x.length = 8 → bitsOf (bitsToByte x) = x)

/-- R124: NUM.synth(A, f, fs, n) is exactly the real number A × sin(2π × f × n / fs). -/
def Obligations.SineSamplesAreExact : Prop :=
  ∀ amp f fs n : Nat, 1 ≤ fs → (numSynth amp f fs n).value = synthReal amp f fs n

/-- R125: the five laws of NUM.synth. -/
def Obligations.SineSampleLaws : Prop :=
  ∀ amp f fs n : Nat, 1 ≤ fs →
    (numSynth amp f fs 0).value = 0 ∧
    |(numSynth amp f fs n).value| ≤ (amp : ℝ) ∧
    (numSynth 0 f fs n).value = 0 ∧
    (2 * f * n % fs = 0 → (numSynth amp f fs n).value = 0) ∧
    (∀ m, f * m % fs = 0 → numSynth amp f fs (n + m) = numSynth amp f fs n)

/-- R10: the rounding of a quotient is to the nearest integer, ties to even. -/
def Obligations.RoundingIsNearestEven : Prop :=
  ∀ (v : Int) (d : Nat), 0 < d → rneDiv v d = rneReal ((v : ℝ) / (d : ℝ))

/-- R183: four silent lanes leave the sample as it is. -/
def Obligations.MixWithSilenceIsIdentity : Prop :=
  ∀ x : Sample, mix x (.half 0) (.half 0) (.half 0) (.half 0) = x

/-- R183, R10, R64: the overlay mix of one sample is q16 of the exact real sum. That each lane sample is in its
canonical form is a premise about the model's representation of a real number (log entry 4), which the invariant
gives every element of TX. -/
def Obligations.MixIsExact : Prop :=
  ∀ (x : Sample) (t0 t1 t2 t3 : Tone),
    t0.wf = true → t1.wf = true → t2.wf = true → t3.wf = true →
    mix x t0 t1 t2 t3 = q16Real ((x.toInt : ℝ) + t0.value + t1.value + t2.value + t3.value)

/-- R153 (L1, L2, L4; L3 is that NUM.bwf is a function): the filter keeps the length, gives i16 values, and
maps zeros to zeros. -/
def Obligations.FilterLaws : Prop :=
  ∀ (type : Band) (order lo hi fs : Nat) (x : List Sample),
    (bwf type order lo hi fs x).length = x.length ∧
    (∀ v ∈ bwf type order lo hi fs x, -32768 ≤ v.toInt ∧ v.toInt ≤ 32767) ∧
    ((∀ v ∈ x, v = 0) → ∀ v ∈ bwf type order lo hi fs x, v = 0)

/-! ### Lane modulator -/

/-- R127, R126: SYNTH writes the pulse of its bit into slot SYM_IDX of lane 4c + k, raises LANE_LEN to the
slot's end, sets DONE, and changes nothing else. (Where a platform's MAX_FRAMES is 2^32 or more, LANE_LEN
saturates: the model's choice, log entry 8.) -/
def Obligations.SynthWritesOnePulse : Prop :=
  ∀ (s : State) (c : Channel) (k : Carrier) (b : Bool),
    s.status.err = false → s.cfg.spp ≠ 0 → s.cfg.amp.toNat ≤ 32767 →
    (s.symIdx.toNat + 1) * s.cfg.spp ≤ s.params.maxFrames →
    ∃ tx, exec (.synth c k b) s = .next
        { s with
          status := { s.status with done := true }
          laneLen := sat32 (max s.laneLen.toNat ((s.symIdx.toNat + 1) * s.cfg.spp))
          mem := { s.mem with tx := tx } } ∧
      ∀ (l : Lane) (i : Nat), Buf.get (tx.get l) i =
        if l.val = 4 * c.val + k.val ∧ s.symIdx.toNat * s.cfg.spp ≤ i ∧
            i < (s.symIdx.toNat + 1) * s.cfg.spp then
          some (if b then numSynth s.cfg.amp.toNat (s.cfg.carrier k) s.cfg.fs.toNat
            (i - s.symIdx.toNat * s.cfg.spp) else .half 0)
        else Buf.get (s.mem.tx.get l) i

/-- R128: MOD writes, for each byte j below BYTES_LEN and each lane l, the pulse of bit 7 − l of the byte at
carrier l mod 4 into slot j, sets LANE_LEN exactly and DONE, and changes nothing else. (LANE_LEN saturates as
in SYNTH, log entry 8.) -/
def Obligations.ModWritesEightLanes : Prop :=
  ∀ s : State, s.status.err = false → s.cfg.spp ≠ 0 → s.cfg.amp.toNat ≤ 32767 →
    s.bytesLen.toNat ≤ s.params.maxBytes → s.bytesLen.toNat * s.cfg.spp ≤ s.params.maxFrames →
    s.written .bytes 0 0 s.bytesLen.toNat →
    ∃ tx, exec .mod s = .next
        { s with
          status := { s.status with done := true }
          laneLen := sat32 (s.bytesLen.toNat * s.cfg.spp)
          mem := { s.mem with tx := tx } } ∧
      (∀ (l : Lane) (j n : Nat) (b : Byte), j < s.bytesLen.toNat → n < s.cfg.spp →
        Buf.get s.mem.bytes j = some b →
        Buf.get (tx.get l) (j * s.cfg.spp + n) =
          some (if b.getLsbD (7 - l.val) then
            numSynth s.cfg.amp.toNat (s.cfg.carrier (carrierOf l)) s.cfg.fs.toNat n else .half 0)) ∧
      (∀ (l : Lane) (i : Nat), s.bytesLen.toNat * s.cfg.spp ≤ i →
        Buf.get (tx.get l) i = Buf.get (s.mem.tx.get l) i)

/-- R31, R252, R253: every command that cuts pulses raises `Config` first of all where SPP is 0, naming FS where
FS is 0 and PULSE_US otherwise; those that synthesize (R32) raise it next where AMP exceeds 32767. -/
def Obligations.PulseConfigErrors : Prop :=
  ∀ (s : State) (i : Instr), s.status.err = false →
    let synthesizes := i = .mod ∨ i = .embed ∨ ∃ c k b, i = .synth c k b
    let cutsPulses := synthesizes ∨ i = .xlanes ∨ i = .decode ∨ i = .demod ∨
      (∃ c k, i = .bpf c k) ∨ ∃ c k, i = .decide c k
    (cutsPulses → s.cfg.spp = 0 → s.cfg.fs = 0 → exec i s = .next (s.raise ⟨.config, 0x040, 0⟩)) ∧
    (cutsPulses → s.cfg.spp = 0 → s.cfg.fs ≠ 0 →
      exec i s = .next (s.raise ⟨.config, 0x048, s.cfg.pulseUs.toNat⟩)) ∧
    (synthesizes → s.cfg.spp ≠ 0 → 32767 < s.cfg.amp.toNat →
      exec i s = .next (s.raise ⟨.config, 0x050, s.cfg.amp.toNat⟩))

/-! ### Band filter -/

/-- R157, R151: BPF writes the band-pass of its segment of AIN[c] at carrier k into RX lane 4c + k from
element 0, sets RX_LEN and DONE, and changes nothing else. -/
def Obligations.BpfFiltersOneLane : Prop :=
  ∀ (s : State) (c : Channel) (k : Carrier), s.status.err = false → s.cfg.spp ≠ 0 → s.bandPassOk k →
    s.cfg.fs = s.cfg.refRate → s.segmentOk → s.written .ain c s.segFrom s.segLen →
    ∃ (x : List Sample) (rx : Lanes (Buf Sample)), x.length = s.segLen ∧
      (∀ i < s.segLen, Buf.get (s.mem.ain.get c) (s.segFrom + i) = x[i]?) ∧
      exec (.bpf c k) s = .next
        { s with
          status := { s.status with done := true }
          rxLen := BitVec.ofNat 32 s.segLen
          mem := { s.mem with rx := rx } } ∧
      ∀ (l : Lane) (i : Nat), Buf.get (rx.get l) i =
        if l.val = 4 * c.val + k.val ∧ i < s.segLen then
          (bwf .pass s.cfg.order.toNat (s.cfg.carrier k - s.cfg.window.toNat)
            (s.cfg.carrier k + s.cfg.window.toNat) s.cfg.fs.toNat x)[i]?
        else Buf.get (s.mem.rx.get l) i

/-- R158, R151: BSF replaces the samples of CH[c] below CH_LEN by their band-stop, sets DONE, and changes
nothing else. -/
def Obligations.BsfFiltersInPlace : Prop :=
  ∀ (s : State) (c : Channel), s.status.err = false → s.cfg.fs ≠ 0 → s.bandStopOk →
    s.chLen.toNat ≤ s.params.maxFrames → s.minLen < s.chLen.toNat → s.written .ch c 0 s.chLen.toNat →
    ∃ (x : List Sample) (ch : Stereo (Buf Sample)), x.length = s.chLen.toNat ∧
      (∀ i < s.chLen.toNat, Buf.get (s.mem.ch.get c) i = x[i]?) ∧
      exec (.bsf c) s = .next
        { s with
          status := { s.status with done := true }
          mem := { s.mem with ch := ch } } ∧
      ∀ (d : Channel) (i : Nat), Buf.get (ch.get d) i =
        if d = c ∧ i < s.chLen.toNat then
          (bwf .stop s.cfg.order.toNat s.cfg.stopLo.toNat s.cfg.stopHi.toNat s.cfg.fs.toNat x)[i]?
        else Buf.get (s.mem.ch.get d) i

/-- R159, R181: XLANES writes the band-pass of the segment of each channel at each carrier into the eight RX
lanes, lane 4c + k from channel c at carrier k, sets RX_LEN and DONE, and changes nothing else. -/
def Obligations.XlanesFilterEightLanes : Prop :=
  ∀ s : State, s.status.err = false → s.cfg.spp ≠ 0 → (∀ k, s.bandPassOk k) → s.cfg.fs = s.cfg.refRate →
    s.segmentOk → s.written .ain 0 s.segFrom s.segLen → s.written .ain 1 s.segFrom s.segLen →
    ∃ (x : Channel → List Sample) (rx : Lanes (Buf Sample)),
      (∀ c, (x c).length = s.segLen ∧
        ∀ i < s.segLen, Buf.get (s.mem.ain.get c) (s.segFrom + i) = (x c)[i]?) ∧
      exec .xlanes s = .next
        { s with
          status := { s.status with done := true }
          rxLen := BitVec.ofNat 32 s.segLen
          mem := { s.mem with rx := rx } } ∧
      ∀ (c : Channel) (k : Carrier) (i : Nat), Buf.get (rx.get (laneOf c k)) i =
        if i < s.segLen then
          (bwf .pass s.cfg.order.toNat (s.cfg.carrier k - s.cfg.window.toNat)
            (s.cfg.carrier k + s.cfg.window.toNat) s.cfg.fs.toNat (x c))[i]?
        else Buf.get (s.mem.rx.get (laneOf c k)) i

/-- R154, R159, R218, R253: a band-pass command with a valid SPP checks ORDER, then WINDOW, then its carrier
(XLANES and DEMOD all four in order), and raises `Config` with the offending register's offset and value. -/
def Obligations.BandPassConfigErrors : Prop :=
  ∀ (s : State) (c : Channel) (k : Carrier), s.status.err = false → s.cfg.spp ≠ 0 →
    let refused (e : Err) := Host.Outcome.next (s.raise e)
    let order : Err := ⟨.config, 0x060, s.cfg.order.toNat⟩
    let window : Err := ⟨.config, 0x05C, 0⟩
    let carrier : Err := ⟨.config, 0x06C + 4 * k.val, s.cfg.carrier k⟩
    (¬ s.orderOk → exec (.bpf c k) s = refused order ∧ exec .xlanes s = refused order ∧
      exec .demod s = refused order) ∧
    (s.orderOk → s.cfg.window = 0 → exec (.bpf c k) s = refused window ∧ exec .xlanes s = refused window ∧
      exec .demod s = refused window) ∧
    (s.orderOk → s.cfg.window ≠ 0 → ¬ s.bandPassOk k → exec (.bpf c k) s = refused carrier ∧
      ((∀ j < k, s.bandPassOk j) → exec .xlanes s = refused carrier ∧ exec .demod s = refused carrier))

/-- R155, R158, R187, R253: BSF checks FS, then ORDER, then STOP_LO, then STOP_HI, and EMBED with a valid SPP and
AMP the last three, raising `Config` with the offending register's offset and value. -/
def Obligations.BandStopConfigErrors : Prop :=
  ∀ (s : State) (c : Channel), s.status.err = false →
    let refused (e : Err) := Host.Outcome.next (s.raise e)
    let synthesis := s.cfg.spp ≠ 0 ∧ s.cfg.amp.toNat ≤ 32767
    let order : Err := ⟨.config, 0x060, s.cfg.order.toNat⟩
    let low : Err := ⟨.config, 0x064, s.cfg.stopLo.toNat⟩
    let high : Err := ⟨.config, 0x068, s.cfg.stopHi.toNat⟩
    (s.cfg.fs = 0 → exec (.bsf c) s = refused ⟨.config, 0x040, 0⟩) ∧
    (s.cfg.fs ≠ 0 → ¬ s.orderOk →
      exec (.bsf c) s = refused order ∧ (synthesis → exec .embed s = refused order)) ∧
    (s.cfg.fs ≠ 0 → s.orderOk → ¬ (1 ≤ s.cfg.stopLo.toNat ∧ s.cfg.stopLo.toNat < s.cfg.stopHi.toNat) →
      exec (.bsf c) s = refused low ∧ (synthesis → exec .embed s = refused low)) ∧
    (s.cfg.fs ≠ 0 → s.orderOk → 1 ≤ s.cfg.stopLo.toNat → s.cfg.stopLo.toNat < s.cfg.stopHi.toNat →
      s.cfg.fs.toNat ≤ 2 * s.cfg.stopHi.toNat →
      exec (.bsf c) s = refused high ∧ (synthesis → exec .embed s = refused high))

/-- R29, R253: an extraction-side command whose Config checks pass raises `Rate` while FS differs from
REF_RATE. -/
def Obligations.RateErrors : Prop :=
  ∀ (s : State) (c : Channel) (k : Carrier), s.status.err = false → s.cfg.spp ≠ 0 →
    s.cfg.fs ≠ s.cfg.refRate →
    let refused := Host.Outcome.next (s.raise ⟨.rate, s.cfg.fs.toNat, s.cfg.refRate.toNat⟩)
    (s.bandPassOk k → exec (.bpf c k) s = refused) ∧
    ((∀ j, s.bandPassOk j) → exec .xlanes s = refused) ∧
    (s.cfg.zone ≠ 0 → exec (.decide c k) s = refused ∧ exec .decode s = refused) ∧
    ((∀ j, s.bandPassOk j) → s.cfg.zone ≠ 0 → exec .demod s = refused)

/-- R157, R159, R218, R252, R253: BPF, XLANES and DEMOD with every check before it passing raise `Range` where
AIN_LEN exceeds the capacity, then where the segment ends beyond AIN_LEN, and DEMOD then where SEG_SYMS exceeds
the byte buffer; the information words are the length or end, exact before saturation, and its limit. -/
def Obligations.SegmentRangeErrors : Prop :=
  ∀ (s : State) (c : Channel) (k : Carrier), s.status.err = false → s.cfg.spp ≠ 0 → s.cfg.fs = s.cfg.refRate →
    (s.params.maxFrames < s.ainLen.toNat →
      let refused := Host.Outcome.next (s.raise ⟨.range, s.ainLen.toNat, s.params.maxFrames⟩)
      (s.bandPassOk k → exec (.bpf c k) s = refused) ∧
      ((∀ j, s.bandPassOk j) → exec .xlanes s = refused ∧ (s.cfg.zone ≠ 0 → exec .demod s = refused))) ∧
    (s.ainLen.toNat ≤ s.params.maxFrames → s.ainLen.toNat < s.segFrom + s.segLen →
      let refused := Host.Outcome.next (s.raise ⟨.range, s.segFrom + s.segLen, s.ainLen.toNat⟩)
      (s.bandPassOk k → exec (.bpf c k) s = refused) ∧
      ((∀ j, s.bandPassOk j) → exec .xlanes s = refused ∧ (s.cfg.zone ≠ 0 → exec .demod s = refused))) ∧
    (s.ainLen.toNat ≤ s.params.maxFrames → s.segFrom + s.segLen ≤ s.ainLen.toNat → (∀ j, s.bandPassOk j) →
      s.cfg.zone ≠ 0 → s.params.maxBytes < s.segSyms.toNat →
      exec .demod s = .next (s.raise ⟨.range, s.segSyms.toNat, s.params.maxBytes⟩))

/-- R156, R157, R158, R159, R187, R218: a filter command whose every earlier check passes raises `Short` for a
sequence of FILTER_MIN_LEN(ORDER) samples or fewer, with its length and that bound: BPF, XLANES and DEMOD of the
segment, BSF of the channel, EMBED of the carrier. -/
def Obligations.ShortErrors : Prop :=
  ∀ (s : State) (c : Channel) (k : Carrier), s.status.err = false →
    let bound := filterMinLen s.params s.cfg.order.toNat
    let short (n : Nat) := Host.Outcome.next (s.raise ⟨.short, n, bound⟩)
    (s.cfg.spp ≠ 0 → s.cfg.fs = s.cfg.refRate → s.ainLen.toNat ≤ s.params.maxFrames →
      s.segFrom + s.segLen ≤ s.ainLen.toNat → s.segLen ≤ bound →
      (s.bandPassOk k → exec (.bpf c k) s = short s.segLen) ∧
      ((∀ j, s.bandPassOk j) → exec .xlanes s = short s.segLen ∧
        (s.cfg.zone ≠ 0 → s.segSyms.toNat ≤ s.params.maxBytes → exec .demod s = short s.segLen))) ∧
    (s.cfg.fs ≠ 0 → s.bandStopOk → s.chLen.toNat ≤ s.params.maxFrames → s.chLen.toNat ≤ bound →
      exec (.bsf c) s = short s.chLen.toNat) ∧
    (s.cfg.spp ≠ 0 → s.cfg.amp.toNat ≤ 32767 → s.bandStopOk → s.bytesLen.toNat ≤ s.params.maxBytes →
      s.ainLen.toNat ≤ s.params.maxFrames → s.bytesLen.toNat * s.cfg.spp ≤ s.ainLen.toNat →
      s.ainLen.toNat ≤ bound → exec .embed s = short s.ainLen.toNat)

/-! ### Stereo multiplexer and embedder -/

/-- R182: DEMUX copies AIN to CH below AIN_LEN, sets CH_LEN and DONE, and changes nothing else. -/
def Obligations.DemuxCopiesInput : Prop :=
  ∀ s : State, s.status.err = false → s.ainLen.toNat ≤ s.params.maxFrames →
    s.written .ain 0 0 s.ainLen.toNat → s.written .ain 1 0 s.ainLen.toNat →
    ∃ ch, exec .demux s = .next
        { s with
          status := { s.status with done := true }
          chLen := s.ainLen
          mem := { s.mem with ch := ch } } ∧
      ∀ (c : Channel) (i : Nat), Buf.get (ch.get c) i =
        if i < s.ainLen.toNat then Buf.get (s.mem.ain.get c) i else Buf.get (s.mem.ch.get c) i

/-- R42, R182, R252, R253: DEMUX raises `Range` when AIN_LEN exceeds the capacity, and otherwise `Uninit` with
the space, the channel and the index of the first unwritten element, channel 0 before channel 1. -/
def Obligations.DemuxErrors : Prop :=
  ∀ s : State, s.status.err = false →
    (s.params.maxFrames < s.ainLen.toNat →
      exec .demux s = .next (s.raise ⟨.range, s.ainLen.toNat, s.params.maxFrames⟩)) ∧
    (∀ j, s.ainLen.toNat ≤ s.params.maxFrames → s.firstUnwritten .ain 0 0 s.ainLen.toNat j →
      exec .demux s = .next (s.raise ⟨.uninit, 0x10, j⟩)) ∧
    (∀ j, s.ainLen.toNat ≤ s.params.maxFrames → s.written .ain 0 0 s.ainLen.toNat →
      s.firstUnwritten .ain 1 0 s.ainLen.toNat j → exec .demux s = .next (s.raise ⟨.uninit, 0x11, j⟩))

/-- R184, R183: OVL replaces the samples of CH[c] below LANE_LEN by their mix with the four TX lanes of the
channel, sets DONE, and changes nothing else. -/
def Obligations.OvlAddsFourLanes : Prop :=
  ∀ (s : State) (c : Channel), s.status.err = false → s.chLen.toNat ≤ s.params.maxFrames →
    s.laneLen.toNat ≤ s.chLen.toNat → s.written .ch c 0 s.laneLen.toNat →
    (∀ k : Carrier, s.written .tx (4 * c.val + k.val) 0 s.laneLen.toNat) →
    ∃ ch, exec (.ovl c) s = .next
        { s with
          status := { s.status with done := true }
          mem := { s.mem with ch := ch } } ∧
      (∀ (i : Nat) (x : Sample) (t0 t1 t2 t3 : Tone), i < s.laneLen.toNat →
        Buf.get (s.mem.ch.get c) i = some x → Buf.get (s.mem.tx.get (laneOf c 0)) i = some t0 →
        Buf.get (s.mem.tx.get (laneOf c 1)) i = some t1 → Buf.get (s.mem.tx.get (laneOf c 2)) i = some t2 →
        Buf.get (s.mem.tx.get (laneOf c 3)) i = some t3 →
        Buf.get (ch.get c) i = some (mix x t0 t1 t2 t3)) ∧
      (∀ (d : Channel) (i : Nat), (d ≠ c ∨ s.laneLen.toNat ≤ i) →
        Buf.get (ch.get d) i = Buf.get (s.mem.ch.get d) i)

/-- R185: MUX copies CH to AOUT below CH_LEN, sets AOUT_LEN and DONE, and changes nothing else. -/
def Obligations.MuxCopiesChannels : Prop :=
  ∀ s : State, s.status.err = false → s.chLen.toNat ≤ s.params.maxFrames →
    s.written .ch 0 0 s.chLen.toNat → s.written .ch 1 0 s.chLen.toNat →
    ∃ aout, exec .mux s = .next
        { s with
          status := { s.status with done := true }
          aoutLen := s.chLen
          mem := { s.mem with aout := aout } } ∧
      ∀ (c : Channel) (i : Nat), Buf.get (aout.get c) i =
        if i < s.chLen.toNat then Buf.get (s.mem.ch.get c) i else Buf.get (s.mem.aout.get c) i

/-- R185: DEMUX then MUX reproduces AIN in AOUT exactly. -/
def Obligations.DemuxThenMuxReproducesInput : Prop :=
  ∀ s : State, s.status.err = false → s.ainLen.toNat ≤ s.params.maxFrames →
    s.written .ain 0 0 s.ainLen.toNat → s.written .ain 1 0 s.ainLen.toNat →
    ∃ u t, exec .demux s = .next u ∧ exec .mux u = .next t ∧ t.aoutLen = s.ainLen ∧
      ∀ (c : Channel) (i : Nat), i < s.ainLen.toNat →
        Buf.get (t.mem.aout.get c) i = Buf.get (s.mem.ain.get c) i

/-- R186: with the checks before it passing, EMBED raises `Capacity` exactly when BYTES_LEN × SPP exceeds
AIN_LEN, with the required duration in microseconds and the available frames (saturated); the comparison is
that of the durations BYTES_LEN × PULSE_US / 10^6 and AIN_LEN / FS. -/
def Obligations.EmbedCapacity : Prop :=
  ∀ s : State, s.status.err = false → s.cfg.spp ≠ 0 → s.cfg.amp.toNat ≤ 32767 → s.bandStopOk →
    s.bytesLen.toNat ≤ s.params.maxBytes → s.ainLen.toNat ≤ s.params.maxFrames →
    (s.ainLen.toNat < s.bytesLen.toNat * s.cfg.spp → exec .embed s = .next
      { s with
        status := { done := false, err := true, bit := s.status.bit, code := 5 }
        errInfo0 := sat32 (s.bytesLen.toNat * s.cfg.pulseUs.toNat)
        errInfo1 := s.ainLen }) ∧
    (s.bytesLen.toNat * s.cfg.spp ≤ s.ainLen.toNat →
      ∀ t, exec .embed s = .next t → t.status.err = true → t.status.code ≠ 5) ∧
    (s.ainLen.toNat < s.bytesLen.toNat * s.cfg.spp ↔
      ((s.ainLen.toNat : ℝ) / (s.cfg.fs.toNat : ℝ) <
        (s.bytesLen.toNat : ℝ) * (s.cfg.pulseUs.toNat : ℝ) / 1000000))

/-- R187, R252, R253: EMBED with a valid configuration raises `Range` for BYTES_LEN, then for AIN_LEN; and with
every check before it passing, `Uninit` for the first unwritten element of BYTES, then of AIN[0], then of
AIN[1]. (Its `Capacity` is EmbedCapacity, its `Short` is in ShortErrors.) -/
def Obligations.EmbedRangeAndUninitErrors : Prop :=
  ∀ (s : State) (j : Nat), s.status.err = false → s.cfg.spp ≠ 0 → s.cfg.amp.toNat ≤ 32767 → s.bandStopOk →
    (s.params.maxBytes < s.bytesLen.toNat →
      exec .embed s = .next (s.raise ⟨.range, s.bytesLen.toNat, s.params.maxBytes⟩)) ∧
    (s.bytesLen.toNat ≤ s.params.maxBytes → s.params.maxFrames < s.ainLen.toNat →
      exec .embed s = .next (s.raise ⟨.range, s.ainLen.toNat, s.params.maxFrames⟩)) ∧
    (s.bytesLen.toNat ≤ s.params.maxBytes → s.ainLen.toNat ≤ s.params.maxFrames →
      s.bytesLen.toNat * s.cfg.spp ≤ s.ainLen.toNat → s.minLen < s.ainLen.toNat →
      (s.firstUnwritten .bytes 0 0 s.bytesLen.toNat j →
        exec .embed s = .next (s.raise ⟨.uninit, 0x60, j⟩)) ∧
      (s.written .bytes 0 0 s.bytesLen.toNat → s.firstUnwritten .ain 0 0 s.ainLen.toNat j →
        exec .embed s = .next (s.raise ⟨.uninit, 0x10, j⟩)) ∧
      (s.written .bytes 0 0 s.bytesLen.toNat → s.written .ain 0 0 s.ainLen.toNat →
        s.firstUnwritten .ain 1 0 s.ainLen.toNat j → exec .embed s = .next (s.raise ⟨.uninit, 0x11, j⟩)))

/-- R187: EMBED whose checks pass is the sequence of the seven commands MOD, DEMUX, BSF 0, BSF 1, OVL 0,
OVL 1, MUX, each on the state the previous one left. -/
def Obligations.EmbedIsItsSevenCommands : Prop :=
  ∀ s : State, s.status.err = false → s.embedOk →
    ∃ s1 s2 s3 s4 s5 s6 t, exec .mod s = .next s1 ∧ exec .demux s1 = .next s2 ∧ exec (.bsf 0) s2 = .next s3 ∧
      exec (.bsf 1) s3 = .next s4 ∧ exec (.ovl 0) s4 = .next s5 ∧ exec (.ovl 1) s5 = .next s6 ∧
      exec .mux s6 = .next t ∧ exec .embed s = .next t ∧ t.status.done = true ∧ t.status.err = false

/-- R188, R187: after a successful EMBED each TX lane holds, below BYTES_LEN × SPP, the pulse of the lane's bit of
each byte (R128); the output of channel c is the band-stopped carrier, mixed with the channel's four TX lanes below
BYTES_LEN × SPP, and has the carrier's length; the working channel holds the same samples; every other element of
TX, CH and AOUT is as before, and nothing else changes but LANE_LEN, CH_LEN, AOUT_LEN and DONE. -/
def Obligations.EmbedOutput : Prop :=
  ∀ s : State, s.status.err = false → s.embedOk →
    ∃ (x : Channel → List Sample) (tx : Lanes (Buf Tone)) (ch aout : Stereo (Buf Sample)),
      (∀ c, (x c).length = s.ainLen.toNat ∧
        ∀ i < s.ainLen.toNat, Buf.get (s.mem.ain.get c) i = (x c)[i]?) ∧
      exec .embed s = .next
        { s with
          status := { s.status with done := true }
          laneLen := BitVec.ofNat 32 (s.bytesLen.toNat * s.cfg.spp)
          chLen := s.ainLen
          aoutLen := s.ainLen
          mem := { s.mem with tx := tx, ch := ch, aout := aout } } ∧
      (∀ (l : Lane) (j n : Nat) (b : Byte), j < s.bytesLen.toNat → n < s.cfg.spp →
        Buf.get s.mem.bytes j = some b →
        Buf.get (tx.get l) (j * s.cfg.spp + n) =
          some (if b.getLsbD (7 - l.val) then
            numSynth s.cfg.amp.toNat (s.cfg.carrier (carrierOf l)) s.cfg.fs.toNat n else .half 0)) ∧
      (∀ (l : Lane) (i : Nat), s.bytesLen.toNat * s.cfg.spp ≤ i →
        Buf.get (tx.get l) i = Buf.get (s.mem.tx.get l) i) ∧
      (∀ (c : Channel) (i : Nat), i < s.ainLen.toNat → Buf.get (ch.get c) i = Buf.get (aout.get c) i) ∧
      (∀ (c : Channel) (i : Nat), s.ainLen.toNat ≤ i →
        Buf.get (ch.get c) i = Buf.get (s.mem.ch.get c) i ∧
        Buf.get (aout.get c) i = Buf.get (s.mem.aout.get c) i) ∧
      ∀ c : Channel,
        let a := bwf .stop s.cfg.order.toNat s.cfg.stopLo.toNat s.cfg.stopHi.toNat s.cfg.fs.toNat (x c)
        (∀ i < s.bytesLen.toNat * s.cfg.spp, ∃ v t0 t1 t2 t3, a[i]? = some v ∧
          Buf.get (tx.get (laneOf c 0)) i = some t0 ∧ Buf.get (tx.get (laneOf c 1)) i = some t1 ∧
          Buf.get (tx.get (laneOf c 2)) i = some t2 ∧ Buf.get (tx.get (laneOf c 3)) i = some t3 ∧
          Buf.get (aout.get c) i = some (mix v t0 t1 t2 t3)) ∧
        (∀ i, s.bytesLen.toNat * s.cfg.spp ≤ i → i < s.ainLen.toNat → Buf.get (aout.get c) i = a[i]?)

/-! ### Envelope slicer -/

/-- R210, R211, R212, R213: the decision of a segment: its whole zones, the exact peak of each, their sum, and
the strict comparison with the threshold. -/
def Obligations.EnvelopeDecision : Prop :=
  ∀ (r : ConfigRegs) (seg : List Sample), r.zone ≠ 0 →
    let z := r.zone.toNat
    let e := envelope r seg
    ∃ peaks : List Nat, peaks.length = seg.length / z ∧ e.zones = seg.length / z ∧ e.sum = peaks.sum ∧
      (∀ j < seg.length / z,
        (∀ i < z, ∃ v, seg[j * z + i]? = some v ∧ v.toInt.natAbs ≤ peaks.getD j 0) ∧
        ∃ i < z, ∃ v, seg[j * z + i]? = some v ∧ v.toInt.natAbs = peaks.getD j 0) ∧
      (e.bit = true ↔ 1 ≤ seg.length / z ∧ r.thrCenti.toNat * (seg.length / z) < 100 * peaks.sum)

/-- R215: DECIDE writes the envelope of slot SYM_IDX of RX lane 4c + k to STATUS.BIT, ENV_SUM (saturated) and
ENV_ZONES, sets DONE, and changes nothing else. -/
def Obligations.DecideWritesDecision : Prop :=
  ∀ (s : State) (c : Channel) (k : Carrier), s.status.err = false → s.cfg.spp ≠ 0 → s.cfg.zone ≠ 0 →
    s.cfg.fs = s.cfg.refRate → s.rxLen.toNat ≤ s.params.maxFrames →
    (s.symIdx.toNat + 1) * s.cfg.spp ≤ s.rxLen.toNat →
    s.written .rx (4 * c.val + k.val) (s.symIdx.toNat * s.cfg.spp) s.cfg.spp →
    ∃ seg : List Sample, seg.length = s.cfg.spp ∧
      (∀ n < s.cfg.spp, Buf.get (s.mem.rx.get (laneOf c k)) (s.symIdx.toNat * s.cfg.spp + n) = seg[n]?) ∧
      exec (.decide c k) s = .next
        { s with
          status := { s.status with done := true, bit := (envelope s.cfg seg).bit }
          envSum := sat32 (envelope s.cfg seg).sum
          envZones := BitVec.ofNat 32 (envelope s.cfg seg).zones }

/-- R216, R217, R121: DECODE writes byte j, for each j below RX_LEN div SPP, as the decisions of the eight
lanes' slot j with lane 0 most significant, sets BYTES_LEN and DONE, and changes nothing else. -/
def Obligations.DecodeWritesBytes : Prop :=
  ∀ s : State, s.status.err = false → s.cfg.spp ≠ 0 → s.cfg.zone ≠ 0 → s.cfg.fs = s.cfg.refRate →
    s.rxLen.toNat ≤ s.params.maxFrames → s.rxLen.toNat / s.cfg.spp ≤ s.params.maxBytes →
    (∀ l : Lane, s.written .rx l 0 (s.rxLen.toNat / s.cfg.spp * s.cfg.spp)) →
    ∃ bytes : Buf Byte,
      exec .decode s = .next
        { s with
          status := { s.status with done := true }
          bytesLen := BitVec.ofNat 32 (s.rxLen.toNat / s.cfg.spp)
          mem := { s.mem with bytes := bytes } } ∧
      (∀ j < s.rxLen.toNat / s.cfg.spp, ∃ b, Buf.get bytes j = some b ∧
        ∀ l : Lane, ∃ seg : List Sample, seg.length = s.cfg.spp ∧
          (∀ n < s.cfg.spp, Buf.get (s.mem.rx.get l) (j * s.cfg.spp + n) = seg[n]?) ∧
          b.getLsbD (7 - l.val) = (envelope s.cfg seg).bit) ∧
      (∀ j, s.rxLen.toNat / s.cfg.spp ≤ j → Buf.get bytes j = Buf.get s.mem.bytes j)

/-- R218: DEMOD whose checks pass is XLANES followed by DECODE on the state XLANES left; it leaves RX_LEN at the
segment's length, BYTES_LEN at SEG_SYMS and DONE at 1, and changes nothing else but RX and BYTES. -/
def Obligations.DemodIsXlanesThenDecode : Prop :=
  ∀ s : State, s.status.err = false → s.demodOk →
    ∃ (u : State) (rx : Lanes (Buf Sample)) (bytes : Buf Byte),
      let t : State :=
        { s with
          status := { s.status with done := true }
          rxLen := BitVec.ofNat 32 s.segLen
          bytesLen := s.segSyms
          mem := { s.mem with rx := rx, bytes := bytes } }
      exec .xlanes s = .next u ∧ exec .decode u = .next t ∧ exec .demod s = .next t

/-- R34, R218, R253: the slicing commands raise `Config` for ZONE = 0 before any Rate check, DEMOD after the
band checks of all four carriers. -/
def Obligations.ZoneConfigErrors : Prop :=
  ∀ (s : State) (c : Channel) (k : Carrier), s.status.err = false → s.cfg.spp ≠ 0 → s.cfg.zone = 0 →
    exec (.decide c k) s = .next (s.raise ⟨.config, 0x058, 0⟩) ∧
    exec .decode s = .next (s.raise ⟨.config, 0x058, 0⟩) ∧
    ((∀ j, s.bandPassOk j) → exec .demod s = .next (s.raise ⟨.config, 0x058, 0⟩))

/-! ### Errors of lengths and of unwritten elements -/

/-- R127, R128, R184, R185, R215, R217, R252, R253: where SYNTH, MOD, OVL, MUX, DECIDE and DECODE raise `Range`
once every check before it passes, with the requested end or length and the limit it exceeds. -/
def Obligations.LengthRangeErrors : Prop :=
  ∀ (s : State) (c : Channel) (k : Carrier) (b : Bool), s.status.err = false →
    let slicing := s.cfg.spp ≠ 0 ∧ s.cfg.zone ≠ 0 ∧ s.cfg.fs = s.cfg.refRate
    let synthesis := s.cfg.spp ≠ 0 ∧ s.cfg.amp.toNat ≤ 32767
    let slotEnd := (s.symIdx.toNat + 1) * s.cfg.spp
    let range (v limit : Nat) := Host.Outcome.next (s.raise ⟨.range, v, limit⟩)
    (synthesis → s.params.maxFrames < slotEnd → exec (.synth c k b) s = range slotEnd s.params.maxFrames) ∧
    (synthesis → s.params.maxBytes < s.bytesLen.toNat →
      exec .mod s = range s.bytesLen.toNat s.params.maxBytes) ∧
    (synthesis → s.bytesLen.toNat ≤ s.params.maxBytes → s.params.maxFrames < s.bytesLen.toNat * s.cfg.spp →
      exec .mod s = range (s.bytesLen.toNat * s.cfg.spp) s.params.maxFrames) ∧
    (s.params.maxFrames < s.chLen.toNat →
      exec (.ovl c) s = range s.chLen.toNat s.params.maxFrames ∧
      exec .mux s = range s.chLen.toNat s.params.maxFrames) ∧
    (s.chLen.toNat ≤ s.params.maxFrames → s.chLen.toNat < s.laneLen.toNat →
      exec (.ovl c) s = range s.laneLen.toNat s.chLen.toNat) ∧
    (slicing → s.params.maxFrames < s.rxLen.toNat →
      exec (.decide c k) s = range s.rxLen.toNat s.params.maxFrames ∧
      exec .decode s = range s.rxLen.toNat s.params.maxFrames) ∧
    (slicing → s.rxLen.toNat ≤ s.params.maxFrames → s.rxLen.toNat < slotEnd →
      exec (.decide c k) s = range slotEnd s.rxLen.toNat) ∧
    (slicing → s.rxLen.toNat ≤ s.params.maxFrames → s.params.maxBytes < s.rxLen.toNat / s.cfg.spp →
      exec .decode s = range (s.rxLen.toNat / s.cfg.spp) s.params.maxBytes)

/-- R42, R128, R158, R184, R185, R252, R253: where MOD, BSF, OVL and MUX raise `Uninit` once every check before
it passes, with 16 times the space's id plus the array's number, and the index of the first unwritten element
in the scan order: OVL's channel before its four lanes in order, MUX's channel 0 before channel 1. -/
def Obligations.EmbeddingUninitErrors : Prop :=
  ∀ (s : State) (c : Channel) (j : Nat), s.status.err = false →
    let uninit (array : Nat) := Host.Outcome.next (s.raise ⟨.uninit, array, j⟩)
    (s.cfg.spp ≠ 0 → s.cfg.amp.toNat ≤ 32767 → s.bytesLen.toNat ≤ s.params.maxBytes →
      s.bytesLen.toNat * s.cfg.spp ≤ s.params.maxFrames → s.firstUnwritten .bytes 0 0 s.bytesLen.toNat j →
      exec .mod s = uninit 0x60) ∧
    (s.cfg.fs ≠ 0 → s.bandStopOk → s.chLen.toNat ≤ s.params.maxFrames → s.minLen < s.chLen.toNat →
      s.firstUnwritten .ch c 0 s.chLen.toNat j → exec (.bsf c) s = uninit (0x30 + c.val)) ∧
    (s.chLen.toNat ≤ s.params.maxFrames → s.laneLen.toNat ≤ s.chLen.toNat →
      (s.firstUnwritten .ch c 0 s.laneLen.toNat j → exec (.ovl c) s = uninit (0x30 + c.val)) ∧
      ∀ k : Carrier, s.written .ch c 0 s.laneLen.toNat →
        (∀ k' < k, s.written .tx (4 * c.val + k'.val) 0 s.laneLen.toNat) →
        s.firstUnwritten .tx (4 * c.val + k.val) 0 s.laneLen.toNat j →
        exec (.ovl c) s = uninit (0x40 + 4 * c.val + k.val)) ∧
    (s.chLen.toNat ≤ s.params.maxFrames →
      (s.firstUnwritten .ch 0 0 s.chLen.toNat j → exec .mux s = uninit 0x30) ∧
      (s.written .ch 0 0 s.chLen.toNat → s.firstUnwritten .ch 1 0 s.chLen.toNat j →
        exec .mux s = uninit 0x31))

/-- R42, R157, R159, R215, R217, R218, R252, R253: where BPF, XLANES, DEMOD, DECIDE and DECODE raise `Uninit` once
every check before it passes, with 16 times the space's id plus the array's number, and the index of the first
unwritten element in the scan order: XLANES and DEMOD channel 0 before channel 1, DECODE the lanes in order. -/
def Obligations.ExtractionUninitErrors : Prop :=
  ∀ (s : State) (c : Channel) (k : Carrier) (j : Nat), s.status.err = false → s.cfg.spp ≠ 0 →
    s.cfg.fs = s.cfg.refRate →
    let uninit (array index : Nat) := Host.Outcome.next (s.raise ⟨.uninit, array, index⟩)
    (s.bandPassOk k → s.segmentOk → s.firstUnwritten .ain c s.segFrom s.segLen j →
      exec (.bpf c k) s = uninit (0x10 + c.val) (s.segFrom + j)) ∧
    ((∀ k', s.bandPassOk k') → s.segmentOk →
      let slicing := s.cfg.zone ≠ 0 ∧ s.segSyms.toNat ≤ s.params.maxBytes
      (s.firstUnwritten .ain 0 s.segFrom s.segLen j → exec .xlanes s = uninit 0x10 (s.segFrom + j) ∧
        (slicing → exec .demod s = uninit 0x10 (s.segFrom + j))) ∧
      (s.written .ain 0 s.segFrom s.segLen → s.firstUnwritten .ain 1 s.segFrom s.segLen j →
        exec .xlanes s = uninit 0x11 (s.segFrom + j) ∧
        (slicing → exec .demod s = uninit 0x11 (s.segFrom + j)))) ∧
    (s.cfg.zone ≠ 0 → s.rxLen.toNat ≤ s.params.maxFrames → (s.symIdx.toNat + 1) * s.cfg.spp ≤ s.rxLen.toNat →
      s.firstUnwritten .rx (4 * c.val + k.val) (s.symIdx.toNat * s.cfg.spp) s.cfg.spp j →
      exec (.decide c k) s = uninit (0x50 + 4 * c.val + k.val) (s.symIdx.toNat * s.cfg.spp + j)) ∧
    (s.cfg.zone ≠ 0 → s.rxLen.toNat ≤ s.params.maxFrames → s.rxLen.toNat / s.cfg.spp ≤ s.params.maxBytes →
      ∀ l : Lane, (∀ l' < l, s.written .rx l' 0 (s.rxLen.toNat / s.cfg.spp * s.cfg.spp)) →
        s.firstUnwritten .rx l 0 (s.rxLen.toNat / s.cfg.spp * s.cfg.spp) j →
        exec .decode s = uninit (0x50 + l.val) j)

/-! ### Host side -/

/-- R325: the header of a stego Frame parses back to its payload length, its filename length and its
encryption flag, and a filename of 128 or more bytes is rejected. -/
def Obligations.HeaderFidelity : Prop :=
  ∀ (payloadLen : Word) (nameLen : Nat) (encrypted : Bool) (version : Byte),
    (nameLen ≤ 127 → ∃ h p, buildHeader payloadLen nameLen encrypted version = .ok h ∧
      h.bytes.length = 10 ∧ hasSignature h.bytes = true ∧ parseHeader h.bytes = some p ∧
      p.payloadLen = payloadLen ∧ p.nameLen.toNat = nameLen ∧ p.encrypted = encrypted) ∧
    (128 ≤ nameLen → buildHeader payloadLen nameLen encrypted version = .error .inputConstraint)

/-! ### The register map -/

/-- R20, R72: the 30 registers and their offsets, and that no other offset is mapped: 0x024 to 0x03C, 0x07C, 0x098
upward, and what is no multiple of 4. -/
def Obligations.RegisterMap : Prop :=
  [Reg.cmd, .status, .errInfo0, .errInfo1, .segStart, .segSyms, .symIdx, .envSum, .envZones].map Reg.offset =
    [0x000, 0x004, 0x008, 0x00C, 0x010, 0x014, 0x018, 0x01C, 0x020] ∧
  [Reg.fs, .refRate, .pulseUs, .spp, .amp, .thrCenti, .zone, .window, .order].map Reg.offset =
    [0x040, 0x044, 0x048, 0x04C, 0x050, 0x054, 0x058, 0x05C, 0x060] ∧
  [Reg.stopLo, .stopHi, .f0, .f1, .f2, .f3].map Reg.offset = [0x064, 0x068, 0x06C, 0x070, 0x074, 0x078] ∧
  [Reg.ainLen, .bytesLen, .laneLen, .chLen, .rxLen, .aoutLen].map Reg.offset =
    [0x080, 0x084, 0x088, 0x08C, 0x090, 0x094] ∧
  ∀ off : Nat, (∃ r : Reg, r.offset = off) ↔
    off % 4 = 0 ∧ off < 0x098 ∧ ¬ (0x024 ≤ off ∧ off ≤ 0x03C) ∧ off ≠ 0x07C
end

