-- ==== Sys2Proof/Laws/Buffers.lean ====
section
/-! SUPPORT. What reading and writing buffer arrays do. The laws of `get`, `readRun` and `writeRun` hold of
every list, canonical or not. -/

namespace Sys2Proof.Machine

variable {α : Type}

/-! ### One element -/

@[simp] theorem Buf.skipTo_nil (i : Nat) : Buf.skipTo ([] : Buf α) i = [] := rfl

theorem Buf.skipTo_cons (e : Nat × α) (b : Buf α) (i : Nat) :
    Buf.skipTo (e :: b) i = if e.1 < i then Buf.skipTo b i else e :: b := by
  simp [Buf.skipTo, List.dropWhile_cons]

/-- Skipping to i and then to a later j is skipping to j. -/
theorem Buf.skipTo_skipTo (b : Buf α) {i j : Nat} (h : i ≤ j) :
    Buf.skipTo (Buf.skipTo b i) j = Buf.skipTo b j := by
  induction b with
  | nil => rfl
  | cons e b ih =>
    rw [Buf.skipTo_cons e b i]
    split
    · rw [ih, Buf.skipTo_cons e b j, if_pos (by omega)]
    · rfl

/-- Everything before the place of i is passed over. -/
theorem Buf.skipTo_append_of_lt (l b : Buf α) (i : Nat) (h : ∀ e ∈ l, e.1 < i) :
    Buf.skipTo (l ++ b) i = Buf.skipTo b i := by
  induction l with
  | nil => rfl
  | cons e l ih =>
    rw [List.cons_append, Buf.skipTo_cons, if_pos (h e (by simp)), ih (fun e he => h e (by simp [he]))]

theorem Buf.get_eq_of_skipTo {b c : Buf α} {i : Nat} (h : Buf.skipTo b i = Buf.skipTo c i) :
    Buf.get b i = Buf.get c i := by
  simp [Buf.get, h]

theorem Buf.get_skipTo (b : Buf α) {i j : Nat} (h : i ≤ j) : Buf.get (Buf.skipTo b i) j = Buf.get b j :=
  Buf.get_eq_of_skipTo (Buf.skipTo_skipTo b h)

@[simp] theorem Buf.get_nil (i : Nat) : Buf.get ([] : Buf α) i = none := rfl

theorem Buf.get_cons (e : Nat × α) (b : Buf α) (i : Nat) :
    Buf.get (e :: b) i = if e.1 < i then Buf.get b i else if e.1 = i then some e.2 else none := by
  unfold Buf.get
  rw [Buf.skipTo_cons]
  by_cases h : e.1 < i <;> simp [h]

/-- The elements left after skipping to i have no index below i. -/
theorem Buf.get_skipTo_of_lt (b : Buf α) {i j : Nat} (h : j < i) : Buf.get (Buf.skipTo b i) j = none := by
  induction b with
  | nil => rfl
  | cons e b ih =>
    rw [Buf.skipTo_cons]
    split
    · exact ih
    · rw [Buf.get_cons, if_neg (by omega), if_neg (by omega)]

/-- Elements below i are read from the listed elements before the place of i. -/
theorem Buf.get_takeWhile_append (b tail : Buf α) {i j : Nat} (h : j < i) (ht : Buf.get tail j = none) :
    Buf.get (b.takeWhile (fun e => decide (e.1 < i)) ++ tail) j = Buf.get b j := by
  induction b with
  | nil => simpa using ht
  | cons e b ih =>
    rw [List.takeWhile_cons]
    by_cases he : e.1 < i
    · simp only [he, decide_true, if_true, List.cons_append]
      rw [Buf.get_cons, Buf.get_cons, ih]
    · simp only [he, decide_false, Bool.false_eq_true, if_false, List.nil_append]
      rw [ht, Buf.get_cons, if_neg (by omega), if_neg (by omega)]

/-! ### Runs -/

/-- The elements of a numbered run, as they are listed. -/
theorem Buf.run_cons (v : α) (vs : List α) (i : Nat) :
    (((v :: vs).zipIdx i).map Prod.swap : Buf α) = (i, v) :: (vs.zipIdx (i + 1)).map Prod.swap := by
  simp [List.zipIdx_cons]

theorem Buf.run_lt (vs : List α) (i j : Nat) (h : i + vs.length ≤ j) :
    ∀ e ∈ ((vs.zipIdx i).map Prod.swap : Buf α), e.1 < j := by
  intro e he
  obtain ⟨⟨v, k⟩, hk, rfl⟩ := List.mem_map.mp he
  have := List.snd_lt_add_of_mem_zipIdx hk
  simp only [Prod.swap]
  omega

/-- Reading a listed run followed by other elements. -/
theorem Buf.get_run_append (vs : List α) (b : Buf α) (i j : Nat) (hi : i ≤ j) :
    Buf.get ((vs.zipIdx i).map Prod.swap ++ b) j =
      if j < i + vs.length then vs[j - i]? else Buf.get b j := by
  induction vs generalizing i with
  | nil => simp [Nat.not_lt.mpr hi]
  | cons v vs ih =>
    rw [Buf.run_cons, List.cons_append, Buf.get_cons]
    by_cases hij : i < j
    · rw [if_pos hij, ih (i + 1) hij]
      have e : j - i = (j - (i + 1)) + 1 := by omega
      simp only [e, List.length_cons, List.getElem?_cons_succ]
      grind
    · have : i = j := by omega
      subst this
      simp

/-- What an element reads as after a run is written: the run's value inside it, and as before outside. -/
theorem Buf.get_writeRun (b : Buf α) (i : Nat) (vs : List α) (j : Nat) :
    Buf.get (Buf.writeRun b i vs) j =
      if i ≤ j ∧ j < i + vs.length then vs[j - i]? else Buf.get b j := by
  unfold Buf.writeRun
  have hlt : ∀ e ∈ b.takeWhile (fun e => decide (e.1 < i)), e.1 < i := by
    intro e he
    simpa using (List.all_takeWhile (p := fun e : Nat × α => decide (e.1 < i)) (l := b) |> List.all_eq_true.mp) e he
  by_cases hij : i ≤ j
  · rw [List.append_assoc, Buf.get_eq_of_skipTo (Buf.skipTo_append_of_lt _ _ j (fun e he => by
      have := hlt e he; omega)), Buf.get_run_append _ _ _ _ hij]
    by_cases hj : j < i + vs.length
    · simp [hij, hj]
    · simp only [hj, if_false, and_false]
      exact Buf.get_skipTo b (by omega)
  · rw [if_neg (by omega), List.append_assoc]
    refine Buf.get_takeWhile_append b _ (by omega) ?_
    cases vs with
    | nil => exact Buf.get_skipTo_of_lt b (by simp; omega)
    | cons v vs =>
      rw [Buf.run_cons, List.cons_append, Buf.get_cons]
      simp only
      rw [if_neg (by omega), if_neg (by omega)]

/-- A write sets valid bits and clears none (spec/10_state.md R42). -/
theorem Buf.get_writeRun_isSome (b : Buf α) (i : Nat) (vs : List α) (j : Nat) (h : (Buf.get b j).isSome) :
    (Buf.get (Buf.writeRun b i vs) j).isSome := by
  rw [Buf.get_writeRun]
  split
  · next hj => simp; omega
  · exact h

theorem Buf.readFrom_spec (b : Buf α) (i n : Nat) (acc : List α) :
    (∃ vs : List α, Buf.readFrom b i n acc = .ok (acc.reverse ++ vs) ∧ vs.length = n ∧
        ∀ j < n, Buf.get b (i + j) = vs[j]?) ∨
      (∃ j < n, Buf.readFrom b i n acc = .error (i + j) ∧ Buf.get b (i + j) = none ∧
        ∀ k < j, (Buf.get b (i + k)).isSome) := by
  induction n generalizing b i acc with
  | zero => exact .inl ⟨[], by simp [Buf.readFrom], rfl, by simp⟩
  | succ n ih =>
    unfold Buf.readFrom
    have hg := fun j (h : i ≤ j) => Buf.get_skipTo b h
    match hs : Buf.skipTo b i with
    | [] =>
      refine .inr ⟨0, by omega, rfl, ?_, by simp⟩
      rw [← hg (i + 0) (by omega), hs]
      rfl
    | (k, v) :: rest =>
      rw [hs] at hg
      by_cases hk : k = i
      · subst hk
        simp only [if_true]
        have h0 : Buf.get b (k + 0) = some v := by
          rw [← hg (k + 0) (by omega), Buf.get_cons]
          simp
        have hrest : ∀ j, Buf.get rest (k + 1 + j) = Buf.get b (k + (j + 1)) := by
          intro j
          rw [← hg (k + (j + 1)) (by omega), Buf.get_cons, if_pos (by omega)]
          congr 1
          omega
        rcases ih rest (k + 1) (v :: acc) with ⟨vs, hok, hlen, hvs⟩ | ⟨j, hj, herr, hnone, hsome⟩
        · refine .inl ⟨v :: vs, by simp [hok], by simp [hlen], ?_⟩
          intro j hj
          cases j with
          | zero => simpa using h0
          | succ j => rw [← hrest j, hvs j (by omega), List.getElem?_cons_succ]
        · refine .inr ⟨j + 1, by omega, by rw [herr]; congr 1; omega, by rw [← hrest j]; exact hnone, ?_⟩
          intro m hm
          cases m with
          | zero => rw [h0]; rfl
          | succ m => rw [← hrest m]; exact hsome m (by omega)
      · simp only [hk, if_false]
        refine .inr ⟨0, by omega, rfl, ?_, by simp⟩
        have hki : ¬ k < i := by
          have := List.head?_dropWhile_not (p := fun e : Nat × α => decide (e.1 < i)) b
          unfold Buf.skipTo at hs
          rw [hs] at this
          simpa using this
        rw [← hg (i + 0) (by omega), Buf.get_cons]
        simp [hki, hk]

/-- What reading a run answers: all its values, where every element is written, or the first unwritten
index. -/
theorem Buf.readRun_cases (b : Buf α) (i n : Nat) :
    (∃ vs : List α, Buf.readRun b i n = .ok vs ∧ vs.length = n ∧ ∀ j < n, Buf.get b (i + j) = vs[j]?) ∨
      (∃ j < n, Buf.readRun b i n = .error (i + j) ∧ Buf.get b (i + j) = none ∧
        ∀ k < j, (Buf.get b (i + k)).isSome) := by
  simpa [Buf.readRun] using Buf.readFrom_spec b i n []

/-- A run is read where every element of it is written. -/
theorem Buf.readRun_ok (b : Buf α) (i n : Nat) (h : ∀ j < n, (Buf.get b (i + j)).isSome) :
    ∃ vs : List α, Buf.readRun b i n = .ok vs ∧ vs.length = n ∧ ∀ j < n, Buf.get b (i + j) = vs[j]? := by
  rcases Buf.readRun_cases b i n with hok | ⟨j, hj, -, hnone, -⟩
  · exact hok
  · have := h j hj
    simp [hnone] at this

/-- The values read are those of the elements. -/
theorem Buf.readRun_eq_ok {b : Buf α} {i n : Nat} {vs : List α} (h : Buf.readRun b i n = .ok vs) :
    vs.length = n ∧ ∀ j < n, Buf.get b (i + j) = vs[j]? := by
  rcases Buf.readRun_cases b i n with ⟨ws, hok, hlen, hws⟩ | ⟨j, -, herr, -, -⟩
  · rw [h] at hok
    cases hok
    exact ⟨hlen, hws⟩
  · rw [h] at herr
    cases herr

/-- The index reported is that of the first unwritten element. -/
theorem Buf.readRun_eq_error {b : Buf α} {i n k : Nat} (h : Buf.readRun b i n = .error k) :
    ∃ j < n, k = i + j ∧ Buf.get b (i + j) = none ∧ ∀ m < j, (Buf.get b (i + m)).isSome := by
  rcases Buf.readRun_cases b i n with ⟨ws, hok, -, -⟩ | ⟨j, hj, herr, hnone, hsome⟩
  · rw [h] at hok
    cases hok
  · rw [h] at herr
    exact ⟨j, hj, by cases herr; rfl, hnone, hsome⟩

/-- When a run is read, and what with. -/
theorem Buf.readRun_eq_ok_iff {b : Buf α} {i n : Nat} {vs : List α} :
    Buf.readRun b i n = .ok vs ↔ vs.length = n ∧ ∀ j < n, Buf.get b (i + j) = vs[j]? := by
  refine ⟨Buf.readRun_eq_ok, fun ⟨hl, hv⟩ => ?_⟩
  obtain ⟨ws, hok, hwl, hws⟩ := Buf.readRun_ok b i n (fun j hj => by
    rw [hv j hj, List.getElem?_eq_getElem (by omega)]
    rfl)
  rw [hok]
  congr 1
  refine List.ext_getElem? (fun j => ?_)
  by_cases hj : j < n
  · rw [← hws j hj, hv j hj]
  · rw [List.getElem?_eq_none (by omega), List.getElem?_eq_none (by omega)]

/-- Reading from the start of a run just written gives the run, as far as it is read. -/
theorem Buf.readRun_writeRun {b : Buf α} {i n : Nat} {vs : List α} (h : n ≤ vs.length) :
    Buf.readRun (Buf.writeRun b i vs) i n = .ok (vs.take n) := by
  refine Buf.readRun_eq_ok_iff.mpr ⟨by simp; omega, fun j hj => ?_⟩
  rw [Buf.get_writeRun, if_pos (by omega), List.getElem?_take_of_lt hj, Nat.add_sub_cancel_left]

/-- The start of a run that is read. -/
theorem Buf.readRun_take {b : Buf α} {i n m : Nat} {vs : List α} (h : Buf.readRun b i n = .ok vs) (hm : m ≤ n) :
    Buf.readRun b i m = .ok (vs.take m) := by
  obtain ⟨hl, hv⟩ := Buf.readRun_eq_ok h
  refine Buf.readRun_eq_ok_iff.mpr ⟨by simp; omega, fun j hj => ?_⟩
  rw [hv j (by omega), List.getElem?_take_of_lt hj]

/-- Reading a run whose start has been written over. -/
theorem Buf.readRun_overwrite {b : Buf α} {i n : Nat} {vs ws : List α} (h : Buf.readRun b i n = .ok vs)
    (hw : ws.length ≤ n) : Buf.readRun (Buf.writeRun b i ws) i n = .ok (ws ++ vs.drop ws.length) := by
  obtain ⟨hl, hv⟩ := Buf.readRun_eq_ok h
  refine Buf.readRun_eq_ok_iff.mpr ⟨by simp; omega, fun j hj => ?_⟩
  rw [Buf.get_writeRun]
  split
  · next h1 => rw [List.getElem?_append_left (by omega), Nat.add_sub_cancel_left]
  · next h1 =>
    rw [hv j hj, List.getElem?_append_right (by omega), List.getElem?_drop]
    congr 1
    omega

/-! ### The canonical form -/

theorem Buf.wfFrom_mono {good : α → Bool} {cap lo lo' : Nat} {b : Buf α} (h : lo' ≤ lo)
    (hw : Buf.wfFrom good cap lo b = true) : Buf.wfFrom good cap lo' b = true := by
  cases b with
  | nil => rfl
  | cons e b =>
    simp only [Buf.wfFrom, Bool.and_eq_true, decide_eq_true_eq] at hw ⊢
    exact ⟨⟨⟨by omega, hw.1.1.2⟩, hw.1.2⟩, hw.2⟩

theorem Buf.wfFrom_skipTo {good : α → Bool} {cap lo : Nat} {b : Buf α} (i : Nat)
    (hw : Buf.wfFrom good cap lo b = true) : Buf.wfFrom good cap i (Buf.skipTo b i) = true := by
  induction b generalizing lo with
  | nil => rfl
  | cons e b ih =>
    simp only [Buf.wfFrom, Bool.and_eq_true, decide_eq_true_eq] at hw
    rw [Buf.skipTo_cons]
    split
    · exact ih hw.2
    · simp only [Buf.wfFrom, Bool.and_eq_true, decide_eq_true_eq]
      exact ⟨⟨⟨by omega, hw.1.1.2⟩, hw.1.2⟩, hw.2⟩

theorem Buf.wfFrom_run {good : α → Bool} {cap : Nat} (i : Nat) (vs : List α) (b : Buf α)
    (hcap : i + vs.length ≤ cap) (hvs : ∀ v ∈ vs, good v = true)
    (hb : Buf.wfFrom good cap (i + vs.length) b = true) :
    Buf.wfFrom good cap i ((vs.zipIdx i).map Prod.swap ++ b) = true := by
  induction vs generalizing i with
  | nil => simpa using hb
  | cons v vs ih =>
    rw [Buf.run_cons, List.cons_append]
    simp only [Buf.wfFrom, Bool.and_eq_true, decide_eq_true_eq]
    simp only [List.length_cons] at hcap hb
    refine ⟨⟨⟨le_refl i, by omega⟩, hvs v (by simp)⟩, ih (i + 1) (by omega) (fun w hw => hvs w (by simp [hw])) ?_⟩
    rwa [show i + 1 + vs.length = i + (vs.length + 1) by omega]

/-- Writing a run inside the capacity keeps the canonical form. -/
theorem Buf.wfFrom_writeRun {good : α → Bool} {cap lo : Nat} {b : Buf α} {i : Nat} {vs : List α}
    (hlo : lo ≤ i) (hw : Buf.wfFrom good cap lo b = true) (hcap : i + vs.length ≤ cap)
    (hvs : ∀ v ∈ vs, good v = true) : Buf.wfFrom good cap lo (Buf.writeRun b i vs) = true := by
  unfold Buf.writeRun
  rw [List.append_assoc]
  have htail := Buf.wfFrom_run i vs _ hcap hvs (Buf.wfFrom_skipTo (i + vs.length) hw)
  generalize (vs.zipIdx i).map Prod.swap ++ Buf.skipTo b (i + vs.length) = tail at htail
  induction b generalizing lo with
  | nil => exact Buf.wfFrom_mono hlo htail
  | cons e b ih =>
    rw [List.takeWhile_cons]
    split
    · next he =>
      simp only [decide_eq_true_eq] at he
      simp only [Buf.wfFrom, Bool.and_eq_true, decide_eq_true_eq] at hw
      simp only [List.cons_append, Buf.wfFrom, Bool.and_eq_true, decide_eq_true_eq]
      exact ⟨⟨⟨hw.1.1.1, hw.1.1.2⟩, hw.1.2⟩, ih (by omega) hw.2⟩
    · exact Buf.wfFrom_mono hlo htail

/-! ### Channels and lanes -/

@[simp] theorem Stereo.get_set_self (s : Stereo α) (c : Channel) (x : α) : (s.set c x).get c = x := by
  match c with
  | 0 => rfl
  | 1 => rfl

theorem Stereo.get_set (s : Stereo α) (c d : Channel) (x : α) :
    (s.set c x).get d = if d = c then x else s.get d := by
  match c, d with
  | 0, 0 => rfl
  | 0, 1 => rfl
  | 1, 0 => rfl
  | 1, 1 => rfl

@[simp] theorem Stereo.get_ofFn (f : Channel → α) (c : Channel) : (Stereo.ofFn f).get c = f c := by
  match c with
  | 0 => rfl
  | 1 => rfl

@[simp] theorem Lanes.get_set_self (s : Lanes α) (l : Lane) (x : α) : (s.set l x).get l = x := by
  match l with
  | 0 => rfl
  | 1 => rfl
  | 2 => rfl
  | 3 => rfl
  | 4 => rfl
  | 5 => rfl
  | 6 => rfl
  | 7 => rfl

theorem Lanes.get_set_ne (s : Lanes α) (l m : Lane) (x : α) (h : m ≠ l) : (s.set l x).get m = s.get m := by
  match l with
  | 0 => match m with
    | 0 => exact absurd rfl h
    | 1 | 2 | 3 | 4 | 5 | 6 | 7 => rfl
  | 1 => match m with
    | 1 => exact absurd rfl h
    | 0 | 2 | 3 | 4 | 5 | 6 | 7 => rfl
  | 2 => match m with
    | 2 => exact absurd rfl h
    | 0 | 1 | 3 | 4 | 5 | 6 | 7 => rfl
  | 3 => match m with
    | 3 => exact absurd rfl h
    | 0 | 1 | 2 | 4 | 5 | 6 | 7 => rfl
  | 4 => match m with
    | 4 => exact absurd rfl h
    | 0 | 1 | 2 | 3 | 5 | 6 | 7 => rfl
  | 5 => match m with
    | 5 => exact absurd rfl h
    | 0 | 1 | 2 | 3 | 4 | 6 | 7 => rfl
  | 6 => match m with
    | 6 => exact absurd rfl h
    | 0 | 1 | 2 | 3 | 4 | 5 | 7 => rfl
  | 7 => match m with
    | 7 => exact absurd rfl h
    | 0 | 1 | 2 | 3 | 4 | 5 | 6 => rfl

theorem Lanes.get_set (s : Lanes α) (l m : Lane) (x : α) :
    (s.set l x).get m = if m = l then x else s.get m := by
  split
  · next h => rw [h, Lanes.get_set_self]
  · next h => exact Lanes.get_set_ne s l m x h

@[simp] theorem Lanes.get_ofFn (f : Lane → α) (l : Lane) : (Lanes.ofFn f).get l = f l := by
  match l with
  | 0 | 1 | 2 | 3 | 4 | 5 | 6 | 7 => rfl

end Sys2Proof.Machine
end

