-- ==== Sys2Proof/Laws/State.lean ====
section
/-! SUPPORT. One lemma per field for each named update of the state, so that no proof unfolds an update. -/

namespace Sys2Proof.Machine

/-! ### STATUS -/

@[simp] theorem Status.completed_done (st : Status) : st.completed.done = true := rfl
@[simp] theorem Status.completed_err (st : Status) : st.completed.err = st.err := rfl
@[simp] theorem Status.completed_bit (st : Status) : st.completed.bit = st.bit := rfl
@[simp] theorem Status.completed_code (st : Status) : st.completed.code = st.code := rfl
@[simp] theorem Status.failed_done (st : Status) (e : ErrCode) : (st.failed e).done = false := rfl
@[simp] theorem Status.failed_err (st : Status) (e : ErrCode) : (st.failed e).err = true := rfl
@[simp] theorem Status.failed_bit (st : Status) (e : ErrCode) : (st.failed e).bit = st.bit := rfl
@[simp] theorem Status.failed_code (st : Status) (e : ErrCode) : (st.failed e).code = e.number := rfl
@[simp] theorem Status.cleared_done (st : Status) : st.cleared.done = false := rfl
@[simp] theorem Status.cleared_err (st : Status) : st.cleared.err = false := rfl
@[simp] theorem Status.cleared_bit (st : Status) : st.cleared.bit = st.bit := rfl
@[simp] theorem Status.cleared_code (st : Status) : st.cleared.code = 0 := rfl

/-! ### Completing a command -/

section
variable (s : State)

@[simp] theorem State.complete_cmd : s.complete.cmd = s.cmd := rfl
@[simp] theorem State.complete_status : s.complete.status = s.status.completed := rfl
@[simp] theorem State.complete_errInfo0 : s.complete.errInfo0 = s.errInfo0 := rfl
@[simp] theorem State.complete_errInfo1 : s.complete.errInfo1 = s.errInfo1 := rfl
@[simp] theorem State.complete_segStart : s.complete.segStart = s.segStart := rfl
@[simp] theorem State.complete_segSyms : s.complete.segSyms = s.segSyms := rfl
@[simp] theorem State.complete_symIdx : s.complete.symIdx = s.symIdx := rfl
@[simp] theorem State.complete_envSum : s.complete.envSum = s.envSum := rfl
@[simp] theorem State.complete_envZones : s.complete.envZones = s.envZones := rfl
@[simp] theorem State.complete_cfg : s.complete.cfg = s.cfg := rfl
@[simp] theorem State.complete_ainLen : s.complete.ainLen = s.ainLen := rfl
@[simp] theorem State.complete_bytesLen : s.complete.bytesLen = s.bytesLen := rfl
@[simp] theorem State.complete_laneLen : s.complete.laneLen = s.laneLen := rfl
@[simp] theorem State.complete_chLen : s.complete.chLen = s.chLen := rfl
@[simp] theorem State.complete_rxLen : s.complete.rxLen = s.rxLen := rfl
@[simp] theorem State.complete_aoutLen : s.complete.aoutLen = s.aoutLen := rfl
@[simp] theorem State.complete_mem : s.complete.mem = s.mem := rfl
@[simp] theorem State.complete_params : s.complete.params = s.params := rfl
@[simp] theorem State.complete_pending : s.complete.pending = s.pending := rfl
@[simp] theorem State.complete_replies : s.complete.replies = s.replies := rfl

/-! ### Error entry -/

variable (e : Err)

@[simp] theorem State.raise_cmd : (s.raise e).cmd = s.cmd := rfl
@[simp] theorem State.raise_status : (s.raise e).status = s.status.failed e.code := rfl
@[simp] theorem State.raise_errInfo0 : (s.raise e).errInfo0 = sat32 e.info0 := rfl
@[simp] theorem State.raise_errInfo1 : (s.raise e).errInfo1 = sat32 e.info1 := rfl
@[simp] theorem State.raise_segStart : (s.raise e).segStart = s.segStart := rfl
@[simp] theorem State.raise_segSyms : (s.raise e).segSyms = s.segSyms := rfl
@[simp] theorem State.raise_symIdx : (s.raise e).symIdx = s.symIdx := rfl
@[simp] theorem State.raise_envSum : (s.raise e).envSum = s.envSum := rfl
@[simp] theorem State.raise_envZones : (s.raise e).envZones = s.envZones := rfl
@[simp] theorem State.raise_cfg : (s.raise e).cfg = s.cfg := rfl
@[simp] theorem State.raise_ainLen : (s.raise e).ainLen = s.ainLen := rfl
@[simp] theorem State.raise_bytesLen : (s.raise e).bytesLen = s.bytesLen := rfl
@[simp] theorem State.raise_laneLen : (s.raise e).laneLen = s.laneLen := rfl
@[simp] theorem State.raise_chLen : (s.raise e).chLen = s.chLen := rfl
@[simp] theorem State.raise_rxLen : (s.raise e).rxLen = s.rxLen := rfl
@[simp] theorem State.raise_aoutLen : (s.raise e).aoutLen = s.aoutLen := rfl
@[simp] theorem State.raise_mem : (s.raise e).mem = s.mem := rfl
@[simp] theorem State.raise_params : (s.raise e).params = s.params := rfl
@[simp] theorem State.raise_pending : (s.raise e).pending = s.pending := rfl
@[simp] theorem State.raise_replies : (s.raise e).replies = s.replies := rfl

/-! ### Leaving the error state -/

@[simp] theorem State.clearError_cmd : s.clearError.cmd = s.cmd := rfl
@[simp] theorem State.clearError_status : s.clearError.status = s.status.cleared := rfl
@[simp] theorem State.clearError_errInfo0 : s.clearError.errInfo0 = 0 := rfl
@[simp] theorem State.clearError_errInfo1 : s.clearError.errInfo1 = 0 := rfl
@[simp] theorem State.clearError_segStart : s.clearError.segStart = s.segStart := rfl
@[simp] theorem State.clearError_segSyms : s.clearError.segSyms = s.segSyms := rfl
@[simp] theorem State.clearError_symIdx : s.clearError.symIdx = s.symIdx := rfl
@[simp] theorem State.clearError_envSum : s.clearError.envSum = s.envSum := rfl
@[simp] theorem State.clearError_envZones : s.clearError.envZones = s.envZones := rfl
@[simp] theorem State.clearError_cfg : s.clearError.cfg = s.cfg := rfl
@[simp] theorem State.clearError_ainLen : s.clearError.ainLen = s.ainLen := rfl
@[simp] theorem State.clearError_bytesLen : s.clearError.bytesLen = s.bytesLen := rfl
@[simp] theorem State.clearError_laneLen : s.clearError.laneLen = s.laneLen := rfl
@[simp] theorem State.clearError_chLen : s.clearError.chLen = s.chLen := rfl
@[simp] theorem State.clearError_rxLen : s.clearError.rxLen = s.rxLen := rfl
@[simp] theorem State.clearError_aoutLen : s.clearError.aoutLen = s.aoutLen := rfl
@[simp] theorem State.clearError_mem : s.clearError.mem = s.mem := rfl
@[simp] theorem State.clearError_params : s.clearError.params = s.params := rfl
@[simp] theorem State.clearError_pending : s.clearError.pending = s.pending := rfl
@[simp] theorem State.clearError_replies : s.clearError.replies = s.replies := rfl

/-! ### Platform reset -/

@[simp] theorem State.platformReset_params : s.platformReset.params = s.params := rfl
@[simp] theorem State.platformReset_pending : s.platformReset.pending = s.pending := rfl
@[simp] theorem State.platformReset_replies : s.platformReset.replies = s.replies := rfl
@[simp] theorem State.platformReset_mem : s.platformReset.mem = Memory.empty := rfl
@[simp] theorem State.platformReset_status : s.platformReset.status = State.reset.status := rfl
@[simp] theorem State.platformReset_cfg : s.platformReset.cfg = ConfigRegs.reset := rfl

end

/-! ### Memory: each write leaves the other spaces -/

section
variable (m : Memory) (c : Channel) (l : Lane) (i : Nat) (vs : List Sample) (ts : List Tone) (bs : List Byte)

@[simp] theorem Memory.writeAin_ain :
    (m.writeAin c i vs).ain = m.ain.set c (Buf.writeRun (m.ain.get c) i vs) := rfl
@[simp] theorem Memory.writeAin_aout : (m.writeAin c i vs).aout = m.aout := rfl
@[simp] theorem Memory.writeAin_ch : (m.writeAin c i vs).ch = m.ch := rfl
@[simp] theorem Memory.writeAin_tx : (m.writeAin c i vs).tx = m.tx := rfl
@[simp] theorem Memory.writeAin_rx : (m.writeAin c i vs).rx = m.rx := rfl
@[simp] theorem Memory.writeAin_bytes : (m.writeAin c i vs).bytes = m.bytes := rfl
@[simp] theorem Memory.writeAout_ain : (m.writeAout c i vs).ain = m.ain := rfl
@[simp] theorem Memory.writeAout_aout :
    (m.writeAout c i vs).aout = m.aout.set c (Buf.writeRun (m.aout.get c) i vs) := rfl
@[simp] theorem Memory.writeAout_ch : (m.writeAout c i vs).ch = m.ch := rfl
@[simp] theorem Memory.writeAout_tx : (m.writeAout c i vs).tx = m.tx := rfl
@[simp] theorem Memory.writeAout_rx : (m.writeAout c i vs).rx = m.rx := rfl
@[simp] theorem Memory.writeAout_bytes : (m.writeAout c i vs).bytes = m.bytes := rfl
@[simp] theorem Memory.writeCh_ain : (m.writeCh c i vs).ain = m.ain := rfl
@[simp] theorem Memory.writeCh_aout : (m.writeCh c i vs).aout = m.aout := rfl
@[simp] theorem Memory.writeCh_ch :
    (m.writeCh c i vs).ch = m.ch.set c (Buf.writeRun (m.ch.get c) i vs) := rfl
@[simp] theorem Memory.writeCh_tx : (m.writeCh c i vs).tx = m.tx := rfl
@[simp] theorem Memory.writeCh_rx : (m.writeCh c i vs).rx = m.rx := rfl
@[simp] theorem Memory.writeCh_bytes : (m.writeCh c i vs).bytes = m.bytes := rfl
@[simp] theorem Memory.writeTx_ain : (m.writeTx l i ts).ain = m.ain := rfl
@[simp] theorem Memory.writeTx_aout : (m.writeTx l i ts).aout = m.aout := rfl
@[simp] theorem Memory.writeTx_ch : (m.writeTx l i ts).ch = m.ch := rfl
@[simp] theorem Memory.writeTx_tx :
    (m.writeTx l i ts).tx = m.tx.set l (Buf.writeRun (m.tx.get l) i ts) := rfl
@[simp] theorem Memory.writeTx_rx : (m.writeTx l i ts).rx = m.rx := rfl
@[simp] theorem Memory.writeTx_bytes : (m.writeTx l i ts).bytes = m.bytes := rfl
@[simp] theorem Memory.writeRx_ain : (m.writeRx l i vs).ain = m.ain := rfl
@[simp] theorem Memory.writeRx_aout : (m.writeRx l i vs).aout = m.aout := rfl
@[simp] theorem Memory.writeRx_ch : (m.writeRx l i vs).ch = m.ch := rfl
@[simp] theorem Memory.writeRx_tx : (m.writeRx l i vs).tx = m.tx := rfl
@[simp] theorem Memory.writeRx_rx :
    (m.writeRx l i vs).rx = m.rx.set l (Buf.writeRun (m.rx.get l) i vs) := rfl
@[simp] theorem Memory.writeRx_bytes : (m.writeRx l i vs).bytes = m.bytes := rfl
@[simp] theorem Memory.writeBytes_ain : (m.writeBytes i bs).ain = m.ain := rfl
@[simp] theorem Memory.writeBytes_aout : (m.writeBytes i bs).aout = m.aout := rfl
@[simp] theorem Memory.writeBytes_ch : (m.writeBytes i bs).ch = m.ch := rfl
@[simp] theorem Memory.writeBytes_tx : (m.writeBytes i bs).tx = m.tx := rfl
@[simp] theorem Memory.writeBytes_rx : (m.writeBytes i bs).rx = m.rx := rfl
@[simp] theorem Memory.writeBytes_bytes : (m.writeBytes i bs).bytes = Buf.writeRun m.bytes i bs := rfl

end

end Sys2Proof.Machine
end

