-- ==== Sys2Proof/Laws/Ops.lean ====
section
/-! SUPPORT. What the shared operations can do: the checks, the reads and the two phases of a command. -/

namespace Sys2Proof.Machine

/-- A check and what follows it succeed together. -/
theorem bind_eq_ok {ε α β : Type} {x : Except ε α} {f : α → Except ε β} {b : β} :
    (x >>= f) = .ok b ↔ ∃ a, x = .ok a ∧ f a = .ok b := by
  cases x <;> simp [bind, Except.bind]

/-- An error comes from a check or from what follows it. -/
theorem bind_eq_error {ε α β : Type} {x : Except ε α} {f : α → Except ε β} {e : ε} :
    (x >>= f) = .error e ↔ x = .error e ∨ ∃ a, x = .ok a ∧ f a = .error e := by
  cases x <;> simp [bind, Except.bind]

@[simp] theorem pure_eq_ok {ε α : Type} {a b : α} : (pure a : Except ε α) = .ok b ↔ b = a := by
  simp [pure, Except.pure, eq_comm]

/-- After a check or a read that passed, the rest runs. -/
theorem bind_of_ok {ε α β : Type} {x : Except ε α} {f : α → Except ε β} {a : α} (h : x = .ok a) :
    (x >>= f) = f a := by
  rw [h]
  rfl

/-- After a check or a read that failed, nothing runs. -/
theorem bind_of_error {ε α β : Type} {x : Except ε α} {f : α → Except ε β} {e : ε} (h : x = .error e) :
    (x >>= f) = .error e := by
  rw [h]
  rfl

theorem exists_unit {p : Unit → Prop} : (∃ u, p u) ↔ p () := ⟨fun ⟨(), h⟩ => h, fun h => ⟨(), h⟩⟩

@[simp] theorem pure_ne_error {ε α : Type} {a : α} {e : ε} : (pure a : Except ε α) ≠ .error e := by
  simp [pure, Except.pure]

@[simp] theorem require_eq_ok {p : Bool} {e : Err} {u : Unit} : require p e = .ok u ↔ p = true := by
  cases p <;> simp [require]

@[simp] theorem require_eq_error {p : Bool} {e f : Err} : require p e = .error f ↔ p = false ∧ e = f := by
  cases p <;> simp [require]

@[simp] theorem requireWithin_eq_ok {v limit : Nat} {u : Unit} :
    requireWithin v limit = .ok u ↔ v ≤ limit := by
  simp [requireWithin]

@[simp] theorem requireWithin_eq_error {v limit : Nat} {e : Err} :
    requireWithin v limit = .error e ↔ limit < v ∧ e = ⟨.range, v, limit⟩ := by
  simp only [requireWithin, require_eq_error, decide_eq_false_iff_not, not_le]
  exact and_congr_right fun _ => eq_comm

theorem readElems_eq_ok {α : Type} {space : Space} {a : Nat} {b : Buf α} {i n : Nat} {vs : List α} :
    readElems space a b i n = .ok vs ↔ Buf.readRun b i n = .ok vs := by
  unfold readElems
  cases Buf.readRun b i n <;> simp

/-- What reading a run answers: every value, or `Uninit` at the first unwritten element. -/
theorem readElems_cases {α : Type} (space : Space) (a : Nat) (b : Buf α) (i n : Nat) :
    (∃ vs : List α, readElems space a b i n = .ok vs ∧ vs.length = n ∧
        ∀ j < n, Buf.get b (i + j) = vs[j]?) ∨
      (∃ j < n, readElems space a b i n = .error ⟨.uninit, space.id * 16 + a, i + j⟩ ∧
        Buf.get b (i + j) = none ∧ ∀ k < j, (Buf.get b (i + k)).isSome) := by
  unfold readElems
  rcases Buf.readRun_cases b i n with ⟨vs, h, hl, hv⟩ | ⟨j, hj, h, hn, hs⟩
  · exact .inl ⟨vs, by rw [h], hl, hv⟩
  · exact .inr ⟨j, hj, by rw [h], hn, hs⟩

/-- Reading a run whose first unwritten element is number j of it. -/
theorem readElems_of_first_unwritten {α : Type} {space : Space} {a : Nat} {b : Buf α} {i n j : Nat} (hj : j < n)
    (hn : ¬ (Buf.get b (i + j)).isSome) (hs : ∀ k < j, (Buf.get b (i + k)).isSome) :
    readElems space a b i n = .error ⟨.uninit, space.id * 16 + a, i + j⟩ := by
  rcases readElems_cases space a b i n with ⟨vs, -, hl, hv⟩ | ⟨m, hm, h, hm', hs'⟩
  · rw [hv j hj] at hn
    exact absurd hn (by simp [hl, hj])
  · have : m = j := by
      rcases Nat.lt_trichotomy m j with h' | h' | h'
      · simpa [hm'] using hs m h'
      · exact h'
      · exact absurd (hs' j h') hn
    rw [h, this]

/-- Everything a command can do. -/
theorem command_cases {s t : State} {body : State → Except Err State} (h : command s body = .next t) :
    (s.status.err = true ∧ t = s) ∨
      (s.status.err = false ∧
        ((∃ u, body s = .ok u ∧ t = u.complete) ∨ ∃ e, body s = .error e ∧ t = s.raise e)) := by
  unfold command at h
  split at h
  · next he => exact .inl ⟨he, by cases h; rfl⟩
  · next he =>
    refine .inr ⟨by simpa using he, ?_⟩
    split at h
    · next u hu => exact .inl ⟨u, hu, by cases h; rfl⟩
    · next e hu => exact .inr ⟨e, hu, by cases h; rfl⟩

/-- A command always answers a next state. -/
theorem command_answers (s : State) (body : State → Except Err State) : ∃ t, command s body = .next t := by
  unfold command
  split
  · exact ⟨_, rfl⟩
  · split
    · exact ⟨_, rfl⟩
    · exact ⟨_, rfl⟩

/-- A command outside the error state whose body succeeds completes. -/
theorem command_ok {s u : State} {body : State → Except Err State} (he : s.status.err = false)
    (h : body s = .ok u) : command s body = .next u.complete := by
  simp [command, he, h]

/-- A command outside the error state whose body fails raises that error. -/
theorem command_error {s : State} {e : Err} {body : State → Except Err State} (he : s.status.err = false)
    (h : body s = .error e) : command s body = .next (s.raise e) := by
  simp [command, he, h]

/-- A command in the error state is discarded. -/
theorem command_discarded {s : State} {body : State → Except Err State} (he : s.status.err = true) :
    command s body = .next s := by
  simp [command, he]

theorem sat32_toNat (v : Nat) : (sat32 v).toNat = min v u32Max := by
  simp only [sat32, BitVec.toNat_ofNat]
  exact Nat.mod_eq_of_lt (by unfold u32Max; omega)

theorem sat32_toNat_of_le {v : Nat} (h : v ≤ u32Max) : (sat32 v).toNat = v := by
  rw [sat32_toNat]
  omega

theorem toNat_le_u32Max (w : Word) : w.toNat ≤ u32Max := by
  have := w.isLt
  unfold u32Max
  omega

end Sys2Proof.Machine
end

