-- ==== Sys2Proof/Laws/Commands.lean ====
section
/-! SUPPORT. When the body of each command succeeds, and the state it then gives: one inversion lemma per
body. -/

namespace Sys2Proof.Machine

variable {s t : State}

@[simp] theorem requireSpp_eq_ok {u : Unit} : requireSpp s = .ok u ↔ s.cfg.spp ≠ 0 := by
  simp [requireSpp]

@[simp] theorem requireAmp_eq_ok {u : Unit} : requireAmp s = .ok u ↔ s.cfg.amp.toNat ≤ 32767 := by
  simp [requireAmp]

@[simp] theorem requireZone_eq_ok {u : Unit} : requireZone s = .ok u ↔ s.cfg.zone ≠ 0 := by
  simp [requireZone]

@[simp] theorem requireRate_eq_ok {u : Unit} : requireRate s = .ok u ↔ s.cfg.fs = s.cfg.refRate := by
  simp [requireRate]

@[simp] theorem requireLong_eq_ok {n : Nat} {u : Unit} : requireLong s n = .ok u ↔ s.minLen < n := by
  simp [requireLong]

@[simp] theorem requireOrder_eq_ok {u : Unit} :
    requireOrder s = .ok u ↔ 1 ≤ s.cfg.order.toNat ∧ s.cfg.order.toNat ≤ s.params.maxOrder := by
  simp [requireOrder]

theorem requireBandPass_eq_ok {k : Carrier} {u : Unit} :
    requireBandPass s k = .ok u ↔
      (1 ≤ s.cfg.order.toNat ∧ s.cfg.order.toNat ≤ s.params.maxOrder) ∧ 1 ≤ s.cfg.window.toNat ∧
        s.cfg.window.toNat < s.cfg.carrier k ∧
          2 * (s.cfg.carrier k + s.cfg.window.toNat) < s.cfg.fs.toNat := by
  simp [requireBandPass, bind_eq_ok]

theorem requireBandPasses_eq_ok {u : Unit} :
    requireBandPasses s = .ok u ↔ ∀ k, requireBandPass s k = .ok () := by
  simp only [requireBandPasses, bind_eq_ok]
  constructor
  · rintro ⟨⟨⟩, h0, ⟨⟩, h1, ⟨⟩, h2, h3⟩ k
    match k with
    | 0 => exact h0
    | 1 => exact h1
    | 2 => exact h2
    | 3 => exact h3
  · intro h
    exact ⟨(), h 0, (), h 1, (), h 2, h 3⟩

theorem requireBandStop_eq_ok {u : Unit} :
    requireBandStop s = .ok u ↔
      (1 ≤ s.cfg.order.toNat ∧ s.cfg.order.toNat ≤ s.params.maxOrder) ∧
        (1 ≤ s.cfg.stopLo.toNat ∧ s.cfg.stopLo.toNat < s.cfg.stopHi.toNat) ∧
          2 * s.cfg.stopHi.toNat < s.cfg.fs.toNat := by
  simp [requireBandStop, bind_eq_ok]

@[simp] theorem requireSegment_eq_ok {u : Unit} :
    requireSegment s = .ok u ↔
      s.ainLen.toNat ≤ s.params.maxFrames ∧ s.segFrom + s.segLen ≤ s.ainLen.toNat := by
  simp [requireSegment, bind_eq_ok]

@[simp] theorem readAin_eq_ok {c : Channel} {i n : Nat} {vs : List Sample} :
    s.readAin c i n = .ok vs ↔ Buf.readRun (s.mem.ain.get c) i n = .ok vs := readElems_eq_ok

@[simp] theorem readCh_eq_ok {c : Channel} {i n : Nat} {vs : List Sample} :
    s.readCh c i n = .ok vs ↔ Buf.readRun (s.mem.ch.get c) i n = .ok vs := readElems_eq_ok

@[simp] theorem readTx_eq_ok {l : Lane} {i n : Nat} {vs : List Tone} :
    s.readTx l i n = .ok vs ↔ Buf.readRun (s.mem.tx.get l) i n = .ok vs := readElems_eq_ok

@[simp] theorem readRx_eq_ok {l : Lane} {i n : Nat} {vs : List Sample} :
    s.readRx l i n = .ok vs ↔ Buf.readRun (s.mem.rx.get l) i n = .ok vs := readElems_eq_ok

@[simp] theorem readBytes_eq_ok {i n : Nat} {vs : List Byte} :
    s.readBytes i n = .ok vs ↔ Buf.readRun s.mem.bytes i n = .ok vs := readElems_eq_ok

theorem synthBody_eq_ok {c : Channel} {k : Carrier} {b : Bool} :
    synthBody c k b s = .ok t ↔
      s.cfg.spp ≠ 0 ∧ s.cfg.amp.toNat ≤ 32767 ∧
        (s.symIdx.toNat + 1) * s.cfg.spp ≤ s.params.maxFrames ∧
        t = { s with
              mem := s.mem.writeTx (laneOf c k) (s.symIdx.toNat * s.cfg.spp) (s.pulse b k)
              laneLen := sat32 (max s.laneLen.toNat ((s.symIdx.toNat + 1) * s.cfg.spp)) } := by
  simp only [synthBody, bind_eq_ok, exists_unit, requireSpp_eq_ok, requireAmp_eq_ok, requireWithin_eq_ok, pure_eq_ok]

theorem modBody_eq_ok :
    modBody s = .ok t ↔
      s.cfg.spp ≠ 0 ∧ s.cfg.amp.toNat ≤ 32767 ∧ s.bytesLen.toNat ≤ s.params.maxBytes ∧
        s.bytesLen.toNat * s.cfg.spp ≤ s.params.maxFrames ∧
        ∃ bytes, Buf.readRun s.mem.bytes 0 s.bytesLen.toNat = .ok bytes ∧
          t = { s with
                mem := s.mem.writeTxLanes (laneStream s bytes)
                laneLen := sat32 (s.bytesLen.toNat * s.cfg.spp) } := by
  simp only [modBody, bind_eq_ok, exists_unit, requireSpp_eq_ok, requireAmp_eq_ok, requireWithin_eq_ok, readBytes_eq_ok, pure_eq_ok]

theorem bpfBody_eq_ok {c : Channel} {k : Carrier} :
    bpfBody c k s = .ok t ↔
      s.cfg.spp ≠ 0 ∧ requireBandPass s k = .ok () ∧ s.cfg.fs = s.cfg.refRate ∧
        (s.ainLen.toNat ≤ s.params.maxFrames ∧ s.segFrom + s.segLen ≤ s.ainLen.toNat) ∧
        s.minLen < s.segLen ∧
        ∃ x, Buf.readRun (s.mem.ain.get c) s.segFrom s.segLen = .ok x ∧
          t = { s with
                mem := s.mem.writeRx (laneOf c k) 0 (bandPass s k x)
                rxLen := sat32 s.segLen } := by
  simp only [bpfBody, bind_eq_ok, exists_unit, requireSpp_eq_ok, requireRate_eq_ok,
    requireLong_eq_ok, requireSegment_eq_ok, readAin_eq_ok, pure_eq_ok]

theorem bsfBody_eq_ok {c : Channel} :
    bsfBody c s = .ok t ↔
      s.cfg.fs ≠ 0 ∧ requireBandStop s = .ok () ∧ s.chLen.toNat ≤ s.params.maxFrames ∧
        s.minLen < s.chLen.toNat ∧
        ∃ x, Buf.readRun (s.mem.ch.get c) 0 s.chLen.toNat = .ok x ∧
          t = { s with mem := s.mem.writeCh c 0 (bandStop s x) } := by
  simp only [bsfBody, require_eq_ok, decide_eq_true_eq, bind_eq_ok, exists_unit, requireLong_eq_ok, requireWithin_eq_ok, readCh_eq_ok, pure_eq_ok]

theorem xlanesBody_eq_ok :
    xlanesBody s = .ok t ↔
      s.cfg.spp ≠ 0 ∧ requireBandPasses s = .ok () ∧ s.cfg.fs = s.cfg.refRate ∧
        (s.ainLen.toNat ≤ s.params.maxFrames ∧ s.segFrom + s.segLen ≤ s.ainLen.toNat) ∧
        s.minLen < s.segLen ∧
        ∃ x0, Buf.readRun (s.mem.ain.get 0) s.segFrom s.segLen = .ok x0 ∧
          ∃ x1, Buf.readRun (s.mem.ain.get 1) s.segFrom s.segLen = .ok x1 ∧
            t = { s with
                  mem := s.mem.writeRxLanes (fun l =>
                    bandPass s (carrierOf l) (if channelOf l = 0 then x0 else x1))
                  rxLen := sat32 s.segLen } := by
  simp only [xlanesBody, bind_eq_ok, exists_unit, requireSpp_eq_ok, requireRate_eq_ok,
    requireLong_eq_ok, requireSegment_eq_ok, readAin_eq_ok, pure_eq_ok]

theorem demuxBody_eq_ok :
    demuxBody s = .ok t ↔
      s.ainLen.toNat ≤ s.params.maxFrames ∧
        ∃ v0, Buf.readRun (s.mem.ain.get 0) 0 s.ainLen.toNat = .ok v0 ∧
          ∃ v1, Buf.readRun (s.mem.ain.get 1) 0 s.ainLen.toNat = .ok v1 ∧
            t = { s with mem := (s.mem.writeCh 0 0 v0).writeCh 1 0 v1, chLen := s.ainLen } := by
  simp only [demuxBody, bind_eq_ok, exists_unit, requireWithin_eq_ok, readAin_eq_ok, pure_eq_ok]

theorem ovlBody_eq_ok {c : Channel} :
    ovlBody c s = .ok t ↔
      s.chLen.toNat ≤ s.params.maxFrames ∧ s.laneLen.toNat ≤ s.chLen.toNat ∧
        ∃ x, Buf.readRun (s.mem.ch.get c) 0 s.laneLen.toNat = .ok x ∧
        ∃ t0, Buf.readRun (s.mem.tx.get (laneOf c 0)) 0 s.laneLen.toNat = .ok t0 ∧
        ∃ t1, Buf.readRun (s.mem.tx.get (laneOf c 1)) 0 s.laneLen.toNat = .ok t1 ∧
        ∃ t2, Buf.readRun (s.mem.tx.get (laneOf c 2)) 0 s.laneLen.toNat = .ok t2 ∧
        ∃ t3, Buf.readRun (s.mem.tx.get (laneOf c 3)) 0 s.laneLen.toNat = .ok t3 ∧
          t = { s with mem := s.mem.writeCh c 0 (mixRun x t0 t1 t2 t3) } := by
  simp only [ovlBody, bind_eq_ok, exists_unit, requireWithin_eq_ok, readCh_eq_ok, readTx_eq_ok,
    pure_eq_ok]

theorem muxBody_eq_ok :
    muxBody s = .ok t ↔
      s.chLen.toNat ≤ s.params.maxFrames ∧
        ∃ v0, Buf.readRun (s.mem.ch.get 0) 0 s.chLen.toNat = .ok v0 ∧
          ∃ v1, Buf.readRun (s.mem.ch.get 1) 0 s.chLen.toNat = .ok v1 ∧
            t = { s with mem := (s.mem.writeAout 0 0 v0).writeAout 1 0 v1, aoutLen := s.chLen } := by
  simp only [muxBody, bind_eq_ok, exists_unit, requireWithin_eq_ok, readCh_eq_ok, pure_eq_ok]

theorem embedBody_eq_ok :
    embedBody s = .ok t ↔
      embedChecks s = .ok () ∧ ∃ s1, modBody s = .ok s1 ∧ ∃ s2, demuxBody s1 = .ok s2 ∧
        ∃ s3, bsfBody 0 s2 = .ok s3 ∧ ∃ s4, bsfBody 1 s3 = .ok s4 ∧ ∃ s5, ovlBody 0 s4 = .ok s5 ∧
          ∃ s6, ovlBody 1 s5 = .ok s6 ∧ muxBody s6 = .ok t := by
  simp only [embedBody, embedSteps, bind_eq_ok, exists_unit]

theorem decideBody_eq_ok {c : Channel} {k : Carrier} :
    decideBody c k s = .ok t ↔
      s.cfg.spp ≠ 0 ∧ s.cfg.zone ≠ 0 ∧ s.cfg.fs = s.cfg.refRate ∧
        s.rxLen.toNat ≤ s.params.maxFrames ∧ (s.symIdx.toNat + 1) * s.cfg.spp ≤ s.rxLen.toNat ∧
        ∃ seg, Buf.readRun (s.mem.rx.get (laneOf c k)) (s.symIdx.toNat * s.cfg.spp) s.cfg.spp = .ok seg ∧
          t = { s with
                status := { s.status with bit := (envelope s.cfg seg).bit }
                envSum := sat32 (envelope s.cfg seg).sum
                envZones := sat32 (envelope s.cfg seg).zones } := by
  simp only [decideBody, bind_eq_ok, exists_unit, requireSpp_eq_ok, requireZone_eq_ok, requireRate_eq_ok,
    requireWithin_eq_ok, readRx_eq_ok, pure_eq_ok]

theorem readRxLanes_eq_ok {n : Nat} {lanes : Lanes (List Sample)} :
    readRxLanes s n = .ok lanes ↔ ∀ l, Buf.readRun (s.mem.rx.get l) 0 n = .ok (lanes.get l) := by
  simp only [readRxLanes, bind_eq_ok, readRx_eq_ok, pure_eq_ok]
  constructor
  · rintro ⟨l0, h0, l1, h1, l2, h2, l3, h3, l4, h4, l5, h5, l6, h6, l7, h7, rfl⟩ l
    match l with
    | 0 => exact h0
    | 1 => exact h1
    | 2 => exact h2
    | 3 => exact h3
    | 4 => exact h4
    | 5 => exact h5
    | 6 => exact h6
    | 7 => exact h7
  · intro h
    exact ⟨_, h 0, _, h 1, _, h 2, _, h 3, _, h 4, _, h 5, _, h 6, _, h 7, rfl⟩

theorem decodeBody_eq_ok :
    decodeBody s = .ok t ↔
      s.cfg.spp ≠ 0 ∧ s.cfg.zone ≠ 0 ∧ s.cfg.fs = s.cfg.refRate ∧
        s.rxLen.toNat ≤ s.params.maxFrames ∧ s.rxLen.toNat / s.cfg.spp ≤ s.params.maxBytes ∧
        ∃ lanes, readRxLanes s (s.rxLen.toNat / s.cfg.spp * s.cfg.spp) = .ok lanes ∧
          t = { s with
                mem := s.mem.writeBytes 0 (decodeSymbols s.cfg lanes (s.rxLen.toNat / s.cfg.spp))
                bytesLen := sat32 (s.rxLen.toNat / s.cfg.spp) } := by
  simp only [decodeBody, bind_eq_ok, exists_unit, requireSpp_eq_ok, requireZone_eq_ok, requireRate_eq_ok,
    requireWithin_eq_ok, pure_eq_ok]

theorem demodBody_eq_ok :
    demodBody s = .ok t ↔ demodChecks s = .ok () ∧ ∃ u, xlanesBody s = .ok u ∧ decodeBody u = .ok t := by
  simp only [demodBody, bind_eq_ok, exists_unit]

end Sys2Proof.Machine
end

