-- ==== Sys2Proof/Laws/Memory.lean ====
section
/-! SUPPORT. Memory as a whole: every memory operation keeps its canonical form, and what an element reads as
after each operation. -/

namespace Sys2Proof.Machine

variable {p : Params} {m : Memory}

/-! ### The canonical form -/

/-- The canonical form, array by array. -/
theorem Memory.wf_iff : Memory.wf p m = true ↔
    (∀ c, Buf.wfFrom (fun _ => true) p.maxFrames 0 (m.ain.get c) = true) ∧
    (∀ c, Buf.wfFrom (fun _ => true) p.maxFrames 0 (m.aout.get c) = true) ∧
    (∀ c, Buf.wfFrom (fun _ => true) p.maxFrames 0 (m.ch.get c) = true) ∧
    (∀ l, Buf.wfFrom Tone.wf p.maxFrames 0 (m.tx.get l) = true) ∧
    (∀ l, Buf.wfFrom (fun _ => true) p.maxFrames 0 (m.rx.get l) = true) ∧
    Buf.wfFrom (fun _ => true) p.maxBytes 0 m.bytes = true := by
  simp only [Memory.wf, Bool.and_eq_true, List.all_cons, List.all_nil, Bool.and_true,
    Fin.forall_fin_succ, IsEmpty.forall_iff, and_true]
  constructor
  · rintro ⟨⟨⟨⟨⟨h1, h2⟩, h3⟩, h4⟩, h5⟩, h6⟩
    exact ⟨h1, h2, h3, h4, h5, h6⟩
  · rintro ⟨h1, h2, h3, h4, h5, h6⟩
    exact ⟨⟨⟨⟨⟨h1, h2⟩, h3⟩, h4⟩, h5⟩, h6⟩

/-- Memory with every valid bit 0 is canonical on every platform. -/
theorem Memory.wf_empty (p : Params) : Memory.wf p Memory.empty = true := by
  simp [Memory.wf, Memory.empty, Buf.wfFrom]

/-- The memory of the state after reset is canonical. -/
theorem Memory.wf_reset : Memory.wf State.reset.params State.reset.mem = true := Memory.wf_empty _

/-- Writing an array of one channel inside the capacity keeps every channel's array canonical. -/
theorem Stereo.wf_set {good : Sample → Bool} {cap : Nat} {x : Stereo (Buf Sample)} {c : Channel} {i : Nat}
    {vs : List Sample} (hw : ∀ d, Buf.wfFrom good cap 0 (x.get d) = true) (hcap : i + vs.length ≤ cap)
    (hvs : ∀ v ∈ vs, good v = true) (d : Channel) :
    Buf.wfFrom good cap 0 ((x.set c (Buf.writeRun (x.get c) i vs)).get d) = true := by
  rw [Stereo.get_set]
  split
  · exact Buf.wfFrom_writeRun (Nat.zero_le i) (hw c) hcap hvs
  · exact hw d

/-- Writing an array of one lane inside the capacity keeps every lane's array canonical. -/
theorem Lanes.wf_set {α : Type} {good : α → Bool} {cap : Nat} {x : Lanes (Buf α)} {l : Lane} {i : Nat}
    {vs : List α} (hw : ∀ k, Buf.wfFrom good cap 0 (x.get k) = true) (hcap : i + vs.length ≤ cap)
    (hvs : ∀ v ∈ vs, good v = true) (k : Lane) :
    Buf.wfFrom good cap 0 ((x.set l (Buf.writeRun (x.get l) i vs)).get k) = true := by
  rw [Lanes.get_set]
  split
  · exact Buf.wfFrom_writeRun (Nat.zero_le i) (hw l) hcap hvs
  · exact hw k

theorem Memory.wf_writeAin {c : Channel} {i : Nat} {vs : List Sample} (hw : Memory.wf p m = true)
    (hcap : i + vs.length ≤ p.maxFrames) : Memory.wf p (m.writeAin c i vs) = true := by
  rw [Memory.wf_iff] at hw ⊢
  exact ⟨Stereo.wf_set hw.1 hcap (fun _ _ => rfl), hw.2⟩

theorem Memory.wf_writeAout {c : Channel} {i : Nat} {vs : List Sample} (hw : Memory.wf p m = true)
    (hcap : i + vs.length ≤ p.maxFrames) : Memory.wf p (m.writeAout c i vs) = true := by
  rw [Memory.wf_iff] at hw ⊢
  exact ⟨hw.1, Stereo.wf_set hw.2.1 hcap (fun _ _ => rfl), hw.2.2⟩

theorem Memory.wf_writeCh {c : Channel} {i : Nat} {vs : List Sample} (hw : Memory.wf p m = true)
    (hcap : i + vs.length ≤ p.maxFrames) : Memory.wf p (m.writeCh c i vs) = true := by
  rw [Memory.wf_iff] at hw ⊢
  exact ⟨hw.1, hw.2.1, Stereo.wf_set hw.2.2.1 hcap (fun _ _ => rfl), hw.2.2.2⟩

theorem Memory.wf_writeTx {l : Lane} {i : Nat} {vs : List Tone} (hw : Memory.wf p m = true)
    (hcap : i + vs.length ≤ p.maxFrames) (hvs : ∀ v ∈ vs, v.wf = true) :
    Memory.wf p (m.writeTx l i vs) = true := by
  rw [Memory.wf_iff] at hw ⊢
  exact ⟨hw.1, hw.2.1, hw.2.2.1, Lanes.wf_set hw.2.2.2.1 hcap hvs, hw.2.2.2.2⟩

theorem Memory.wf_writeRx {l : Lane} {i : Nat} {vs : List Sample} (hw : Memory.wf p m = true)
    (hcap : i + vs.length ≤ p.maxFrames) : Memory.wf p (m.writeRx l i vs) = true := by
  rw [Memory.wf_iff] at hw ⊢
  exact ⟨hw.1, hw.2.1, hw.2.2.1, hw.2.2.2.1, Lanes.wf_set hw.2.2.2.2.1 hcap (fun _ _ => rfl), hw.2.2.2.2.2⟩

theorem Memory.wf_writeBytes {i : Nat} {vs : List Byte} (hw : Memory.wf p m = true)
    (hcap : i + vs.length ≤ p.maxBytes) : Memory.wf p (m.writeBytes i vs) = true := by
  rw [Memory.wf_iff] at hw ⊢
  exact ⟨hw.1, hw.2.1, hw.2.2.1, hw.2.2.2.1, hw.2.2.2.2.1,
    Buf.wfFrom_writeRun (Nat.zero_le i) hw.2.2.2.2.2 hcap (fun _ _ => rfl)⟩

theorem Memory.wf_writeTxLanes {run : Lane → List Tone} (hw : Memory.wf p m = true)
    (hcap : ∀ l, (run l).length ≤ p.maxFrames) (hvs : ∀ l, ∀ v ∈ run l, v.wf = true) :
    Memory.wf p (m.writeTxLanes run) = true := by
  rw [Memory.wf_iff] at hw ⊢
  refine ⟨hw.1, hw.2.1, hw.2.2.1, fun l => ?_, hw.2.2.2.2⟩
  simp only [Memory.writeTxLanes, Lanes.get_ofFn]
  exact Buf.wfFrom_writeRun (Nat.zero_le 0) (hw.2.2.2.1 l) (by simpa using hcap l) (hvs l)

theorem Memory.wf_writeRxLanes {run : Lane → List Sample} (hw : Memory.wf p m = true)
    (hcap : ∀ l, (run l).length ≤ p.maxFrames) : Memory.wf p (m.writeRxLanes run) = true := by
  rw [Memory.wf_iff] at hw ⊢
  refine ⟨hw.1, hw.2.1, hw.2.2.1, hw.2.2.2.1, fun l => ?_, hw.2.2.2.2.2⟩
  simp only [Memory.writeRxLanes, Lanes.get_ofFn]
  exact Buf.wfFrom_writeRun (Nat.zero_le 0) (hw.2.2.2.2.1 l) (by simpa using hcap l) (fun _ _ => rfl)

/-- A host write of one element inside the capacity keeps the canonical form. -/
theorem Memory.wf_hostWrite {space : Space} {a i : Nat} {v : Int} (hw : Memory.wf p m = true)
    (hi : i < space.capacity p) : Memory.wf p (m.hostWrite space a i v) = true := by
  cases space <;> simp only [Memory.hostWrite, Space.capacity] at hi ⊢
  case ain =>
    split
    · exact Memory.wf_writeAin hw (by simpa using hi)
    · exact hw
  case rx =>
    split
    · exact Memory.wf_writeRx hw (by simpa using hi)
    · exact hw
  case bytes => exact Memory.wf_writeBytes hw (by simpa using hi)
  all_goals exact hw

/-! ### Elements -/

theorem Stereo.element_of_lt {x : Stereo (Buf Sample)} {a : Nat} (h : a < 2) (i : Nat) :
    x.element a i = (Buf.get (x.get ⟨a, h⟩) i).map .sample := by
  simp [Stereo.element, h]

/-- An element of AIN, in the array of its channel. -/
theorem Memory.element_ain {c : Channel} {i : Nat} :
    m.element .ain c i = (Buf.get (m.ain.get c) i).map .sample := by
  simp [Memory.element, Stereo.element, c.isLt]

theorem Memory.element_aout {c : Channel} {i : Nat} :
    m.element .aout c i = (Buf.get (m.aout.get c) i).map .sample := by
  simp [Memory.element, Stereo.element, c.isLt]

theorem Memory.element_ch {c : Channel} {i : Nat} :
    m.element .ch c i = (Buf.get (m.ch.get c) i).map .sample := by
  simp [Memory.element, Stereo.element, c.isLt]

theorem Memory.element_tx {l : Lane} {i : Nat} :
    m.element .tx l i = (Buf.get (m.tx.get l) i).map .tone := by
  simp [Memory.element]

theorem Memory.element_rx {l : Lane} {i : Nat} :
    m.element .rx l i = (Buf.get (m.rx.get l) i).map .sample := by
  simp [Memory.element]

theorem Memory.element_bytes {i : Nat} : m.element .bytes 0 i = (Buf.get m.bytes i).map .byte := by
  simp [Memory.element]

/-- No element is written after reset. -/
@[simp] theorem Memory.element_empty (space : Space) (a i : Nat) :
    Memory.empty.element space a i = none := by
  cases space <;> simp only [Memory.element, Stereo.element, Memory.empty]
  case tx =>
    split
    · next h => interval_cases a <;> rfl
    · rfl
  case rx =>
    split
    · next h => interval_cases a <;> rfl
    · rfl
  case bytes => simp
  all_goals
    split
    · next h => interval_cases a <;> rfl
    · rfl

/-- What every element reads as after a host write of one element. -/
theorem Memory.element_hostWrite {space : Space} {a i : Nat} {v : Int} (hs : space.hostWritable = true)
    (ha : a < space.arrays) (space' : Space) (a' i' : Nat) :
    (m.hostWrite space a i v).element space' a' i' =
      if space' = space ∧ a' = a ∧ i' = i then
        some (if space = .bytes then .byte (BitVec.ofInt 8 v) else .sample (BitVec.ofInt 16 v))
      else m.element space' a' i' := by
  have one : ∀ {α : Type} (b : Buf α) (x : α), Buf.get (Buf.writeRun b i [x]) i' =
      if i' = i then some x else Buf.get b i' := by
    intro α b x
    rw [Buf.get_writeRun]
    by_cases h : i' = i
    · subst h; simp
    · rw [if_neg (by simp; omega), if_neg h]
  cases space <;> simp only [Space.hostWritable, Bool.false_eq_true, Space.arrays] at hs ha
  case ain =>
    simp only [Memory.hostWrite, ha, dif_pos]
    cases space' <;> simp only [Memory.element, Memory.writeAin_ain, Memory.writeAin_aout, Memory.writeAin_ch,
      Memory.writeAin_tx, Memory.writeAin_rx, Memory.writeAin_bytes, reduceCtorEq, false_and, if_false, true_and,
      Stereo.element]
    by_cases h : a' < 2
    · simp only [h, dif_pos, Stereo.get_set, Fin.mk.injEq]
      by_cases e : a' = a
      · subst e
        simp only [if_true, one, true_and]
        split <;> rfl
      · simp [e]
    · simp only [h, dif_neg, not_false_eq_true]
      rw [if_neg (by omega)]
  case rx =>
    simp only [Memory.hostWrite, ha, dif_pos]
    cases space' <;> simp only [Memory.element, Memory.writeRx_ain, Memory.writeRx_aout, Memory.writeRx_ch,
      Memory.writeRx_tx, Memory.writeRx_rx, Memory.writeRx_bytes, reduceCtorEq, false_and, if_false, true_and]
    by_cases h : a' < 8
    · simp only [h, dif_pos, Lanes.get_set, Fin.mk.injEq]
      by_cases e : a' = a
      · subst e
        simp only [if_true, one, true_and]
        split <;> rfl
      · simp [e]
    · simp only [h, dif_neg, not_false_eq_true]
      rw [if_neg (by omega)]
  case bytes =>
    have ha0 : a = 0 := by omega
    subst ha0
    simp only [Memory.hostWrite]
    cases space' <;> simp only [Memory.element, Memory.writeBytes_ain, Memory.writeBytes_aout,
      Memory.writeBytes_ch, Memory.writeBytes_tx, Memory.writeBytes_rx, Memory.writeBytes_bytes, reduceCtorEq,
      false_and, if_false, true_and]
    by_cases h : a' = 0
    · simp only [h, if_true, one, true_and]
      split <;> rfl
    · simp [h]

end Sys2Proof.Machine
end

