-- ==== Sys2Proof/Laws/Checks.lean ====
section
/-! SUPPORT. The conditions of Safety.lean in terms of the model's own checks and reads. -/

namespace Sys2Proof.Machine

variable {s : State}

/-! ### Checks -/

theorem requireOrder_eq_ok_iff : requireOrder s = .ok () ↔ s.orderOk := requireOrder_eq_ok

theorem requireBandPass_eq_ok_iff {k : Carrier} : requireBandPass s k = .ok () ↔ s.bandPassOk k :=
  requireBandPass_eq_ok

theorem requireBandPasses_eq_ok_iff : requireBandPasses s = .ok () ↔ ∀ k, s.bandPassOk k := by
  simp only [requireBandPasses_eq_ok, requireBandPass_eq_ok_iff]

theorem requireBandStop_eq_ok_iff : requireBandStop s = .ok () ↔ s.bandStopOk := by
  rw [requireBandStop_eq_ok]
  unfold State.bandStopOk State.orderOk
  tauto

/-! ### Written elements -/

theorem written_ain_iff {c : Channel} {i n : Nat} :
    s.written .ain c i n ↔ ∀ j < n, (Buf.get (s.mem.ain.get c) (i + j)).isSome := by
  simp [State.written, State.valid, Memory.element_ain]

theorem written_aout_iff {c : Channel} {i n : Nat} :
    s.written .aout c i n ↔ ∀ j < n, (Buf.get (s.mem.aout.get c) (i + j)).isSome := by
  simp [State.written, State.valid, Memory.element_aout]

theorem written_ch_iff {c : Channel} {i n : Nat} :
    s.written .ch c i n ↔ ∀ j < n, (Buf.get (s.mem.ch.get c) (i + j)).isSome := by
  simp [State.written, State.valid, Memory.element_ch]

theorem written_tx_iff {l : Lane} {i n : Nat} :
    s.written .tx l i n ↔ ∀ j < n, (Buf.get (s.mem.tx.get l) (i + j)).isSome := by
  simp [State.written, State.valid, Memory.element_tx]

theorem written_rx_iff {l : Lane} {i n : Nat} :
    s.written .rx l i n ↔ ∀ j < n, (Buf.get (s.mem.rx.get l) (i + j)).isSome := by
  simp [State.written, State.valid, Memory.element_rx]

theorem written_bytes_iff {i n : Nat} :
    s.written .bytes 0 i n ↔ ∀ j < n, (Buf.get s.mem.bytes (i + j)).isSome := by
  simp [State.written, State.valid, Memory.element_bytes]

/-! ### Reads of written and of unwritten runs -/

theorem readAin_of_written {c : Channel} {i n : Nat} (h : s.written .ain c i n) :
    ∃ vs, s.readAin c i n = .ok vs := by
  obtain ⟨vs, hv, -⟩ := Buf.readRun_ok _ i n (written_ain_iff.mp h)
  exact ⟨vs, readElems_eq_ok.mpr hv⟩

theorem readAin_of_firstUnwritten {c : Channel} {i n j : Nat} (h : s.firstUnwritten .ain c i n j) :
    s.readAin c i n = .error ⟨.uninit, 0x10 + c.val, i + j⟩ :=
  readElems_of_first_unwritten h.1 (by simpa [State.valid, Memory.element_ain] using h.2.1)
    (written_ain_iff.mp h.2.2)

theorem readCh_of_written {c : Channel} {i n : Nat} (h : s.written .ch c i n) :
    ∃ vs, s.readCh c i n = .ok vs := by
  obtain ⟨vs, hv, -⟩ := Buf.readRun_ok _ i n (written_ch_iff.mp h)
  exact ⟨vs, readElems_eq_ok.mpr hv⟩

theorem readCh_of_firstUnwritten {c : Channel} {i n j : Nat} (h : s.firstUnwritten .ch c i n j) :
    s.readCh c i n = .error ⟨.uninit, 0x30 + c.val, i + j⟩ :=
  readElems_of_first_unwritten h.1 (by simpa [State.valid, Memory.element_ch] using h.2.1)
    (written_ch_iff.mp h.2.2)

theorem readTx_of_written {l : Lane} {i n : Nat} (h : s.written .tx l i n) :
    ∃ vs, s.readTx l i n = .ok vs := by
  obtain ⟨vs, hv, -⟩ := Buf.readRun_ok _ i n (written_tx_iff.mp h)
  exact ⟨vs, readElems_eq_ok.mpr hv⟩

theorem readTx_of_firstUnwritten {l : Lane} {i n j : Nat} (h : s.firstUnwritten .tx l i n j) :
    s.readTx l i n = .error ⟨.uninit, 0x40 + l.val, i + j⟩ :=
  readElems_of_first_unwritten h.1 (by simpa [State.valid, Memory.element_tx] using h.2.1)
    (written_tx_iff.mp h.2.2)

theorem readRx_of_written {l : Lane} {i n : Nat} (h : s.written .rx l i n) :
    ∃ vs, s.readRx l i n = .ok vs := by
  obtain ⟨vs, hv, -⟩ := Buf.readRun_ok _ i n (written_rx_iff.mp h)
  exact ⟨vs, readElems_eq_ok.mpr hv⟩

theorem readRx_of_firstUnwritten {l : Lane} {i n j : Nat} (h : s.firstUnwritten .rx l i n j) :
    s.readRx l i n = .error ⟨.uninit, 0x50 + l.val, i + j⟩ :=
  readElems_of_first_unwritten h.1 (by simpa [State.valid, Memory.element_rx] using h.2.1)
    (written_rx_iff.mp h.2.2)

theorem readBytes_of_written {i n : Nat} (h : s.written .bytes 0 i n) :
    ∃ vs, s.readBytes i n = .ok vs := by
  obtain ⟨vs, hv, -⟩ := Buf.readRun_ok _ i n (written_bytes_iff.mp h)
  exact ⟨vs, readElems_eq_ok.mpr hv⟩

theorem readBytes_of_firstUnwritten {i n j : Nat} (h : s.firstUnwritten .bytes 0 i n j) :
    s.readBytes i n = .error ⟨.uninit, 0x60, i + j⟩ :=
  readElems_of_first_unwritten h.1 (by simpa [State.valid, Memory.element_bytes] using h.2.1)
    (written_bytes_iff.mp h.2.2)

/-! ### Saturation -/

/-- A number that fits a register is the register's value unsaturated. -/
theorem sat32_eq_ofNat {v : Nat} {w : Word} (h : v ≤ w.toNat) : sat32 v = BitVec.ofNat 32 v := by
  rw [sat32, Nat.min_eq_left (le_trans h (toNat_le_u32Max w))]

@[simp] theorem sat32_toNat_self (w : Word) : sat32 w.toNat = w := by
  rw [sat32_eq_ofNat (le_refl _)]
  simp

end Sys2Proof.Machine
end

