-- ==== Sys2Proof/Laws/Dispatch.lean ====
section
/-! SUPPORT. What executing any command can do: the four outcomes, and the registers no body touches. -/

namespace Sys2Proof.Machine

/-- The check and write phases of each command; CLR, which has no checks, is not run through it. -/
def bodyOf : Instr → State → Except Err State
  | .nop | .clr => fun s => .ok s
  | .synth c k b => synthBody c k b
  | .mod => modBody
  | .bpf c k => bpfBody c k
  | .bsf c => bsfBody c
  | .xlanes => xlanesBody
  | .demux => demuxBody
  | .ovl c => ovlBody c
  | .mux => muxBody
  | .embed => embedBody
  | .decide c k => decideBody c k
  | .decode => decodeBody
  | .demod => demodBody

/-- Every command but CLR is its body, run by `command`. -/
theorem exec_eq_command {i : Instr} (hi : i ≠ .clr) (s : State) : exec i s = command s (bodyOf i) := by
  cases i
  case clr => exact absurd rfl hi
  all_goals rfl

theorem exec_clr (s : State) : exec .clr s = .next s.clearError := rfl

/-- A command with a body that succeeds completes. -/
theorem exec_ok {i : Instr} {s t : State} (hi : i ≠ .clr) (he : s.status.err = false)
    (h : bodyOf i s = .ok t) : exec i s = .next t.complete := by
  rw [exec_eq_command hi, command_ok he h]

/-- A command with a body that fails raises the error. -/
theorem exec_error {i : Instr} {s : State} {e : Err} (hi : i ≠ .clr) (he : s.status.err = false)
    (h : bodyOf i s = .error e) : exec i s = .next (s.raise e) := by
  rw [exec_eq_command hi, command_error he h]

/-- Everything executing a command can do. -/
theorem exec_cases {i : Instr} {s t : State} (h : exec i s = .next t) :
    (i = .clr ∧ t = s.clearError) ∨
      (i ≠ .clr ∧ s.status.err = true ∧ t = s) ∨
      (i ≠ .clr ∧ s.status.err = false ∧ ∃ u, bodyOf i s = .ok u ∧ t = u.complete) ∨
      (i ≠ .clr ∧ s.status.err = false ∧ ∃ e, bodyOf i s = .error e ∧ t = s.raise e) := by
  by_cases hi : i = .clr
  · subst hi
    cases h
    exact .inl ⟨rfl, rfl⟩
  · rw [exec_eq_command hi] at h
    rcases command_cases h with ⟨a, b⟩ | ⟨a, b | b⟩
    · exact .inr (.inl ⟨hi, a, b⟩)
    · exact .inr (.inr (.inl ⟨hi, a, b⟩))
    · exact .inr (.inr (.inr ⟨hi, a, b⟩))

/-- No command stops the machine. -/
theorem exec_answers (i : Instr) (s : State) : ∃ t, exec i s = .next t := by
  by_cases hi : i = .clr
  · exact ⟨_, by rw [hi, exec_clr]⟩
  · rw [exec_eq_command hi]
    exact command_answers _ _

/-- What the body of every command leaves as it was. -/
structure BodyFrame (s t : State) : Prop where
  cmd      : t.cmd = s.cmd
  segStart : t.segStart = s.segStart
  segSyms  : t.segSyms = s.segSyms
  symIdx   : t.symIdx = s.symIdx
  cfg      : t.cfg = s.cfg
  ainLen   : t.ainLen = s.ainLen
  ain      : t.mem.ain = s.mem.ain
  params   : t.params = s.params
  pending  : t.pending = s.pending
  replies  : t.replies = s.replies
  info0    : t.errInfo0 = s.errInfo0
  info1    : t.errInfo1 = s.errInfo1
  err      : t.status.err = s.status.err
  done     : t.status.done = s.status.done
  code     : t.status.code = s.status.code

theorem BodyFrame.refl (s : State) : BodyFrame s s := by constructor <;> rfl

theorem BodyFrame.trans {s t u : State} (a : BodyFrame s t) (b : BodyFrame t u) : BodyFrame s u where
  cmd := b.cmd.trans a.cmd
  segStart := b.segStart.trans a.segStart
  segSyms := b.segSyms.trans a.segSyms
  symIdx := b.symIdx.trans a.symIdx
  cfg := b.cfg.trans a.cfg
  ainLen := b.ainLen.trans a.ainLen
  ain := b.ain.trans a.ain
  params := b.params.trans a.params
  pending := b.pending.trans a.pending
  replies := b.replies.trans a.replies
  info0 := b.info0.trans a.info0
  info1 := b.info1.trans a.info1
  err := b.err.trans a.err
  done := b.done.trans a.done
  code := b.code.trans a.code

theorem modBody_frame {s t : State} (h : modBody s = .ok t) : BodyFrame s t := by
  obtain ⟨-, -, -, -, _, -, rfl⟩ := modBody_eq_ok.mp h
  constructor <;> rfl

theorem demuxBody_frame {s t : State} (h : demuxBody s = .ok t) : BodyFrame s t := by
  obtain ⟨-, _, -, _, -, rfl⟩ := demuxBody_eq_ok.mp h
  constructor <;> rfl

theorem bsfBody_frame {s t : State} {c : Channel} (h : bsfBody c s = .ok t) : BodyFrame s t := by
  obtain ⟨-, -, -, -, _, -, rfl⟩ := bsfBody_eq_ok.mp h
  constructor <;> rfl

theorem ovlBody_frame {s t : State} {c : Channel} (h : ovlBody c s = .ok t) : BodyFrame s t := by
  obtain ⟨-, -, _, -, _, -, _, -, _, -, _, -, rfl⟩ := ovlBody_eq_ok.mp h
  constructor <;> rfl

theorem muxBody_frame {s t : State} (h : muxBody s = .ok t) : BodyFrame s t := by
  obtain ⟨-, _, -, _, -, rfl⟩ := muxBody_eq_ok.mp h
  constructor <;> rfl

theorem xlanesBody_frame {s t : State} (h : xlanesBody s = .ok t) : BodyFrame s t := by
  obtain ⟨-, -, -, -, -, _, -, _, -, rfl⟩ := xlanesBody_eq_ok.mp h
  constructor <;> rfl

theorem decodeBody_frame {s t : State} (h : decodeBody s = .ok t) : BodyFrame s t := by
  obtain ⟨-, -, -, -, -, _, -, rfl⟩ := decodeBody_eq_ok.mp h
  constructor <;> rfl

theorem bodyOf_frame {i : Instr} {s t : State} (h : bodyOf i s = .ok t) : BodyFrame s t := by
  cases i
  case nop => cases h; exact .refl _
  case clr => cases h; exact .refl _
  case synth =>
    obtain ⟨-, -, -, rfl⟩ := synthBody_eq_ok.mp h
    constructor <;> rfl
  case mod => exact modBody_frame h
  case bpf =>
    obtain ⟨-, -, -, -, -, _, -, rfl⟩ := bpfBody_eq_ok.mp h
    constructor <;> rfl
  case bsf => exact bsfBody_frame h
  case xlanes => exact xlanesBody_frame h
  case demux => exact demuxBody_frame h
  case ovl => exact ovlBody_frame h
  case mux => exact muxBody_frame h
  case embed =>
    obtain ⟨-, _, h1, _, h2, _, h3, _, h4, _, h5, _, h6, h7⟩ := embedBody_eq_ok.mp h
    exact (modBody_frame h1).trans <| (demuxBody_frame h2).trans <| (bsfBody_frame h3).trans <|
      (bsfBody_frame h4).trans <| (ovlBody_frame h5).trans <| (ovlBody_frame h6).trans (muxBody_frame h7)
  case decide =>
    obtain ⟨-, -, -, -, -, _, -, rfl⟩ := decideBody_eq_ok.mp h
    constructor <;> rfl
  case decode => exact decodeBody_frame h
  case demod =>
    obtain ⟨-, _, h1, h2⟩ := demodBody_eq_ok.mp h
    exact (xlanesBody_frame h1).trans (decodeBody_frame h2)

end Sys2Proof.Machine
end

