-- ==== Sys2Proof/Laws/Values.lean ====
section
/-! SUPPORT. The values commands write: lengths of the runs, canonical tones, and bounds of a decision. -/

namespace Sys2Proof.Machine

/-! ### Lengths -/

@[simp] theorem pulse_length (b : Bool) (amp f fs count : Nat) : (pulse b amp f fs count).length = count := by
  simp [pulse]

@[simp] theorem State.pulse_length (s : State) (b : Bool) (k : Carrier) : (s.pulse b k).length = s.cfg.spp := by
  simp [State.pulse]

@[simp] theorem laneStream_length (s : State) (bytes : List Byte) (l : Lane) :
    (laneStream s bytes l).length = bytes.length * s.cfg.spp := by
  simp [laneStream, List.length_flatMap]

@[simp] theorem bwf_length (type : Band) (order lo hi fs : Nat) (x : List Sample) :
    (bwf type order lo hi fs x).length = x.length := by
  unfold bwf
  split <;> simp

@[simp] theorem bandPass_length (s : State) (k : Carrier) (x : List Sample) :
    (bandPass s k x).length = x.length := bwf_length ..

@[simp] theorem bandStop_length (s : State) (x : List Sample) : (bandStop s x).length = x.length :=
  bwf_length ..

theorem mixRun_length {x : List Sample} {t0 t1 t2 t3 : List Tone} {n : Nat} (hx : x.length = n)
    (h0 : t0.length = n) (h1 : t1.length = n) (h2 : t2.length = n) (h3 : t3.length = n) :
    (mixRun x t0 t1 t2 t3).length = n := by
  simp [mixRun, hx, h0, h1, h2, h3]

@[simp] theorem decodeSymbols_length (r : ConfigRegs) (lanes : Lanes (List Sample)) (count : Nat) :
    (decodeSymbols r lanes count).length = count := by
  simp [decodeSymbols]

/-! ### Elements of the runs -/

/-- Sample i of a pulse (spec/41_lane_modulator.md R126). -/
theorem pulse_getElem? {b : Bool} {amp f fs count i : Nat} (h : i < count) :
    (pulse b amp f fs count)[i]? = some (if b then numSynth amp f fs i else .half 0) := by
  simp [pulse, h]

/-- Sample j × n + i of blocks of n samples is sample i of block j. -/
theorem flatMap_getElem? {α β : Type} {n : Nat} (f : α → List β) (hf : ∀ a, (f a).length = n) (xs : List α)
    {i j : Nat} {a : α} (hi : i < n) (ha : xs[j]? = some a) : (xs.flatMap f)[j * n + i]? = (f a)[i]? := by
  induction xs generalizing j with
  | nil => simp at ha
  | cons x xs ih =>
    rw [List.flatMap_cons]
    cases j with
    | zero =>
      rw [List.getElem?_cons_zero, Option.some.injEq] at ha
      subst ha
      rw [Nat.zero_mul, Nat.zero_add, List.getElem?_append_left (by rw [hf]; exact hi)]
    | succ j =>
      rw [List.getElem?_cons_succ] at ha
      rw [List.getElem?_append_right (by rw [hf, Nat.succ_mul]; omega), hf, ← ih ha]
      congr 1
      rw [Nat.succ_mul]
      omega

/-- Sample n of slot j of a lane's stream is sample n of the pulse of byte j's bit (R128). -/
theorem laneStream_getElem? {s : State} {bytes : List Byte} {l : Lane} {j n : Nat} {b : Byte}
    (hn : n < s.cfg.spp) (hb : bytes[j]? = some b) :
    (laneStream s bytes l)[j * s.cfg.spp + n]? = (s.pulse (laneBit b l) (carrierOf l))[n]? :=
  flatMap_getElem? _ (fun _ => State.pulse_length ..) bytes hn hb

/-- One mixed sample of a run (spec/43_stereo_mux.md R183). -/
theorem mixRun_getElem? {x : List Sample} {t0 t1 t2 t3 : List Tone} {i : Nat} {v : Sample} {u0 u1 u2 u3 : Tone}
    (hx : x[i]? = some v) (h0 : t0[i]? = some u0) (h1 : t1[i]? = some u1) (h2 : t2[i]? = some u2)
    (h3 : t3[i]? = some u3) : (mixRun x t0 t1 t2 t3)[i]? = some (mix v u0 u1 u2 u3) := by
  have h : (x.zip (t0.zip (t1.zip (t2.zip t3))))[i]? = some (v, u0, u1, u2, u3) := by
    simp only [List.getElem?_zip_eq_some]
    exact ⟨hx, h0, h1, h2, h3⟩
  simp only [mixRun, List.getElem?_map, h, Option.map_some]

/-! ### Canonical tones -/

@[simp] theorem Tone.wf_half (h : Int) : (Tone.half h).wf = true := rfl

theorem firstQuarterTone_wf {a : Int} {x n : Nat} (hn : 0 < n) (hx : 4 * x ≤ n) :
    (firstQuarterTone a x n).wf = true := by
  unfold firstQuarterTone
  simp only
  split
  · rfl
  · next h0 =>
    split
    · rfl
    · next h4 =>
      split
      · rfl
      · next h12 =>
        simp only [not_or] at h0
        have hg : 0 < Nat.gcd x n := Nat.gcd_pos_of_pos_right x hn
        obtain ⟨y, hy⟩ := Nat.gcd_dvd_left x n
        obtain ⟨m, hm⟩ := Nat.gcd_dvd_right x n
        have hyd : x / Nat.gcd x n = y := Nat.div_eq_of_eq_mul_right hg hy
        have hmd : n / Nat.gcd x n = m := Nat.div_eq_of_eq_mul_right hg hm
        have hc : Nat.Coprime y m := by
          rw [← hyd, ← hmd]
          exact Nat.coprime_div_gcd_div_gcd hg
        have hle : 4 * y ≤ m := by
          refine Nat.le_of_mul_le_mul_left ?_ hg
          rw [← hm, Nat.mul_left_comm, ← hy]
          exact hx
        have hy0 : 0 < y := by
          rcases Nat.eq_zero_or_pos y with h | h
          · rw [h, Nat.mul_zero] at hy
            omega
          · exact h
        have hne : 4 * y ≠ m := by
          intro he
          have h1 : y ∣ 1 := by
            have := Nat.dvd_gcd (Nat.dvd_refl y) (Dvd.intro_left 4 he)
            rwa [hc.gcd_eq_one] at this
          have := Nat.dvd_one.mp h1
          omega
        rw [hyd, hmd]
        simp only [Tone.wf, hc.gcd_eq_one, Bool.and_eq_true, decide_eq_true_eq, beq_self_eq_true]
        exact ⟨⟨⟨⟨h0.1, hy0⟩, by omega⟩, trivial⟩, by omega⟩

theorem firstHalfTone_wf {a : Int} {x fs : Nat} (hfs : 0 < fs) (hx : x ≤ fs) :
    (firstHalfTone a x fs).wf = true := by
  unfold firstHalfTone
  split <;> exact firstQuarterTone_wf (by omega) (by omega)

/-- Every sample NUM.synth gives is a canonical tone. -/
theorem numSynth_wf (amp f n : Nat) {fs : Nat} (hfs : 0 < fs) : (numSynth amp f fs n).wf = true := by
  unfold numSynth
  have := Nat.mod_lt (2 * (f * n)) (show 0 < 2 * fs by omega)
  simp only
  split <;> exact firstHalfTone_wf hfs (by omega)

theorem pulse_wf {b : Bool} {amp f fs count : Nat} (hfs : 0 < fs) : ∀ v ∈ pulse b amp f fs count, v.wf = true := by
  intro v hv
  obtain ⟨n, -, rfl⟩ := List.mem_map.mp hv
  split
  · exact numSynth_wf amp f n hfs
  · rfl

/-! ### Samples per pulse -/

/-- SPP is 0 where FS is 0 (spec/10_state.md R31). -/
theorem ConfigRegs.fs_pos_of_spp {r : ConfigRegs} (h : r.spp ≠ 0) : 0 < r.fs.toNat := by
  unfold ConfigRegs.spp at h
  by_contra h0
  exact h (if_neg (by omega))

theorem State.pulse_wf {s : State} (h : s.cfg.spp ≠ 0) (b : Bool) (k : Carrier) :
    ∀ v ∈ s.pulse b k, v.wf = true := Sys2Proof.Machine.pulse_wf (ConfigRegs.fs_pos_of_spp h)

theorem laneStream_wf {s : State} (h : s.cfg.spp ≠ 0) (bytes : List Byte) (l : Lane) :
    ∀ v ∈ laneStream s bytes l, v.wf = true := by
  intro v hv
  obtain ⟨b, -, hb⟩ := List.mem_flatMap.mp hv
  exact State.pulse_wf h _ _ v hb

/-! ### Decisions -/

theorem foldl_max_le {m n : Nat} (vs : List Sample) (hm : m ≤ n) (h : ∀ v ∈ vs, v.toInt.natAbs ≤ n) :
    vs.foldl (fun m v => max m v.toInt.natAbs) m ≤ n := by
  induction vs generalizing m with
  | nil => exact hm
  | cons v vs ih => exact ih (max_le hm (h v (by simp))) (fun w hw => h w (by simp [hw]))

theorem le_foldl_max {m : Nat} (vs : List Sample) :
    m ≤ vs.foldl (fun m v => max m v.toInt.natAbs) m ∧
      ∀ v ∈ vs, v.toInt.natAbs ≤ vs.foldl (fun m v => max m v.toInt.natAbs) m := by
  induction vs generalizing m with
  | nil => simp
  | cons v vs ih =>
    have h := ih (m := max m v.toInt.natAbs)
    refine ⟨le_trans (le_max_left _ _) h.1, fun w hw => ?_⟩
    rcases List.mem_cons.mp hw with rfl | hw
    · exact le_trans (le_max_right _ _) h.1
    · exact h.2 w hw

theorem foldl_max_mem {m : Nat} (vs : List Sample) :
    vs.foldl (fun m v => max m v.toInt.natAbs) m = m ∨
      ∃ v ∈ vs, v.toInt.natAbs = vs.foldl (fun m v => max m v.toInt.natAbs) m := by
  induction vs generalizing m with
  | nil => exact .inl rfl
  | cons v vs ih =>
    rcases ih (m := max m v.toInt.natAbs) with h | ⟨w, hw, h⟩
    · rcases max_choice m v.toInt.natAbs with h' | h'
      · exact .inl (by rw [List.foldl_cons, h, h'])
      · exact .inr ⟨v, by simp, by rw [List.foldl_cons, h, h']⟩
    · exact .inr ⟨w, by simp [hw], by rw [List.foldl_cons, h]⟩

theorem natAbs_toInt_le (v : Sample) : v.toInt.natAbs ≤ 32768 := by
  have h1 := BitVec.toInt_lt (x := v)
  have h2 := BitVec.le_toInt (x := v)
  omega

/-- A peak is at most 32768 (spec/44_envelope_slicer.md R211). -/
theorem peak_le (zone : List Sample) : peak zone ≤ 32768 :=
  foldl_max_le zone (by omega) (fun v _ => natAbs_toInt_le v)

/-- Every absolute value of a zone is at most its peak. -/
theorem le_peak {zone : List Sample} {v : Sample} (h : v ∈ zone) : v.toInt.natAbs ≤ peak zone :=
  (le_foldl_max zone).2 v h

/-- A nonempty zone has a sample of its peak. -/
theorem peak_mem {zone : List Sample} (h : zone ≠ []) : ∃ v ∈ zone, v.toInt.natAbs = peak zone := by
  rcases foldl_max_mem (m := 0) zone with h0 | h1
  · obtain ⟨v, hv⟩ := List.exists_mem_of_ne_nil zone h
    refine ⟨v, hv, le_antisymm (le_peak hv) ?_⟩
    unfold peak
    omega
  · exact h1

@[simp] theorem zones_length (z : Nat) (seg : List Sample) : (zones z seg).length = seg.length / z := by
  simp [zones]

@[simp] theorem envelope_zones (r : ConfigRegs) (seg : List Sample) :
    (envelope r seg).zones = seg.length / r.zone.toNat := by
  simp [envelope]

/-- The sum of the peaks is at most 32768 a zone. -/
theorem envelope_sum_le (r : ConfigRegs) (seg : List Sample) :
    (envelope r seg).sum ≤ 32768 * (envelope r seg).zones := by
  simp only [envelope]
  generalize zones r.zone.toNat seg = zs
  induction zs with
  | nil => simp
  | cons z zs ih =>
    have := peak_le z
    simp only [List.map_cons, List.sum_cons, List.length_cons]
    omega

end Sys2Proof.Machine
end

