-- ==== Sys2Proof/Laws/Composites.lean ====
section
/-! SUPPORT. The composite commands EMBED and DEMOD (spec/43_stereo_mux.md R187, spec/44_envelope_slicer.md
R218): a sub-command's body does not look at STATUS, and once the composite's checks pass every sub-command's
own checks pass too (log entry 12). -/

namespace Sys2Proof.Machine

variable {s t : State}

/-! ### Bodies do not look at DONE -/

theorem demuxBody_complete (h : demuxBody s = .ok t) : demuxBody s.complete = .ok t.complete := by
  obtain ⟨h1, v0, h2, v1, h3, rfl⟩ := demuxBody_eq_ok.mp h
  exact demuxBody_eq_ok.mpr ⟨h1, v0, h2, v1, h3, rfl⟩

theorem bsfBody_complete {c : Channel} (h : bsfBody c s = .ok t) : bsfBody c s.complete = .ok t.complete := by
  obtain ⟨h1, h2, h3, h4, x, h5, rfl⟩ := bsfBody_eq_ok.mp h
  exact bsfBody_eq_ok.mpr ⟨h1, requireBandStop_eq_ok.mpr (requireBandStop_eq_ok.mp h2), h3, h4, x, h5, rfl⟩

theorem ovlBody_complete {c : Channel} (h : ovlBody c s = .ok t) : ovlBody c s.complete = .ok t.complete := by
  obtain ⟨h1, h2, x, hx, t0, h3, t1, h4, t2, h5, t3, h6, rfl⟩ := ovlBody_eq_ok.mp h
  exact ovlBody_eq_ok.mpr ⟨h1, h2, x, hx, t0, h3, t1, h4, t2, h5, t3, h6, rfl⟩

theorem muxBody_complete (h : muxBody s = .ok t) : muxBody s.complete = .ok t.complete := by
  obtain ⟨h1, v0, h2, v1, h3, rfl⟩ := muxBody_eq_ok.mp h
  exact muxBody_eq_ok.mpr ⟨h1, v0, h2, v1, h3, rfl⟩

theorem decodeBody_complete (h : decodeBody s = .ok t) : decodeBody s.complete = .ok t.complete := by
  obtain ⟨h1, h2, h3, h4, h5, lanes, h6, rfl⟩ := decodeBody_eq_ok.mp h
  exact decodeBody_eq_ok.mpr ⟨h1, h2, h3, h4, h5, lanes, readRxLanes_eq_ok.mpr (readRxLanes_eq_ok.mp h6), rfl⟩

/-! ### EMBED -/

theorem embedChecks_eq_ok {u : Unit} :
    embedChecks s = .ok u ↔
      s.cfg.spp ≠ 0 ∧ s.cfg.amp.toNat ≤ 32767 ∧ requireBandStop s = .ok () ∧
        s.bytesLen.toNat ≤ s.params.maxBytes ∧ s.ainLen.toNat ≤ s.params.maxFrames ∧
        s.bytesLen.toNat * s.cfg.spp ≤ s.ainLen.toNat ∧ s.minLen < s.ainLen.toNat ∧
        (∃ bytes, Buf.readRun s.mem.bytes 0 s.bytesLen.toNat = .ok bytes) ∧
        (∃ x0, Buf.readRun (s.mem.ain.get 0) 0 s.ainLen.toNat = .ok x0) ∧
        ∃ x1, Buf.readRun (s.mem.ain.get 1) 0 s.ainLen.toNat = .ok x1 := by
  simp only [embedChecks, bind_eq_ok, exists_unit, requireSpp_eq_ok, requireAmp_eq_ok, requireWithin_eq_ok,
    require_eq_ok, decide_eq_true_eq, requireLong_eq_ok, readBytes_eq_ok, readAin_eq_ok]
  constructor
  · rintro ⟨h1, h2, h3, h4, h5, h6, h7, b, h8, x0, h9, x1, h10, -⟩
    exact ⟨h1, h2, h3, h4, h5, h6, h7, ⟨b, h8⟩, ⟨x0, h9⟩, x1, h10⟩
  · rintro ⟨h1, h2, h3, h4, h5, h6, h7, ⟨b, h8⟩, ⟨x0, h9⟩, x1, h10⟩
    exact ⟨h1, h2, h3, h4, h5, h6, h7, b, h8, x0, h9, x1, h10, rfl⟩

/-- The samples EMBED leaves in a channel: the band-stopped carrier, mixed with the channel's four lanes below
BYTES_LEN × SPP. -/
def embeddedRun (s : State) (bytes : List Byte) (x : List Sample) (c : Channel) : List Sample :=
  mixRun ((bandStop s x).take (s.bytesLen.toNat * s.cfg.spp)) (laneStream s bytes (laneOf c 0))
      (laneStream s bytes (laneOf c 1)) (laneStream s bytes (laneOf c 2)) (laneStream s bytes (laneOf c 3))
    ++ (bandStop s x).drop (s.bytesLen.toNat * s.cfg.spp)

theorem embeddedRun_mixed_length {bytes : List Byte} {x : List Sample} {c : Channel}
    (hb : bytes.length = s.bytesLen.toNat) (hx : s.bytesLen.toNat * s.cfg.spp ≤ x.length) :
    (mixRun ((bandStop s x).take (s.bytesLen.toNat * s.cfg.spp)) (laneStream s bytes (laneOf c 0))
      (laneStream s bytes (laneOf c 1)) (laneStream s bytes (laneOf c 2))
      (laneStream s bytes (laneOf c 3))).length = s.bytesLen.toNat * s.cfg.spp :=
  mixRun_length (by simp; omega) (by simp [hb]) (by simp [hb]) (by simp [hb]) (by simp [hb])

theorem embeddedRun_length {bytes : List Byte} {x : List Sample} {c : Channel}
    (hb : bytes.length = s.bytesLen.toNat) (hx : s.bytesLen.toNat * s.cfg.spp ≤ x.length) :
    (embeddedRun s bytes x c).length = x.length := by
  rw [embeddedRun, List.length_append, embeddedRun_mixed_length hb hx, List.length_drop, bandStop_length]
  omega

/-- Reading a channel after another write to a channel of the pair. -/
theorem Stereo.readRun_set {x : Stereo (Buf Sample)} {c d : Channel} {n : Nat} {vs ws : List Sample}
    (h : Buf.readRun (x.get d) 0 n = .ok vs) (hw : ws.length ≤ n) :
    Buf.readRun ((x.set c (Buf.writeRun (x.get c) 0 ws)).get d) 0 n =
      .ok (if d = c then ws ++ vs.drop ws.length else vs) := by
  rw [Stereo.get_set]
  split
  · next e =>
    subst e
    exact Buf.readRun_overwrite h hw
  · exact h

/-- Reading a channel after both have been written whole. -/
theorem Stereo.readRun_set_both {x : Stereo (Buf Sample)} {n : Nat} {v0 v1 : List Sample} (h0 : v0.length = n)
    (h1 : v1.length = n) (d : Channel) :
    Buf.readRun (((x.set 0 (Buf.writeRun (x.get 0) 0 v0)).set 1
      (Buf.writeRun ((x.set 0 (Buf.writeRun (x.get 0) 0 v0)).get 1) 0 v1)).get d) 0 n =
        .ok (if d = 0 then v0 else v1) := by
  match d with
  | 0 =>
    rw [Stereo.get_set, if_neg (by simp), Stereo.get_set_self, Buf.readRun_writeRun (by omega),
      List.take_of_length_le (by omega), if_pos rfl]
  | 1 =>
    rw [Stereo.get_set_self, Buf.readRun_writeRun (by omega), List.take_of_length_le (by omega), if_neg (by simp)]

/-- A write to a channel of a pair leaves every element at or beyond the run's length. -/
theorem Stereo.get_set_beyond {x : Stereo (Buf Sample)} {c d : Channel} {ws : List Sample} {i : Nat}
    (h : ws.length ≤ i) :
    Buf.get ((x.set c (Buf.writeRun (x.get c) 0 ws)).get d) i = Buf.get (x.get d) i := by
  rw [Stereo.get_set]
  split
  · next e =>
    subst e
    rw [Buf.get_writeRun, if_neg (by omega)]
  · rfl

/-- A state between EMBED's sub-steps: the lanes are modulated, and the working channels hold the runs `run` below
AIN_LEN and what they held before beyond it. -/
structure EmbedStage (s : State) (bytes : List Byte) (run : Channel → List Sample) (u : State) : Prop where
  state : u = { s with
    laneLen := sat32 (s.bytesLen.toNat * s.cfg.spp)
    chLen := s.ainLen
    mem := { s.mem with tx := (s.mem.writeTxLanes (laneStream s bytes)).tx, ch := u.mem.ch } }
  ch : ∀ c, Buf.readRun (u.mem.ch.get c) 0 s.ainLen.toNat = .ok (run c)
  beyond : ∀ c i, s.ainLen.toNat ≤ i → Buf.get (u.mem.ch.get c) i = Buf.get (s.mem.ch.get c) i

theorem EmbedStage.cfg {bytes : List Byte} {run : Channel → List Sample} {u : State}
    (e : EmbedStage s bytes run u) : u.cfg = s.cfg := by
  have := congrArg State.cfg e.state
  exact this

theorem EmbedStage.params {bytes : List Byte} {run : Channel → List Sample} {u : State}
    (e : EmbedStage s bytes run u) : u.params = s.params := by
  have := congrArg State.params e.state
  exact this

theorem EmbedStage.chLen {bytes : List Byte} {run : Channel → List Sample} {u : State}
    (e : EmbedStage s bytes run u) : u.chLen = s.ainLen := by
  have := congrArg State.chLen e.state
  exact this

theorem EmbedStage.bsf {bytes : List Byte} {run : Channel → List Sample} {u : State}
    (e : EmbedStage s bytes run u) (h : embedChecks s = .ok ()) (c : Channel) :
    ∃ v, bsfBody c u = .ok v ∧
      EmbedStage s bytes (fun d => if d = c then bandStop s (run d) else run d) v := by
  obtain ⟨h1, -, h3, -, h5, -, h7, -⟩ := embedChecks_eq_ok.mp h
  have hcfg : u.cfg = s.cfg := e.cfg
  have hpar : u.params = s.params := e.params
  have hlen : u.chLen = s.ainLen := e.chLen
  have hmin : u.minLen = s.minLen := by rw [State.minLen, hcfg, hpar, State.minLen]
  have hstop : bandStop u (run c) = bandStop s (run c) := by rw [bandStop, hcfg, bandStop]
  have hfs : s.cfg.fs ≠ 0 := by
    have := ConfigRegs.fs_pos_of_spp h1
    rintro e
    rw [e] at this
    simp at this
  refine ⟨_, bsfBody_eq_ok.mpr ⟨by rw [hcfg]; exact hfs, ?_, by rw [hlen, hpar]; exact h5,
    by rw [hmin, hlen]; exact h7, run c, by rw [hlen]; exact e.ch c, rfl⟩, ?_, fun d => ?_, fun d i hi => ?_⟩
  · rw [requireBandStop_eq_ok, hcfg, hpar]
    exact requireBandStop_eq_ok.mp h3
  · rw [e.state]
    rfl
  · have hl := (Buf.readRun_eq_ok (e.ch d)).1
    have hlc := (Buf.readRun_eq_ok (e.ch c)).1
    rw [hstop]
    refine (Stereo.readRun_set (c := c) (e.ch d) (by simp [hlc])).trans ?_
    by_cases hd : d = c
    · subst hd
      rw [if_pos rfl, if_pos rfl, List.drop_of_length_le (by simp), List.append_nil]
    · rw [if_neg hd, if_neg hd]
  · have hlc := (Buf.readRun_eq_ok (e.ch c)).1
    exact (Stereo.get_set_beyond (by simp [hlc, hi])).trans (e.beyond d i hi)

theorem EmbedStage.ovl {bytes : List Byte} {run : Channel → List Sample} {u : State} {x : List Sample}
    (e : EmbedStage s bytes run u) (h : embedChecks s = .ok ()) (hb : bytes.length = s.bytesLen.toNat)
    (c : Channel) (hx : run c = bandStop s x) :
    ∃ v, ovlBody c u = .ok v ∧
      EmbedStage s bytes (fun d => if d = c then embeddedRun s bytes x d else run d) v := by
  obtain ⟨-, -, -, -, h5, h6, -⟩ := embedChecks_eq_ok.mp h
  have hpar : u.params = s.params := e.params
  have hlen : u.chLen = s.ainLen := e.chLen
  have hlane : u.laneLen.toNat = s.bytesLen.toNat * s.cfg.spp := by
    rw [congrArg State.laneLen e.state]
    have := toNat_le_u32Max s.ainLen
    exact sat32_toNat_of_le (by omega)
  have htx : ∀ l, Buf.readRun (u.mem.tx.get l) 0 u.laneLen.toNat = .ok (laneStream s bytes l) := by
    intro l
    rw [hlane, congrArg (fun v => v.mem.tx) e.state]
    simp only [Memory.writeTxLanes, Lanes.get_ofFn]
    rw [Buf.readRun_writeRun (by simp [hb]), List.take_of_length_le (by simp [hb])]
  have hlx : (run c).length = s.ainLen.toNat := (Buf.readRun_eq_ok (e.ch c)).1
  have hm := embeddedRun_mixed_length (s := s) (x := x) (c := c) hb (by
    have := congrArg List.length hx
    rw [hlx, bandStop_length] at this
    omega)
  refine ⟨_, ovlBody_eq_ok.mpr ⟨by rw [hlen, hpar]; exact h5, by rw [hlane, hlen]; exact h6, _,
    by rw [hlane]; exact Buf.readRun_take (e.ch c) h6, _, htx _, _, htx _, _, htx _, _, htx _, rfl⟩, ?_,
    fun d => ?_, fun d i hi => ?_⟩
  · rw [e.state]
    rfl
  · rw [hx]
    refine (Stereo.readRun_set (c := c) (e.ch d) (by rw [hm]; exact h6)).trans ?_
    by_cases hd : d = c
    · subst hd
      rw [if_pos rfl, if_pos rfl, hm, hx, embeddedRun]
    · rw [if_neg hd, if_neg hd]
  · refine (Stereo.get_set_beyond ?_).trans (e.beyond d i hi)
    rw [hx, hm]
    omega

/-- What EMBED's seven sub-steps leave, once its checks pass: none of them fails, and each reads what the one
before it left. -/
theorem embedSteps_chain (h : embedChecks s = .ok ()) :
    ∃ (bytes : List Byte) (x : Channel → List Sample) (s1 s2 s3 s4 s5 s6 t : State),
      Buf.readRun s.mem.bytes 0 s.bytesLen.toNat = .ok bytes ∧
      (∀ c, Buf.readRun (s.mem.ain.get c) 0 s.ainLen.toNat = .ok (x c)) ∧
      (modBody s = .ok s1 ∧ demuxBody s1 = .ok s2 ∧ bsfBody 0 s2 = .ok s3 ∧ bsfBody 1 s3 = .ok s4 ∧
        ovlBody 0 s4 = .ok s5 ∧ ovlBody 1 s5 = .ok s6 ∧ muxBody s6 = .ok t) ∧
      t = { s with
            laneLen := sat32 (s.bytesLen.toNat * s.cfg.spp)
            chLen := s.ainLen
            aoutLen := s.ainLen
            mem := { s.mem with
              tx := (s.mem.writeTxLanes (laneStream s bytes)).tx
              ch := t.mem.ch
              aout := t.mem.aout } } ∧
      (∀ c, Buf.readRun (t.mem.ch.get c) 0 s.ainLen.toNat = .ok (embeddedRun s bytes (x c) c) ∧
        Buf.readRun (t.mem.aout.get c) 0 s.ainLen.toNat = .ok (embeddedRun s bytes (x c) c)) ∧
      ∀ c i, s.ainLen.toNat ≤ i → Buf.get (t.mem.ch.get c) i = Buf.get (s.mem.ch.get c) i ∧
        Buf.get (t.mem.aout.get c) i = Buf.get (s.mem.aout.get c) i := by
  obtain ⟨h1, h2, -, h4, h5, h6, -, ⟨bytes, hb⟩, ⟨x0, hx0⟩, x1, hx1⟩ := embedChecks_eq_ok.mp h
  have lb := (Buf.readRun_eq_ok hb).1
  have l0 := (Buf.readRun_eq_ok hx0).1
  have l1 := (Buf.readRun_eq_ok hx1).1
  have r1 := modBody_eq_ok.mpr ⟨h1, h2, h4, le_trans h6 h5, bytes, hb, rfl⟩
  obtain ⟨s2, r2, e2⟩ : ∃ s2, demuxBody { s with
      mem := s.mem.writeTxLanes (laneStream s bytes)
      laneLen := sat32 (s.bytesLen.toNat * s.cfg.spp) } = .ok s2 ∧
      EmbedStage s bytes (fun c => if c = 0 then x0 else x1) s2 :=
    ⟨_, demuxBody_eq_ok.mpr ⟨h5, x0, hx0, x1, hx1, rfl⟩, rfl, Stereo.readRun_set_both l0 l1, fun c i hi =>
      (Stereo.get_set_beyond (by omega)).trans (Stereo.get_set_beyond (by omega))⟩
  obtain ⟨s3, r3, e3⟩ := e2.bsf h 0
  obtain ⟨s4, r4, e4⟩ := e3.bsf h 1
  obtain ⟨s5, r5, e5⟩ := e4.ovl h lb 0 (x := x0) (by simp)
  obtain ⟨s6, r6, e6⟩ := e5.ovl h lb 1 (x := x1) (by simp)
  have hlen : s6.chLen = s.ainLen := e6.chLen
  have hpar : s6.params = s.params := e6.params
  have w0 := e6.ch 0
  have w1 := e6.ch 1
  have m0 := (Buf.readRun_eq_ok w0).1
  have m1 := (Buf.readRun_eq_ok w1).1
  refine ⟨bytes, fun c => if c = 0 then x0 else x1, _, s2, s3, s4, s5, s6, _, hb, ?_,
    ⟨r1, r2, r3, r4, r5, r6, muxBody_eq_ok.mpr ⟨by rw [hlen, hpar]; exact h5, _, by rw [hlen]; exact w0, _,
      by rw [hlen]; exact w1, rfl⟩⟩, ?_, fun c => ?_, fun c i hi => ⟨e6.beyond c i hi, ?_⟩⟩
  · intro c
    match c with
    | 0 => exact hx0
    | 1 => exact hx1
  · rw [hlen, e6.state]
    rfl
  · have hc : Buf.readRun (s6.mem.ch.get c) 0 s.ainLen.toNat =
        .ok (embeddedRun s bytes (if c = 0 then x0 else x1) c) := by
      match c with
      | 0 => exact w0
      | 1 => exact w1
    refine ⟨hc, (Stereo.readRun_set_both m0 m1 c).trans ?_⟩
    match c with
    | 0 => rfl
    | 1 => rfl
  · have ha : s6.mem.aout = s.mem.aout := by
      have := congrArg (fun v => v.mem.aout) e6.state
      exact this
    rw [← ha]
    exact (Stereo.get_set_beyond (by omega)).trans (Stereo.get_set_beyond (by omega))

/-- EMBED succeeds exactly when its checks pass (R187). -/
theorem embedBody_ok (h : embedChecks s = .ok ()) : ∃ t, embedBody s = .ok t := by
  obtain ⟨-, -, s1, s2, s3, s4, s5, s6, t, -, -, ⟨r1, r2, r3, r4, r5, r6, r7⟩, -⟩ := embedSteps_chain h
  exact ⟨t, embedBody_eq_ok.mpr ⟨h, s1, r1, s2, r2, s3, r3, s4, r4, s5, r5, s6, r6, r7⟩⟩

/-! ### DEMOD -/

theorem demodChecks_eq_ok {u : Unit} :
    demodChecks s = .ok u ↔
      s.cfg.spp ≠ 0 ∧ requireBandPasses s = .ok () ∧ s.cfg.zone ≠ 0 ∧ s.cfg.fs = s.cfg.refRate ∧
        (s.ainLen.toNat ≤ s.params.maxFrames ∧ s.segFrom + s.segLen ≤ s.ainLen.toNat) ∧
        s.segSyms.toNat ≤ s.params.maxBytes ∧ s.minLen < s.segLen ∧
        (∃ x0, Buf.readRun (s.mem.ain.get 0) s.segFrom s.segLen = .ok x0) ∧
        ∃ x1, Buf.readRun (s.mem.ain.get 1) s.segFrom s.segLen = .ok x1 := by
  simp only [demodChecks, bind_eq_ok, exists_unit, requireSpp_eq_ok, requireZone_eq_ok, requireRate_eq_ok,
    requireSegment_eq_ok, requireWithin_eq_ok, requireLong_eq_ok, readAin_eq_ok]
  constructor
  · rintro ⟨h1, h2, h3, h4, h5, h6, h7, x0, h8, x1, h9, -⟩
    exact ⟨h1, h2, h3, h4, h5, h6, h7, ⟨x0, h8⟩, x1, h9⟩
  · rintro ⟨h1, h2, h3, h4, h5, h6, h7, ⟨x0, h8⟩, x1, h9⟩
    exact ⟨h1, h2, h3, h4, h5, h6, h7, x0, h8, x1, h9, rfl⟩

/-- What DEMOD's two sub-steps leave, once its checks pass: neither fails, and the symbols are SEG_SYMS. -/
theorem demodSteps_chain (h : demodChecks s = .ok ()) :
    ∃ u t, xlanesBody s = .ok u ∧ decodeBody u = .ok t ∧ u.rxLen.toNat = s.segLen ∧
      t = { s with
        rxLen := BitVec.ofNat 32 s.segLen
        bytesLen := s.segSyms
        mem := { s.mem with rx := t.mem.rx, bytes := t.mem.bytes } } := by
  obtain ⟨h1, h2, h3, h4, h5, h6, h7, ⟨x0, h8⟩, x1, h9⟩ := demodChecks_eq_ok.mp h
  have l0 := (Buf.readRun_eq_ok h8).1
  have l1 := (Buf.readRun_eq_ok h9).1
  have hrx : (sat32 s.segLen).toNat = s.segLen :=
    sat32_toNat_of_le (by have := toNat_le_u32Max s.ainLen; omega)
  have hdiv : s.segLen / s.cfg.spp = s.segSyms.toNat := Nat.mul_div_cancel _ (Nat.pos_of_ne_zero h1)
  have hmul : s.segSyms.toNat * s.cfg.spp = s.segLen := rfl
  have hlen : ∀ l, (bandPass s (carrierOf l) (if channelOf l = 0 then x0 else x1)).length = s.segLen := by
    intro l
    rw [bandPass_length]
    split <;> assumption
  refine ⟨_, _, xlanesBody_eq_ok.mpr ⟨h1, h2, h4, h5, h7, x0, h8, x1, h9, rfl⟩,
    decodeBody_eq_ok.mpr ⟨h1, h3, h4, ?_, ?_,
      Lanes.ofFn (fun l => bandPass s (carrierOf l) (if channelOf l = 0 then x0 else x1)), ?_, rfl⟩, hrx, ?_⟩
  · simp only [hrx]
    omega
  · simp only [hrx, hdiv]
    exact h6
  · rw [readRxLanes_eq_ok]
    intro l
    simp only [hrx, hdiv, hmul, Memory.writeRxLanes, Lanes.get_ofFn]
    rw [Buf.readRun_writeRun (by rw [hlen]), List.take_of_length_le (by rw [hlen])]
  · have hrx' : sat32 s.segLen = BitVec.ofNat 32 s.segLen := by
      rw [← BitVec.toNat_inj, hrx, BitVec.toNat_ofNat, Nat.mod_eq_of_lt]
      have := s.ainLen.isLt
      omega
    have hb : sat32 ((sat32 s.segLen).toNat / s.cfg.spp) = s.segSyms := by
      rw [hrx, hdiv, sat32, Nat.min_eq_left (toNat_le_u32Max _)]
      simp
    dsimp only
    rw [hb, ← hrx']
    rfl

/-- DEMOD succeeds exactly when its checks pass (R218). -/
theorem demodBody_ok (h : demodChecks s = .ok ()) : ∃ t, demodBody s = .ok t := by
  obtain ⟨u, t, h1, h2, -⟩ := demodSteps_chain h
  exact ⟨t, demodBody_eq_ok.mpr ⟨h, u, h1, h2⟩⟩

end Sys2Proof.Machine
end

