-- ==== Sys2Proof/Laws/Step.lean ====
section
/-! SUPPORT. What one step can do: the next action of the host, performed. -/

namespace Sys2Proof.Machine

/-- Every register stands at its own offset. -/
theorem registerAt_offset (r : Reg) : registerAt 4 r.offset = .ok r := by
  cases r <;> decide

/-- A register access reaches a register only by four bytes at its offset. -/
theorem registerAt_eq_ok {width off : Nat} {r : Reg} (h : registerAt width off = .ok r) :
    width = 4 ∧ off = r.offset := by
  unfold registerAt at h
  split at h
  · cases h
  · split at h
    · cases h
    · split at h
      · next r' hr =>
        cases h
        have := List.find?_some hr
        simp only [beq_iff_eq] at this
        exact ⟨by omega, this.symm⟩
      · cases h

/-- A host write to CMD issues the word. -/
theorem fetch_command {s : State} {w : Word} {rest : List HostAction} (h : s.pending = .regWrite 4 0 w :: rest) :
    s.fetch = State.issue { s with pending := rest } w := by
  simp [State.fetch, h, State.hostRegWrite, registerAt, show Reg.atOffset 0 = some .cmd by decide]

/-- The host's next action, and the state without it in the queue, give the next state in one of six ways. -/
inductive Performed (s : State) : HostAction → State → Prop where
  | reset : Performed s .reset s.platformReset
  | read (a : HostAction) (r : Reply) : Performed s a { s with replies := r :: s.replies }
  | register (r : Reg) (v : Word) (t : State) (h : s.writeReg r v = some t) :
      Performed s (.regWrite 4 r.offset v) t
  | command (v : Word) (i : Instr) (t : State) (hd : decode v = .ok i) (h : exec i { s with cmd := v } = .next t) :
      Performed s (.regWrite 4 0 v) t
  | illegal (v : Word) (t : State) (hd : ∀ i, decode v ≠ .ok i)
      (h : Machine.command { s with cmd := v } (fun _ => .error ⟨.illegal, v.toNat, 0⟩) = .next t) :
      Performed s (.regWrite 4 0 v) t
  | buffer (space : Space) (a i : Nat) (v : Int) (hw : space.hostWritable = true) (ha : a < space.arrays)
      (hi : i < space.capacity s.params) :
      Performed s (.bufWrite space a i v) { s with mem := s.mem.hostWrite space a i v }

/-- Everything a step can do: nothing while the host does nothing, else the host's next action. -/
theorem step_cases {s t : State} (h : step s = .next t) :
    (s.pending = [] ∧ t = s) ∨
      ∃ a rest, s.pending = a :: rest ∧ Performed { s with pending := rest } a t := by
  cases hp : s.pending with
  | nil =>
    simp only [step, State.fetch, hp] at h
    cases h
    exact .inl ⟨rfl, rfl⟩
  | cons a rest =>
    refine .inr ⟨a, rest, rfl, ?_⟩
    simp only [step, State.fetch, hp] at h
    cases a with
    | reset =>
      cases h
      exact .reset
    | regRead width off =>
      simp only [State.hostRegRead] at h
      split at h
      · next o ho =>
        split at ho
        · cases ho
          cases h
        · cases ho
          cases h
          exact .read _ _
      · next ho => split at ho <;> cases ho
    | regWrite width off v =>
      simp only [State.hostRegWrite] at h
      cases hr : registerAt width off with
      | error e =>
        rw [hr] at h
        cases h
      | ok r =>
        obtain ⟨rfl, rfl⟩ := registerAt_eq_ok hr
        rw [hr] at h
        by_cases hc : r = .cmd
        · subst hc
          simp only [State.issue] at h
          cases hd : decode v with
          | ok i =>
            rw [hd] at h
            exact .command v i t hd h
          | error e =>
            rw [hd] at h
            exact .illegal v t (by simp [hd]) h
        · cases hw : State.writeReg { s with pending := rest } r v with
          | some u =>
            have : u = t := by
              cases r <;> first | exact absurd rfl hc | (simp only [hw] at h; cases h; rfl)
            exact .register r v t (this ▸ hw)
          | none =>
            exfalso
            cases r <;> first | exact absurd rfl hc | (simp only [hw] at h; cases h)
    | bufRead space a i =>
      simp only [State.hostBufRead] at h
      split at h
      · next o ho =>
        split at ho
        · split at ho
          · cases ho
            cases h
            exact .read _ _
          · cases ho
            cases h
        · cases ho
          cases h
      · next ho =>
        split at ho
        · split at ho <;> cases ho
        · cases ho
    | bufWrite space a i v =>
      simp only [State.hostBufWrite] at h
      by_cases h1 : space.hostWritable = true
      · by_cases h2 : space.contains s.params a i = true
        · by_cases h3 : space.holds v = true
          · simp only [h1, h2, h3] at h
            cases h
            simp only [Space.contains, Bool.and_eq_true, decide_eq_true_eq] at h2
            exact .buffer space a i v h1 h2.1 h2.2
          · simp [h1, h2, h3] at h
        · simp [h1, h2] at h
      · simp [h1] at h

end Sys2Proof.Machine
end

