-- ==== Sys2Proof/Laws/HostPrograms.lean ====
section
/-! SUPPORT. What the parts of a host program do to the machine (Machine/HostPrograms.lean): one equation each, so
that a run is followed without unfolding a step. -/

namespace Sys2Proof.Machine

variable {s : State}

theorem perform_of_step {a : HostAction} {t : State} (h : step { s with pending := a :: s.pending } = .next t) :
    perform a s = (.ok (), t) := by
  unfold perform
  rw [h]

theorem perform_of_refused {a : HostAction} {e : Refusal}
    (h : step { s with pending := a :: s.pending } = .refused e) : perform a s = (.error (.refused e), s) := by
  unfold perform
  rw [h]

/-- A register read gives the register's value, which is also what its reply carries, and changes nothing of the
block. -/
theorem readRegister_eq (r : Reg) :
    readRegister r s = (.ok (s.readReg r), { s with replies := .reg r (s.readReg r) :: s.replies }) := by
  have h : perform (readAction r) s = (.ok (), { s with replies := .reg r (s.readReg r) :: s.replies }) := by
    apply perform_of_step
    simp only [step, State.fetch, readAction, State.hostRegRead, registerAt_offset]
  show (do let _ ← perform (readAction r); pure (s.readReg r) : HostRun Word) s = _
  simp only [bind, ExceptT.bind, ExceptT.mk, StateT.bind, h, ExceptT.bindCont]
  rfl

theorem statusErr_word (st : Status) : statusErr st.word = st.err := by
  simp only [statusErr, Status.word, BitVec.getLsbD_append]
  simp

theorem statusCode_word (st : Status) : statusCode st.word = st.code := by
  apply BitVec.eq_of_getLsbD_eq
  intro i hi
  simp only [statusCode, Status.word, BitVec.getLsbD_extractLsb', BitVec.getLsbD_append]
  interval_cases i <;> simp

/-- The error check lets a run go on exactly outside the error state, and names the block's code in it. -/
theorem stopOnError_eq :
    stopOnError s = (if s.status.err then .error (.blockError s.status.code) else .ok (),
      { s with replies := .reg .status s.status.word :: s.replies }) := by
  have h : readRegister .status s = _ := readRegister_eq (s := s) .status
  simp only [stopOnError, bind, ExceptT.bind, ExceptT.mk, StateT.bind, h, ExceptT.bindCont, State.readReg,
    statusErr_word, statusCode_word]
  split <;> rfl

/-- A frame's tail splits into its payload and its filename (80 R319). -/
theorem disassemble_append (payload name : List Byte) :
    disassemble (payload ++ name) name.length = (payload, name) := by
  simp [disassemble]

/-- A segment whose count fits no register lies beyond every AIN_LEN, so the block raises `Range` for it
(log entry 16). -/
theorem saturated_segment_beyond {start count spp : Nat} (hs : 1 ≤ start) (hp : 1 ≤ spp) (hc : u32Max < count)
    (w : Word) : w.toNat < (sat32 start).toNat + (sat32 count).toNat * spp := by
  rw [sat32_toNat, sat32_toNat, Nat.min_eq_right hc.le]
  have h1 := toNat_le_u32Max w
  have h2 : u32Max * 1 ≤ u32Max * spp := Nat.mul_le_mul_left _ hp
  have h3 : 1 ≤ min start u32Max := by simp [hs, u32Max]
  omega

end Sys2Proof.Machine
end

