-- ==== Sys2Proof/Laws/PerInstr.lean ====
section
/-! SUPPORT. One statement for every command (spec/30_encoding.md R90, R95, R96): it is well formed, and the
fields of its word are its own. -/

namespace Sys2Proof.Laws.Encodes

/-- A command is well formed and its word has its fields. -/
def Statement (i : Instr) : Prop := i.WellFormed ∧ Fields.ofWord (encode i) = i.fields

theorem nop : Statement .nop := ⟨by decide, by decide⟩

theorem clr : Statement .clr := ⟨by decide, by decide⟩

theorem synth (c : Channel) (k : Carrier) (b : Bool) : Statement (.synth c k b) := by
  revert c k b
  unfold Statement
  decide

theorem mod : Statement .mod := ⟨by decide, by decide⟩

theorem bpf (c : Channel) (k : Carrier) : Statement (.bpf c k) := by
  revert c k
  unfold Statement
  decide

theorem bsf (c : Channel) : Statement (.bsf c) := by
  revert c
  unfold Statement
  decide

theorem xlanes : Statement .xlanes := ⟨by decide, by decide⟩

theorem demux : Statement .demux := ⟨by decide, by decide⟩

theorem ovl (c : Channel) : Statement (.ovl c) := by
  revert c
  unfold Statement
  decide

theorem mux : Statement .mux := ⟨by decide, by decide⟩

theorem embed : Statement .embed := ⟨by decide, by decide⟩

theorem decide (c : Channel) (k : Carrier) : Statement (.decide c k) := by
  revert c k
  unfold Statement
  decide

theorem decode : Statement .decode := ⟨by decide, by decide⟩

theorem demod : Statement .demod := ⟨by decide, by decide⟩

end Sys2Proof.Laws.Encodes
end

