-- ==== Sys2Proof/Laws/Sine.lean ====
section
/-! SUPPORT. The fixed-point enclosures of π and of sine values (Machine/Numerics.lean, log entry 4): how far
each lies from the exact real number. -/

namespace Sys2Proof.Machine

/-! ### Floors -/

theorem natDiv_le_real (a b : Nat) : ((a / b : Nat) : ℝ) ≤ (a : ℝ) / b := Nat.cast_div_le

theorem real_lt_natDiv (a : Nat) {b : Nat} (hb : 0 < b) : (a : ℝ) / b < ((a / b : Nat) : ℝ) + 1 := by
  have hr : (0 : ℝ) < b := by exact_mod_cast hb
  rw [div_lt_iff₀ hr]
  have : a < (a / b + 1) * b := by
    have := Nat.div_add_mod a b
    have := Nat.mod_lt a hb
    nlinarith
  exact_mod_cast this

/-! ### Arccotangents and π -/

/-- The exact series `arccotSum` follows. -/
noncomputable def arccotSeries (y τ : ℝ) : Nat → Nat → ℝ
  | 0, _ => 0
  | n + 1, k => τ / (2 * k + 1) - arccotSeries y (τ * y) n (k + 1)

theorem arccotSeries_eq (y τ : ℝ) (n k : Nat) :
    arccotSeries y τ n k = ∑ j ∈ Finset.range n, (-1) ^ j * (τ * y ^ j) / (2 * (k + j : Nat) + 1) := by
  induction n generalizing τ k with
  | zero => simp [arccotSeries]
  | succ n ih =>
    rw [arccotSeries, ih, sub_eq_add_neg, ← Finset.sum_neg_distrib, Finset.sum_range_succ', add_comm]
    congr 1
    · refine Finset.sum_congr rfl (fun j _ => ?_)
      rw [show k + 1 + j = k + (j + 1) by omega, pow_succ, pow_succ]
      ring
    · simp

theorem arccotSum_error {xx : Nat} (hx : 2 ≤ xx) (n k t : Nat) (τ : ℝ) (h1 : (t : ℝ) ≤ τ) (h2 : τ ≤ t + 2) :
    |(arccotSum xx n k t : ℝ) - arccotSeries (1 / xx) τ n k| ≤ 3 * n := by
  induction n generalizing k t τ with
  | zero => simp [arccotSum, arccotSeries]
  | succ n ih =>
    have hxr : (2 : ℝ) ≤ xx := by exact_mod_cast hx
    have hk : (0 : ℝ) < 2 * k + 1 := by positivity
    have hk1 : (1 : ℝ) ≤ 2 * k + 1 := by
      have : (0 : ℝ) ≤ k := Nat.cast_nonneg k
      linarith
    have lo : ((t / (2 * k + 1) : Nat) : ℝ) ≤ t / (2 * k + 1) := by
      have := natDiv_le_real t (2 * k + 1)
      push_cast at this
      exact this
    have hi : (t : ℝ) / (2 * k + 1) < ((t / (2 * k + 1) : Nat) : ℝ) + 1 := by
      have := real_lt_natDiv t (b := 2 * k + 1) (by omega)
      push_cast at this
      exact this
    have g1 : (t : ℝ) / (2 * k + 1) ≤ τ / (2 * k + 1) := by gcongr
    have g2 : τ / (2 * k + 1) ≤ (t : ℝ) / (2 * k + 1) + 2 := by
      rw [div_le_iff₀ hk, add_mul, div_mul_cancel₀ _ hk.ne']
      nlinarith
    have l1 := natDiv_le_real t xx
    have l2 := real_lt_natDiv t (b := xx) (by omega)
    have r1 : ((t / xx : Nat) : ℝ) ≤ τ * (1 / xx) := by
      rw [mul_one_div]
      exact le_trans l1 (by gcongr)
    have r2 : τ * (1 / xx) ≤ ((t / xx : Nat) : ℝ) + 2 := by
      rw [mul_one_div]
      have : τ / xx ≤ t / xx + 1 := by
        rw [div_le_iff₀ (by linarith), add_mul, div_mul_cancel₀ _ (by linarith)]
        linarith
      linarith
    have := ih (k + 1) (t / xx) (τ * (1 / xx)) r1 r2
    simp only [arccotSum, arccotSeries]
    rw [Int.cast_sub, Int.cast_natCast, Nat.cast_succ]
    rw [abs_le] at this ⊢
    constructor <;> linarith

/-- The tail of the arctangent's series. -/
theorem arctan_tail {y : ℝ} (h0 : 0 ≤ y) (h1 : y ≤ 1 / 5) (n : Nat) :
    |Real.arctan y - ∑ j ∈ Finset.range n, (-1) ^ j * y ^ (2 * j + 1) / ((2 * j + 1 : Nat) : ℝ)| ≤ y ^ (2 * n) := by
  have hs := Real.hasSum_arctan (x := y) (by rw [Real.norm_of_nonneg h0]; linarith)
  have hyy : y ^ 2 < 1 := by nlinarith
  have hg : HasSum (fun j : Nat => y ^ (2 * n + 1) * (y ^ 2) ^ j) (y ^ (2 * n + 1) * (1 - y ^ 2)⁻¹) :=
    (hasSum_geometric_of_lt_one (by positivity) hyy).mul_left _
  have ht := (hasSum_nat_add_iff (f := fun j : Nat => (-1) ^ j * y ^ (2 * j + 1) / ((2 * j + 1 : Nat) : ℝ)) n (g :=
    Real.arctan y - ∑ j ∈ Finset.range n, (-1) ^ j * y ^ (2 * j + 1) / ((2 * j + 1 : Nat) : ℝ))).mpr
      (by rw [sub_add_cancel]; exact hs)
  have hb := HasSum.norm_le_of_bounded ht hg (fun j => by
    rw [norm_div, norm_mul, norm_pow, norm_neg, norm_one, one_pow, one_mul, norm_pow, Real.norm_of_nonneg h0,
      Real.norm_of_nonneg (Nat.cast_nonneg _)]
    rw [← pow_mul, ← pow_add, show 2 * n + 1 + 2 * j = 2 * (j + n) + 1 by ring]
    refine div_le_self (by positivity) ?_
    exact_mod_cast (by omega : 1 ≤ 2 * (j + n) + 1))
  rw [Real.norm_eq_abs] at hb
  refine le_trans hb ?_
  rw [pow_succ, mul_assoc]
  refine mul_le_of_le_one_right (by positivity) ?_
  rw [← div_eq_mul_inv, div_le_one (by linarith)]
  nlinarith

theorem pow_le_pow_quarter (w : Nat) : 2 ^ w ≤ 25 ^ (w / 4 + 1) := by
  calc 2 ^ w ≤ 2 ^ (4 * (w / 4 + 1)) := Nat.pow_le_pow_right (by omega) (by omega)
    _ = 16 ^ (w / 4 + 1) := by rw [pow_mul]; norm_num
    _ ≤ 25 ^ (w / 4 + 1) := Nat.pow_le_pow_left (by omega) _

/-- `arccot` lies near arctan (1 / x). -/
theorem arccot_error (w : Nat) {x : Nat} (hx : 5 ≤ x) :
    |(arccot w x : ℝ) - 2 ^ w * Real.arctan ((x : ℝ)⁻¹)| ≤ 3 * (w / 4 + 1 : Nat) + 1 := by
  have hxr : (5 : ℝ) ≤ x := by exact_mod_cast hx
  have hx0 : (x : ℝ) ≠ 0 := by linarith
  have e1 := arccotSum_error (xx := x * x) (by nlinarith) (w / 4 + 1) 0 (2 ^ w / x) (2 ^ w / x)
    (by have := natDiv_le_real (2 ^ w) x; push_cast at this; exact this)
    (by have := real_lt_natDiv (2 ^ w) (b := x) (by omega); push_cast at this; linarith)
  have hy1 : (x : ℝ)⁻¹ ≤ 1 / 5 := by
    rw [one_div]
    exact inv_anti₀ (by norm_num) hxr
  have e2 := arctan_tail (y := (x : ℝ)⁻¹) (by positivity) hy1 (w / 4 + 1)
  have e3 : arccotSeries (1 / ((x * x : Nat) : ℝ)) (2 ^ w / x) (w / 4 + 1) 0 =
      2 ^ w * ∑ j ∈ Finset.range (w / 4 + 1), (-1) ^ j * (x : ℝ)⁻¹ ^ (2 * j + 1) / ((2 * j + 1 : Nat) : ℝ) := by
    rw [arccotSeries_eq, Finset.mul_sum]
    refine Finset.sum_congr rfl (fun j _ => ?_)
    push_cast
    rw [pow_succ, pow_mul]
    field_simp
    ring
  have e4 : (2 : ℝ) ^ w * (x : ℝ)⁻¹ ^ (2 * (w / 4 + 1)) ≤ 1 := by
    have h25 : ((x : ℝ)⁻¹ ^ (2 * (w / 4 + 1))) ≤ (1 / 25) ^ (w / 4 + 1) := by
      rw [pow_mul]
      refine pow_le_pow_left₀ (by positivity) ?_ _
      nlinarith [inv_nonneg.mpr (show (0 : ℝ) ≤ x by linarith)]
    have h2 : (2 : ℝ) ^ w ≤ 25 ^ (w / 4 + 1) := by exact_mod_cast pow_le_pow_quarter w
    calc (2 : ℝ) ^ w * (x : ℝ)⁻¹ ^ (2 * (w / 4 + 1)) ≤ 25 ^ (w / 4 + 1) * (1 / 25) ^ (w / 4 + 1) := by gcongr
      _ = 1 := by rw [← mul_pow]; norm_num
  rw [e3] at e1
  have e5 := mul_le_mul_of_nonneg_left e2 (show (0 : ℝ) ≤ 2 ^ w by positivity)
  rw [← abs_of_nonneg (show (0 : ℝ) ≤ 2 ^ w by positivity), ← abs_mul,
    abs_of_nonneg (show (0 : ℝ) ≤ 2 ^ w by positivity), mul_sub] at e5
  have e6 := le_trans e5 e4
  unfold arccot
  rw [abs_le] at e1 e6 ⊢
  constructor <;> linarith

/-- How far `piScaled` may lie from π, in units of 2^−w. -/
def piError (w : Nat) : Nat := 15 * w + 80

theorem piScaled_int (w : Nat) :
    |((4 * (4 * arccot w 5 - arccot w 239) : Int) : ℝ) - 2 ^ w * Real.pi| ≤ piError w := by
  have h1 := arccot_error w (x := 5) (by omega)
  have h2 := arccot_error w (x := 239) (by omega)
  have hpi := Real.four_mul_arctan_inv_5_sub_arctan_inv_239
  have hq : ((w / 4 + 1 : Nat) : ℝ) ≤ w / 4 + 1 := by
    have := natDiv_le_real w 4
    push_cast at this ⊢
    linarith
  have hpi' : 2 ^ w * Real.pi = 4 * (4 * (2 ^ w * Real.arctan 5⁻¹) - 2 ^ w * Real.arctan 239⁻¹) := by
    have : Real.pi = 4 * (4 * Real.arctan 5⁻¹ - Real.arctan 239⁻¹) := by linarith
    rw [this]
    ring
  rw [hpi']
  unfold piError
  push_cast at h1 h2 hq ⊢
  rw [abs_le] at h1 h2 ⊢
  constructor <;> linarith

/-- 15 w + 80 is far below 2^w. -/
theorem piError_small {w : Nat} (hw : 64 ≤ w) : 100 * piError w ≤ 2 ^ w := by
  unfold piError
  induction w, hw using Nat.le_induction with
  | base => norm_num
  | succ w hw ih =>
    rw [pow_succ]
    omega

/-- `piScaled` lies near π. -/
theorem piScaled_error {w : Nat} (hw : 64 ≤ w) : |(piScaled w : ℝ) - 2 ^ w * Real.pi| ≤ piError w := by
  have h := piScaled_int w
  have hs : (100 * piError w : ℝ) ≤ 2 ^ w := by exact_mod_cast piError_small hw
  have hpi : (3 : ℝ) < Real.pi := Real.pi_gt_three
  have hpos : (0 : Int) ≤ 4 * (4 * arccot w 5 - arccot w 239) := by
    have : (0 : ℝ) ≤ ((4 * (4 * arccot w 5 - arccot w 239) : Int) : ℝ) := by
      rw [abs_le] at h
      have h2 : (0 : ℝ) < 2 ^ w := by positivity
      have h0 : (0 : ℝ) ≤ piError w := Nat.cast_nonneg _
      nlinarith
    exact_mod_cast this
  have : (piScaled w : ℝ) = ((4 * (4 * arccot w 5 - arccot w 239) : Int) : ℝ) := by
    unfold piScaled
    have := Int.toNat_of_nonneg hpos
    exact_mod_cast this
  rw [this]
  exact h

/-! ### Sines -/

/-- The exact series `sinSum` follows: the terms from number k on, of which the first is τ. -/
noncomputable def sinSeries (x τ : ℝ) : Nat → Nat → ℝ
  | 0, _ => 0
  | n + 1, k => τ - sinSeries x (τ * x ^ 2 / ((2 * k + 2) * (2 * k + 3))) n (k + 1)

theorem sinSeries_eq (x c : ℝ) (n k : Nat) :
    sinSeries x (c * x ^ (2 * k + 1) / (2 * k + 1).factorial) n k =
      c * ∑ j ∈ Finset.range n, (-1) ^ j * x ^ (2 * (k + j) + 1) / (2 * (k + j) + 1).factorial := by
  induction n generalizing k with
  | zero => simp [sinSeries]
  | succ n ih =>
    have hnext : c * x ^ (2 * k + 1) / ((2 * k + 1).factorial : ℝ) * x ^ 2 / ((2 * k + 2) * (2 * k + 3)) =
        c * x ^ (2 * (k + 1) + 1) / ((2 * (k + 1) + 1).factorial : ℝ) := by
      have hf : (2 * (k + 1) + 1).factorial = (2 * k + 3) * ((2 * k + 2) * (2 * k + 1).factorial) := by
        rw [show 2 * (k + 1) + 1 = 2 * k + 2 + 1 by ring, Nat.factorial_succ, show 2 * k + 2 = 2 * k + 1 + 1 by ring,
          Nat.factorial_succ]
      have hf0 : ((2 * k + 1).factorial : ℝ) ≠ 0 := by exact_mod_cast Nat.factorial_ne_zero _
      rw [hf, show 2 * (k + 1) + 1 = 2 * k + 1 + 2 by ring, pow_add]
      push_cast
      field_simp
      ring
    rw [sinSeries, hnext, ih, Finset.sum_range_succ', mul_add, sub_eq_add_neg, add_comm]
    congr 1
    · rw [← mul_neg, ← Finset.sum_neg_distrib]
      congr 1
      refine Finset.sum_congr rfl (fun j _ => ?_)
      rw [show k + 1 + j = k + (j + 1) by omega, pow_succ]
      ring
    · simp only [Nat.add_zero, pow_zero, one_mul, mul_div_assoc]

/-- The tail of the sine's series. -/
theorem sin_tail {x : ℝ} (h0 : 0 ≤ x) (h1 : x ≤ 8 / 5) {n : Nat} (hn : 9 ≤ n) :
    |Real.sin x - ∑ j ∈ Finset.range n, (-1) ^ j * x ^ (2 * j + 1) / ((2 * j + 1).factorial : ℝ)| ≤
      x ^ (2 * n) / ((2 * n).factorial : ℝ) * 2 := by
  have hb := Complex.exp_bound' (x := (x : ℂ) * Complex.I) (n := 2 * n) (by
    rw [norm_mul, Complex.norm_I, mul_one, Complex.norm_real, Real.norm_of_nonneg h0,
      div_le_div_iff₀ (by positivity) (by norm_num)]
    have : (9 : ℝ) ≤ n := by exact_mod_cast hn
    push_cast
    linarith)
  rw [norm_mul, Complex.norm_I, mul_one, Complex.norm_real, Real.norm_of_nonneg h0] at hb
  refine le_trans ?_ hb
  refine le_trans (le_of_eq ?_) (Complex.abs_im_le_norm _)
  congr 1
  rw [Complex.sub_im, Complex.exp_ofReal_mul_I_im]
  congr 1
  rw [Complex.im_sum]
  clear hb hn
  induction n with
  | zero => simp
  | succ n ih =>
    rw [Finset.sum_range_succ, ih, show 2 * (n + 1) = 2 * n + 1 + 1 by ring, Finset.sum_range_succ,
      Finset.sum_range_succ, add_assoc]
    congr 1
    have e0 : ((x : ℂ) * Complex.I) ^ (2 * n) = (((-1) ^ n * x ^ (2 * n) : ℝ) : ℂ) := by
      rw [mul_pow, pow_mul Complex.I, Complex.I_sq]
      push_cast
      ring
    have e1 : ((x : ℂ) * Complex.I) ^ (2 * n + 1) = (((-1) ^ n * x ^ (2 * n + 1) : ℝ) : ℂ) * Complex.I := by
      rw [pow_succ, e0]
      push_cast
      ring
    rw [e0, e1, ← Complex.ofReal_natCast, ← Complex.ofReal_div, Complex.ofReal_im, zero_add,
      ← Complex.ofReal_natCast, mul_div_right_comm ((((-1) ^ n * x ^ (2 * n + 1) : ℝ)) : ℂ), ← Complex.ofReal_div,
      Complex.mul_I_im, Complex.ofReal_re]

theorem factorial_large {n : Nat} (hn : 9 ≤ n) : 2 * 3 ^ n * 16 ^ (n - 8) ≤ (2 * n).factorial := by
  induction n, hn using Nat.le_induction with
  | base => decide
  | succ n hn ih =>
    rw [show 2 * (n + 1) = 2 * n + 1 + 1 by ring, Nat.factorial_succ, Nat.factorial_succ,
      show n + 1 - 8 = n - 8 + 1 by omega, pow_succ, pow_succ]
    calc 2 * (3 ^ n * 3) * (16 ^ (n - 8) * 16) = 48 * (2 * 3 ^ n * 16 ^ (n - 8)) := by ring
      _ ≤ (2 * n + 1 + 1) * (2 * n + 1) * (2 * n).factorial := Nat.mul_le_mul (by nlinarith) ih
      _ = _ := by ring

/-- The tail after w/4 + 9 terms is at most 2^−w. -/
theorem sin_tail_small {x : ℝ} (h0 : 0 ≤ x) (h1 : x ≤ 8 / 5) {w n : Nat} (hn : n = w / 4 + 9) :
    (2 : ℝ) ^ w * (x ^ (2 * n) / ((2 * n).factorial : ℝ) * 2) ≤ 1 := by
  have hf : ((2 * 3 ^ n * 16 ^ (n - 8) : Nat) : ℝ) ≤ ((2 * n).factorial : ℝ) :=
    Nat.cast_le.mpr (factorial_large (by omega))
  have hp : x ^ (2 * n) ≤ 3 ^ n := by
    rw [pow_mul]
    exact pow_le_pow_left₀ (by positivity) (by nlinarith) _
  have h16 : ((2 ^ w : Nat) : ℝ) ≤ ((16 ^ (n - 8) : Nat) : ℝ) := by
    refine Nat.cast_le.mpr ?_
    calc 2 ^ w ≤ 2 ^ (4 * (n - 8)) := Nat.pow_le_pow_right (by omega) (by omega)
      _ = _ := by rw [pow_mul]; norm_num
  have hf0 : (0 : ℝ) < ((2 * n).factorial : ℝ) := Nat.cast_pos.mpr (Nat.factorial_pos _)
  push_cast at hf h16
  rw [div_mul_eq_mul_div, ← mul_div_assoc, div_le_one hf0]
  refine le_trans ?_ hf
  calc (2 : ℝ) ^ w * (x ^ (2 * n) * 2) ≤ 16 ^ (n - 8) * (3 ^ n * 2) := by gcongr
    _ = _ := by ring

theorem sinSum_error {w x : Nat} (hx : (x : ℝ) ≤ 8 / 5 * 2 ^ w) (n k t : Nat) (τ : ℝ) (h1 : (t : ℝ) ≤ τ)
    (h2 : τ ≤ t + 3) (h3 : (t : ℝ) ≤ 8 / 5 * 2 ^ w) :
    |(sinSum w (x * x / 2 ^ w) n k t : ℝ) - sinSeries (x / 2 ^ w) τ n k| ≤ 3 * n := by
  induction n generalizing k t τ with
  | zero => simp [sinSum, sinSeries]
  | succ n ih =>
    have hW : (0 : ℝ) < 2 ^ w := by positivity
    set W : ℝ := 2 ^ w with hWdef
    set X : ℝ := x / W with hX
    have hX0 : 0 ≤ X := by positivity
    have hX1 : X ≤ 8 / 5 := by
      rw [hX, div_le_iff₀ hW]
      exact hx
    have ht0 : (0 : ℝ) ≤ t := Nat.cast_nonneg t
    -- the square of the argument
    have a1 := natDiv_le_real (x * x) (2 ^ w)
    have a2 := real_lt_natDiv (x * x) (b := 2 ^ w) (by positivity)
    set xx := x * x / 2 ^ w
    push_cast at a1 a2
    rw [← hWdef] at a1 a2
    have exx : (x : ℝ) * x / W = X ^ 2 * W := by
      rw [hX]
      field_simp
    rw [exx] at a1 a2
    -- the product
    have b1 := natDiv_le_real (t * xx) (2 ^ w)
    have b2 := real_lt_natDiv (t * xx) (b := 2 ^ w) (by positivity)
    set s := t * xx / 2 ^ w
    push_cast at b1 b2
    rw [← hWdef] at b1 b2
    have c1 : (t : ℝ) * xx / W ≤ t * X ^ 2 := by
      rw [div_le_iff₀ hW]
      nlinarith
    have c2 : (t : ℝ) * X ^ 2 - 8 / 5 ≤ t * xx / W := by
      rw [le_div_iff₀ hW]
      nlinarith
    have s1 : (s : ℝ) ≤ t * X ^ 2 := le_trans b1 c1
    have s2 : (t : ℝ) * X ^ 2 ≤ s + 13 / 5 := by linarith
    -- the quotient
    have hm : 0 < (2 * k + 2) * (2 * k + 3) := by positivity
    have d1 := natDiv_le_real s ((2 * k + 2) * (2 * k + 3))
    have d2 := real_lt_natDiv s hm
    set t' := s / ((2 * k + 2) * (2 * k + 3))
    push_cast at d1 d2
    have hk : (0 : ℝ) ≤ k := Nat.cast_nonneg k
    have hM : (6 : ℝ) ≤ (2 * k + 2) * (2 * k + 3) := by nlinarith
    set M : ℝ := (2 * k + 2) * (2 * k + 3)
    have hM0 : (0 : ℝ) < M := by linarith
    have hXX : X ^ 2 ≤ 64 / 25 := by nlinarith
    have r1 : (t' : ℝ) ≤ τ * X ^ 2 / M := by
      refine le_trans d1 ?_
      gcongr
      nlinarith
    have r2 : τ * X ^ 2 / M ≤ t' + 3 := by
      have : τ * X ^ 2 ≤ s + 12 := by nlinarith [sq_nonneg X]
      have h12 : τ * X ^ 2 / M ≤ s / M + 2 := by
        rw [div_le_iff₀ hM0, add_mul, div_mul_cancel₀ _ hM0.ne']
        linarith
      linarith
    have r3 : (t' : ℝ) ≤ 8 / 5 * W := by
      refine le_trans d1 ?_
      rw [div_le_iff₀ hM0]
      nlinarith
    have := ih (k + 1) t' (τ * X ^ 2 / M) r1 r2 r3
    simp only [sinSum, sinSeries]
    rw [Int.cast_sub, Int.cast_natCast, Nat.cast_succ]
    rw [abs_le] at this ⊢
    constructor <;> linarith

/-- `sinScaled` lies near the sine of its argument. -/
theorem sinScaled_error {w x : Nat} (hx : (x : ℝ) ≤ 8 / 5 * 2 ^ w) :
    |(sinScaled w x : ℝ) - 2 ^ w * Real.sin (x / 2 ^ w)| ≤ 3 * (w / 4 + 9 : Nat) + 1 := by
  have hW : (0 : ℝ) < 2 ^ w := by positivity
  have hX0 : (0 : ℝ) ≤ x / 2 ^ w := by positivity
  have hX1 : (x : ℝ) / 2 ^ w ≤ 8 / 5 := by
    rw [div_le_iff₀ hW]
    exact hx
  unfold sinScaled
  obtain ⟨n, hn⟩ : ∃ n, n = w / 4 + 9 := ⟨_, rfl⟩
  rw [← hn]
  have e1 := sinSum_error hx n 0 x x (le_refl _) (by linarith) hx
  have e2 := sin_tail hX0 hX1 (n := n) (by omega)
  have e3 := sinSeries_eq (x / 2 ^ w) (2 ^ w) n 0
  simp only [Nat.mul_zero, Nat.zero_add, pow_one, Nat.factorial_one, Nat.cast_one, div_one] at e3
  rw [mul_div_cancel₀ _ hW.ne'] at e3
  rw [e3] at e1
  have e5 := mul_le_mul_of_nonneg_left e2 hW.le
  rw [← abs_of_nonneg hW.le, ← abs_mul, abs_of_nonneg hW.le, mul_sub] at e5
  have e6 := le_trans e5 (sin_tail_small hX0 hX1 hn)
  rw [abs_le] at e1 e6 ⊢
  constructor <;> linarith

/-- `sinTurn` lies near the sine of its part of a turn. -/
theorem sinTurn_error {w p q : Nat} (hw : 64 ≤ w) (hq : 0 < q) (hpq : 4 * p ≤ q) :
    |(sinTurn w (piScaled w) p q : ℝ) - 2 ^ w * Real.sin (2 * Real.pi * p / q)| ≤ sinError w := by
  have hW : (0 : ℝ) < 2 ^ w := by positivity
  have hq0 : (0 : ℝ) < q := by exact_mod_cast hq
  have hpqr : 4 * (p : ℝ) ≤ q := by exact_mod_cast hpq
  have hp0 : (0 : ℝ) ≤ p := Nat.cast_nonneg p
  have hpi := piScaled_error hw
  have hsmall : (100 * piError w : ℝ) ≤ 2 ^ w := by exact_mod_cast piError_small hw
  have hE0 : (0 : ℝ) ≤ piError w := Nat.cast_nonneg _
  have x1 := natDiv_le_real (2 * piScaled w * p) q
  have x2 := real_lt_natDiv (2 * piScaled w * p) hq
  unfold sinTurn
  set x := 2 * piScaled w * p / q
  push_cast at x1 x2
  have hfrac : (p : ℝ) / q ≤ 1 / 4 := by
    rw [div_le_div_iff₀ hq0 (by norm_num)]
    linarith
  have hfrac0 : (0 : ℝ) ≤ p / q := by positivity
  have eang : 2 * (piScaled w : ℝ) * p / q = 2 * (piScaled w : ℝ) * (p / q) := by ring
  rw [eang] at x1 x2
  have hang : |(x : ℝ) - 2 ^ w * (2 * Real.pi * p / q)| ≤ piError w / 2 + 1 := by
    have : (2 : ℝ) ^ w * (2 * Real.pi * p / q) = 2 * (2 ^ w * Real.pi) * (p / q) := by ring
    rw [this]
    rw [abs_le] at hpi ⊢
    constructor <;> nlinarith
  have hxle : (x : ℝ) ≤ 8 / 5 * 2 ^ w := by
    have hpi4 := Real.pi_lt_d2
    rw [abs_le] at hpi
    have : (piScaled w : ℝ) ≤ 3.16 * 2 ^ w := by nlinarith
    nlinarith
  have e1 := sinScaled_error hxle
  have e2 := Real.abs_sin_sub_sin_le (x / 2 ^ w) (2 * Real.pi * p / q)
  have e3 : |2 ^ w * Real.sin (x / 2 ^ w) - 2 ^ w * Real.sin (2 * Real.pi * p / q)| ≤ piError w / 2 + 1 := by
    rw [← mul_sub, abs_mul, abs_of_pos hW]
    refine le_trans (mul_le_mul_of_nonneg_left e2 hW.le) ?_
    rw [← abs_of_pos hW, ← abs_mul, abs_of_pos hW, mul_sub, mul_div_cancel₀ _ hW.ne']
    exact hang
  have hq4 : ((w / 4 + 9 : Nat) : ℝ) ≤ w / 4 + 9 := by
    have := natDiv_le_real w 4
    push_cast at this ⊢
    linarith
  have hw0 : (0 : ℝ) ≤ w := Nat.cast_nonneg w
  unfold piError at e3
  unfold sinError
  push_cast at e3 hq4 ⊢
  push_cast at e1
  rw [abs_le] at e1 e3 ⊢
  constructor <;> linarith

end Sys2Proof.Machine
end

