-- ==== Sys2Proof/Laws/Roots.lean ====
section
/-! SUPPORT. Sums of sines as integer combinations of roots of unity (Machine/Numerics.lean, log entry 4): the
enclosure of such a sum, the exact zero test, and how near 0 a sum that is not 0 can lie. -/

namespace Sys2Proof.Machine

/-! ### The sum and its enclosure -/

/-- The real number Σ a sin(2π p / q). -/
noncomputable def Sines.value (ss : Sines) : ℝ :=
  (ss.map (fun s => (s.1 : ℝ) * Real.sin (2 * Real.pi * s.2.1 / s.2.2))).sum

/-- Every summand's part of a turn lies in the first quarter turn. -/
def Sines.Ok (ss : Sines) : Prop := ∀ s ∈ ss, 0 < s.2.2 ∧ 4 * s.2.1 ≤ s.2.2

@[simp] theorem Sines.value_nil : Sines.value [] = 0 := rfl

@[simp] theorem Sines.value_cons (s : Int × Nat × Nat) (ss : Sines) :
    Sines.value (s :: ss) = (s.1 : ℝ) * Real.sin (2 * Real.pi * s.2.1 / s.2.2) + Sines.value ss := by
  simp [Sines.value]

@[simp] theorem Sines.amplitude_cons (s : Int × Nat × Nat) (ss : Sines) :
    Sines.amplitude (s :: ss) = s.1.natAbs + Sines.amplitude ss := by
  simp [Sines.amplitude]

theorem Sines.Ok.tail {s : Int × Nat × Nat} {ss : Sines} (h : Sines.Ok (s :: ss)) : Sines.Ok ss :=
  fun t ht => h t (List.mem_cons_of_mem _ ht)

/-- `twiceSum` lies near twice the sum. -/
theorem twiceSum_error {w : Nat} (hw : 64 ≤ w) (h : Int) {ss : Sines} (ok : ss.Ok) :
    |(twiceSum w h ss : ℝ) - 2 ^ w * (h + 2 * ss.value)| ≤ twiceSumError w ss := by
  have key : |((ss.map (fun s => 2 * s.1 * sinTurn w (piScaled w) s.2.1 s.2.2)).sum : ℝ) -
      2 ^ w * (2 * ss.value)| ≤ twiceSumError w ss := by
    unfold twiceSumError
    induction ss with
    | nil => simp [Sines.amplitude]
    | cons s ss ih =>
      have := ih ok.tail
      obtain ⟨hq, hpq⟩ := ok s (by simp)
      have e := sinTurn_error hw hq hpq
      have e2 := mul_le_mul_of_nonneg_left e (abs_nonneg (2 * (s.1 : ℝ)))
      rw [← abs_mul] at e2
      rw [List.map_cons, List.sum_cons, Sines.value_cons, Sines.amplitude_cons]
      have ha : ((s.1.natAbs : Nat) : ℝ) = |(s.1 : ℝ)| := by
        rw [Nat.cast_natAbs, Int.cast_abs]
      push_cast at this ⊢
      rw [ha]
      have h2 : |2 * (s.1 : ℝ)| = 2 * |(s.1 : ℝ)| := by rw [abs_mul, abs_of_pos (show (0 : ℝ) < 2 by norm_num)]
      rw [abs_mul, h2] at e2
      have split : (2 * (s.1 : ℝ) * (sinTurn w (piScaled w) s.2.1 s.2.2 : ℝ) +
          ((ss.map (fun s => 2 * s.1 * sinTurn w (piScaled w) s.2.1 s.2.2)).sum : ℝ)) -
          2 ^ w * (2 * ((s.1 : ℝ) * Real.sin (2 * Real.pi * s.2.1 / s.2.2) + Sines.value ss)) =
          2 * (s.1 : ℝ) * ((sinTurn w (piScaled w) s.2.1 s.2.2 : ℝ) - 2 ^ w * Real.sin (2 * Real.pi * s.2.1 / s.2.2)) +
          (((ss.map (fun s => 2 * s.1 * sinTurn w (piScaled w) s.2.1 s.2.2)).sum : ℝ) - 2 ^ w * (2 * Sines.value ss)) := by
        ring
      push_cast at split
      rw [split]
      refine le_trans (abs_add_le _ _) ?_
      rw [abs_mul, h2]
      linarith
  unfold twiceSum
  simp only
  push_cast at key ⊢
  rw [show (2 : ℝ) ^ w * ((h : ℝ) + 2 * ss.value) = (h : ℝ) * 2 ^ w + 2 ^ w * (2 * ss.value) by ring,
    add_sub_add_left_eq_sub]
  exact key

/-! ### Roots of unity -/

/-- The root of unity of a part of a turn. -/
noncomputable def turn (n d : Nat) : ℂ := Complex.exp (2 * Real.pi * Complex.I * (n / d))

/-- The complex number a list of summands stands for. -/
noncomputable def turnsValue (ts : List (Int × Nat × Nat)) : ℂ :=
  (ts.map (fun t => (t.1 : ℂ) * turn t.2.1 t.2.2)).sum

@[simp] theorem turnsValue_cons (t : Int × Nat × Nat) (ts : List (Int × Nat × Nat)) :
    turnsValue (t :: ts) = (t.1 : ℂ) * turn t.2.1 t.2.2 + turnsValue ts := by
  simp [turnsValue]

theorem turn_sine {p q : Nat} (hq : 0 < q) (hpq : 4 * p ≤ q) :
    turn (q - 4 * p) (4 * q) + turn (3 * q + 4 * p) (4 * q) =
      ((2 * Real.sin (2 * Real.pi * p / q) : ℝ) : ℂ) := by
  have hq0 : (q : ℂ) ≠ 0 := by exact_mod_cast hq.ne'
  set θ : ℝ := Real.pi / 2 - 2 * Real.pi * p / q with hθ
  have h1 : turn (q - 4 * p) (4 * q) = Complex.exp (θ * Complex.I) := by
    unfold turn
    congr 1
    rw [hθ, Nat.cast_sub hpq]
    push_cast
    field_simp
    ring
  have h2 : turn (3 * q + 4 * p) (4 * q) = Complex.exp (-(θ : ℂ) * Complex.I) := by
    unfold turn
    rw [show 2 * (Real.pi : ℂ) * Complex.I * (((3 * q + 4 * p : Nat) : ℂ) / ((4 * q : Nat) : ℂ)) =
        -(θ : ℂ) * Complex.I + 2 * Real.pi * Complex.I by
      rw [hθ]
      push_cast
      field_simp
      ring, Complex.exp_add, Complex.exp_two_pi_mul_I, mul_one]
  rw [h1, h2, ← Complex.two_cos]
  rw [← Complex.ofReal_cos, hθ, Real.cos_pi_div_two_sub]
  push_cast
  ring

/-- The summands of c plus twice a sum of sines stand for that number. -/
theorem turnsValue_cosineTurns (c : Int) {ss : Sines} (ok : ss.Ok) :
    turnsValue (cosineTurns c ss) = ((c + 2 * ss.value : ℝ) : ℂ) := by
  unfold cosineTurns
  rw [turnsValue_cons]
  have h0 : turn 0 1 = 1 := by simp [turn]
  simp only [h0, mul_one]
  push_cast
  congr 1
  induction ss with
  | nil => simp [turnsValue]
  | cons s ss ih =>
    obtain ⟨hq, hpq⟩ := ok s (by simp)
    have e := turn_sine hq hpq
    push_cast at e
    rw [List.flatMap_cons, List.cons_append, List.cons_append, List.nil_append, turnsValue_cons, turnsValue_cons,
      ih ok.tail, Sines.value_cons]
    push_cast
    linear_combination (s.1 : ℂ) * e

/-! ### The exact zero test -/

/-- A sum over a list is the sum over the classes of its members. -/
theorem sum_by_class {α : Type} (p : Nat) (c : α → Nat) (f : α → ℂ) (ts : List α) (h : ∀ t ∈ ts, c t < p) :
    (ts.map f).sum = ∑ u ∈ Finset.range p, ((ts.filter (fun t => c t == u)).map f).sum := by
  induction ts with
  | nil => simp
  | cons t ts ih =>
    rw [List.map_cons, List.sum_cons, ih (fun u hu => h u (List.mem_cons_of_mem _ hu))]
    have ht := h t (by simp)
    rw [← Finset.sum_erase_add _ _ (Finset.mem_range.mpr ht), ← Finset.sum_erase_add (a := c t) (Finset.range p)
      (fun u => (((t :: ts).filter (fun t => c t == u)).map f).sum) (Finset.mem_range.mpr ht)]
    rw [List.filter_cons, if_pos (by simp), List.map_cons, List.sum_cons, add_left_comm]
    congr 1
    refine Finset.sum_congr rfl (fun u hu => ?_)
    rw [List.filter_cons, if_neg]
    have := Finset.ne_of_mem_erase hu
    simpa using this.symm

/-- The value of powers of a product of roots of unity. -/
theorem rootsVanish_sound (η : Nat → ℂ) (ps : List Nat)
    (hη : ∀ p ∈ ps, 0 < p ∧ η p ^ p = 1 ∧ ∑ u ∈ Finset.range p, η p ^ u = 0) (ts : List (Int × Nat))
    (h : rootsVanish ps ts = true) :
    (ts.map (fun t => (t.1 : ℂ) * (ps.map η).prod ^ t.2)).sum = 0 := by
  induction ps generalizing ts with
  | nil =>
    simp only [rootsVanish, beq_iff_eq] at h
    simp only [List.map_nil, List.prod_nil, one_pow, mul_one]
    have : ((ts.map (fun t => (t.1 : ℂ))).sum) = (((ts.map Prod.fst).sum : Int) : ℂ) := by
      clear h
      induction ts with
      | nil => simp
      | cons t ts ih => simp [ih]
    rw [this, h, Int.cast_zero]
  | cons p ps ih =>
    obtain ⟨hp, hpow, hsum⟩ := hη p (by simp)
    have ih := ih (fun r hr => hη r (List.mem_cons_of_mem _ hr))
    set Z := (ps.map η).prod with hZ
    simp only [rootsVanish, List.all_eq_true, List.mem_range, Bool.or_eq_true, beq_iff_eq] at h
    set S : Nat → ℂ := fun u => ((ts.filter (fun t => t.2 % p == u)).map (fun t => (t.1 : ℂ) * Z ^ t.2)).sum
    have hS : ∀ u < p, S u = S 0 := by
      intro u hu
      rcases h u hu with rfl | h
      · rfl
      · have := ih _ h
        rw [List.map_append, List.sum_append, List.map_map] at this
        have hneg : ((ts.filter (fun t => t.2 % p == 0)).map ((fun t : Int × Nat => (t.1 : ℂ) * Z ^ t.2) ∘
            fun t => (-t.1, t.2))).sum = -S 0 := by
          show _ = -((ts.filter (fun t => t.2 % p == 0)).map (fun t => (t.1 : ℂ) * Z ^ t.2)).sum
          generalize ts.filter (fun t => t.2 % p == 0) = us
          induction us with
          | nil => simp
          | cons t us ih =>
            simp only [List.map_cons, List.sum_cons, Function.comp_apply] at ih ⊢
            rw [ih]
            push_cast
            ring
        rw [hneg] at this
        exact sub_eq_zero.mp (by simpa [sub_eq_add_neg] using this)
    have hexp : ∀ t : Int × Nat, (t.1 : ℂ) * (List.map η (p :: ps)).prod ^ t.2 =
        η p ^ (t.2 % p) * ((t.1 : ℂ) * Z ^ t.2) := by
      intro t
      rw [List.map_cons, List.prod_cons, mul_pow]
      have : η p ^ t.2 = η p ^ (t.2 % p) := by
        conv_lhs => rw [← Nat.div_add_mod t.2 p, pow_add, pow_mul, hpow, one_pow, one_mul]
      rw [this]
      ring
    rw [sum_by_class p (fun t => t.2 % p) _ ts (fun t _ => Nat.mod_lt _ hp)]
    have hterm : ∀ u ∈ Finset.range p, ((ts.filter (fun t => t.2 % p == u)).map
        (fun t => (t.1 : ℂ) * (List.map η (p :: ps)).prod ^ t.2)).sum = η p ^ u * S 0 := by
      intro u hu
      rw [← hS u (Finset.mem_range.mp hu), ← List.sum_map_mul_left]
      congr 1
      refine List.map_congr_left (fun t ht => ?_)
      rw [hexp t]
      have : t.2 % p = u := by simpa using (List.mem_filter.mp ht).2
      rw [this]
    rw [Finset.sum_congr rfl hterm, ← Finset.sum_mul, hsum, zero_mul]

/-- The first primitive 210th root of unity is a product of roots of prime orders. -/
theorem rootsVanish_210 (ts : List (Int × Nat)) (h : rootsVanish [2, 3, 5, 7] ts = true) :
    (ts.map (fun t => (t.1 : ℂ) * Complex.exp (2 * Real.pi * Complex.I / (210 : Nat)) ^ t.2)).sum = 0 := by
  have hζ := Complex.isPrimitiveRoot_exp 210 (by norm_num)
  set ζ := Complex.exp (2 * Real.pi * Complex.I / (210 : Nat))
  have key : ∀ p k : Nat, 0 < p → 210 ∣ k * p → ¬ 210 ∣ k →
      0 < p ∧ (ζ ^ k) ^ p = 1 ∧ ∑ u ∈ Finset.range p, (ζ ^ k) ^ u = 0 := by
    intro p k hp h1 h2
    have hone : (ζ ^ k) ^ p = 1 := by
      rw [← pow_mul]
      exact (hζ.pow_eq_one_iff_dvd _).mpr h1
    refine ⟨hp, hone, ?_⟩
    have hne : ζ ^ k ≠ 1 := fun e => h2 ((hζ.pow_eq_one_iff_dvd _).mp e)
    rw [geom_sum_eq hne, hone, sub_self, zero_div]
  have := rootsVanish_sound (fun p => ζ ^ (if p = 2 then 105 else if p = 3 then 70 else if p = 5 then 126 else 120))
    [2, 3, 5, 7] (by
      intro p hp
      simp only [List.mem_cons, List.not_mem_nil, or_false] at hp
      rcases hp with rfl | rfl | rfl | rfl
      · exact key 2 105 (by decide) (by decide) (by decide)
      · exact key 3 70 (by decide) (by decide) (by decide)
      · exact key 5 126 (by decide) (by decide) (by decide)
      · exact key 7 120 (by decide) (by decide) (by decide)) ts h
  have hprod : (List.map (fun p => ζ ^ (if p = 2 then 105 else if p = 3 then 70 else if p = 5 then 126 else 120))
      [2, 3, 5, 7]).prod = ζ := by
    simp only [List.map_cons, List.map_nil, List.prod_cons, List.prod_nil, mul_one]
    norm_num
    rw [← pow_add, ← pow_add, ← pow_add, show 105 + (70 + (126 + 120)) = 210 * 2 + 1 by norm_num, pow_add, pow_mul,
      hζ.pow_eq_one, one_pow, one_mul, pow_one]
  rw [hprod] at this
  exact this

/-- A member of a class is the class's first member turned by a multiple of a 210th of a turn. -/
theorem turn_sameClass {t u : Int × Nat × Nat} (ht : 0 < t.2.2) (hu : 0 < u.2.2) (h : sameClass t u = true) :
    turn u.2.1 u.2.2 =
      turn t.2.1 t.2.2 * Complex.exp (2 * Real.pi * Complex.I / (210 : Nat)) ^ (classExponent t u).2 := by
  have hζ := Complex.isPrimitiveRoot_exp 210 (by norm_num)
  simp only [sameClass, beq_iff_eq] at h
  obtain ⟨m, hm⟩ := Int.dvd_of_emod_eq_zero h
  have hd : (t.2.2 * u.2.2 : Int) ≠ 0 := by
    have : 0 < t.2.2 * u.2.2 := Nat.mul_pos ht hu
    exact_mod_cast this.ne'
  have hdiv : angleFrom t u / (t.2.2 * u.2.2) = m := by
    rw [hm]
    exact Int.mul_ediv_cancel_left _ hd
  have hexp : (classExponent t u).2 = (m % 210).toNat := by
    simp only [classExponent, hdiv]
  have hang : (u.2.1 : ℂ) / u.2.2 = t.2.1 / t.2.2 + m / 210 := by
    have ht0 : (t.2.2 : ℂ) ≠ 0 := by exact_mod_cast ht.ne'
    have hu0 : (u.2.2 : ℂ) ≠ 0 := by exact_mod_cast hu.ne'
    have : (210 * (u.2.1 * t.2.2 - t.2.1 * u.2.2) : ℂ) = t.2.2 * u.2.2 * m := by
      unfold angleFrom at hm
      exact_mod_cast hm
    field_simp
    linear_combination this
  have hpow : Complex.exp (2 * Real.pi * Complex.I / (210 : Nat)) ^ (classExponent t u).2 =
      Complex.exp (2 * Real.pi * Complex.I * (m / 210)) := by
    have e : m = 210 * (m / 210) + (m % 210).toNat := by
      rw [Int.toNat_of_nonneg (Int.emod_nonneg m (by norm_num)), Int.mul_ediv_add_emod]
    rw [hexp, ← Complex.exp_nat_mul]
    conv_rhs => rw [e]
    push_cast
    rw [show 2 * (Real.pi : ℂ) * Complex.I * ((210 * ((m / 210 : Int) : ℂ) + ((m % 210).toNat : ℂ)) / 210) =
        ((m % 210).toNat : ℂ) * (2 * Real.pi * Complex.I / 210) + ((m / 210 : Int) : ℂ) * (2 * Real.pi * Complex.I) by
      ring, Complex.exp_add, Complex.exp_int_mul_two_pi_mul_I, mul_one]
  rw [hpow]
  unfold turn
  rw [hang, mul_add, Complex.exp_add]

/-- The zero test finds no false zeros. -/
theorem turnsVanish_sound (fuel : Nat) (ts : List (Int × Nat × Nat)) (hd : ∀ t ∈ ts, 0 < t.2.2)
    (h : turnsVanish fuel ts = true) : turnsValue ts = 0 := by
  induction fuel generalizing ts with
  | zero =>
    cases ts with
    | nil => rfl
    | cons t ts => simp [turnsVanish] at h
  | succ fuel ih =>
    cases ts with
    | nil => rfl
    | cons t ts =>
      simp only [turnsVanish, Bool.and_eq_true] at h
      obtain ⟨h1, h2⟩ := h
      have hrest := ih _ (fun u hu => hd u (List.mem_of_mem_filter hu)) h2
      have hclass : turnsValue ((t :: ts).filter (sameClass t)) = 0 := by
        have hr := rootsVanish_210 _ h1
        rw [List.map_map] at hr
        have : turnsValue ((t :: ts).filter (sameClass t)) = turn t.2.1 t.2.2 *
            ((((t :: ts).filter (sameClass t)).map ((fun u : Int × Nat => (u.1 : ℂ) *
              Complex.exp (2 * Real.pi * Complex.I / (210 : Nat)) ^ u.2) ∘ classExponent t)).sum) := by
          rw [← List.sum_map_mul_left]
          unfold turnsValue
          congr 1
          refine List.map_congr_left (fun u hu => ?_)
          obtain ⟨hu1, hu2⟩ := List.mem_filter.mp hu
          rw [turn_sameClass (hd t (by simp)) (hd u hu1) hu2]
          simp only [Function.comp_apply, classExponent]
          ring
        rw [this, hr, mul_zero]
      have hsplit : turnsValue (t :: ts) =
          turnsValue ((t :: ts).filter (sameClass t)) + turnsValue ((t :: ts).filter (fun u => !sameClass t u)) := by
        clear h1 h2 hrest hclass ih hd
        unfold turnsValue
        generalize t :: ts = us
        induction us with
        | nil => simp
        | cons u us ih =>
          rw [List.map_cons, List.sum_cons, ih, List.filter_cons, List.filter_cons]
          cases sameClass t u <;> simp <;> ring
      rw [hsplit, hclass, hrest, add_zero]

theorem cosineTurns_pos (c : Int) {ss : Sines} (ok : ss.Ok) : ∀ t ∈ cosineTurns c ss, 0 < t.2.2 := by
  intro t ht
  simp only [cosineTurns, List.mem_cons, List.mem_flatMap, List.not_mem_nil, or_false] at ht
  rcases ht with rfl | ⟨s, hs, rfl | rfl⟩
  · exact Nat.one_pos
  · have := (ok s hs).1
    simp only
    omega
  · have := (ok s hs).1
    simp only
    omega

/-- Where the exact test answers yes, twice the sum is the integer. -/
theorem twiceSumIs_sound {k h : Int} {ss : Sines} (ok : ss.Ok) (hz : twiceSumIs k h ss = true) :
    (h : ℝ) + 2 * ss.value = k := by
  have := turnsVanish_sound _ _ (cosineTurns_pos _ ok) hz
  rw [turnsValue_cosineTurns _ ok] at this
  have h0 : ((h - k : Int) : ℝ) + 2 * ss.value = 0 := by exact_mod_cast this
  push_cast at h0
  linarith

/-! ### How near 0 a sum that is not 0 can lie -/

/-- The sum of the sizes of the coefficients. -/
def turnsSize (ts : List (Int × Nat)) : Nat := (ts.map (fun t => t.1.natAbs)).sum

/-- In a cyclotomic field a nonzero integer combination of powers of a primitive root is not much smaller, in
any embedding, than its conjugates are large. -/
theorem cyclotomic_separation {K : Type} [Field K] [Algebra ℚ K] {N : Nat} [NeZero N]
    [IsCyclotomicExtension {N} ℚ K] {ζ : K} (hζ : IsPrimitiveRoot ζ N) (ts : List (Int × Nat))
    (σ₀ : K →ₐ[ℚ] ℂ) (h : (ts.map (fun t => (t.1 : K) * ζ ^ t.2)).sum ≠ 0) :
    1 ≤ ‖σ₀ (ts.map (fun t => (t.1 : K) * ζ ^ t.2)).sum‖ * (max 1 (turnsSize ts : ℝ)) ^ N := by
  classical
  have hN : N ≠ 0 := NeZero.ne N
  have : FiniteDimensional ℚ K := IsCyclotomicExtension.finiteDimensional {N} ℚ K
  have : CharZero K := algebraRat.charZero K
  set α : K := (ts.map (fun t => (t.1 : K) * ζ ^ t.2)).sum with hα
  set B : ℝ := max 1 (turnsSize ts : ℝ)
  have hB1 : 1 ≤ B := le_max_left _ _
  have hbound : ∀ σ : K →ₐ[ℚ] ℂ, ‖σ α‖ ≤ B := by
    intro σ
    refine le_trans ?_ (le_max_right _ _)
    have hone : ‖σ ζ‖ = 1 := by
      refine Complex.norm_eq_one_of_pow_eq_one (n := N) ?_ hN
      rw [← map_pow, hζ.pow_eq_one, map_one]
    rw [hα]
    clear_value α
    clear h hα
    unfold turnsSize
    induction ts with
    | nil => simp
    | cons t ts ih =>
      rw [List.map_cons, List.sum_cons, List.map_cons, List.sum_cons, map_add, Nat.cast_add]
      refine le_trans (norm_add_le _ _) (add_le_add (le_of_eq ?_) (ih (le_max_left _ _)))
      rw [map_mul, map_pow, map_intCast, norm_mul, norm_pow, hone, one_pow, mul_one, Complex.norm_intCast,
        Nat.cast_natAbs, Int.cast_abs]
  have hint : IsIntegral ℤ ζ := hζ.isIntegral (Nat.pos_of_ne_zero hN)
  have hint : IsIntegral ℤ α := by
    rw [hα]
    clear_value α B
    clear h hα hbound hB1
    induction ts with
    | nil => exact isIntegral_zero
    | cons t ts ih =>
      rw [List.map_cons, List.sum_cons]
      exact IsIntegral.add (IsIntegral.mul (isIntegral_algebraMap (R := ℤ) (x := t.1)) (hint.pow t.2)) ih
  obtain ⟨m, hm⟩ := IsIntegrallyClosed.isIntegral_iff.mp (Algebra.isIntegral_norm ℚ hint)
  have hm0 : m ≠ 0 := by
    rintro rfl
    rw [map_zero] at hm
    exact h (Algebra.norm_eq_zero_iff.mp hm.symm)
  have hprod : ((m : ℤ) : ℂ) = ∏ σ : K →ₐ[ℚ] ℂ, σ α := by
    rw [← Algebra.norm_eq_prod_embeddings ℚ ℂ α, ← hm]
    simp
  have h1 : (1 : ℝ) ≤ ∏ σ : K →ₐ[ℚ] ℂ, ‖σ α‖ := by
    rw [← norm_prod, ← hprod, Complex.norm_intCast]
    exact_mod_cast Int.one_le_abs hm0
  rw [← Finset.mul_prod_erase _ _ (Finset.mem_univ σ₀)] at h1
  refine le_trans h1 (mul_le_mul_of_nonneg_left ?_ (norm_nonneg _))
  refine le_trans (Finset.prod_le_prod (fun _ _ => norm_nonneg _) (fun σ _ => hbound σ)) ?_
  rw [Finset.prod_const]
  refine pow_le_pow_right₀ hB1 ?_
  refine le_trans (Finset.card_erase_le) ?_
  rw [Finset.card_univ, AlgHom.card, IsCyclotomicExtension.finrank K (Polynomial.cyclotomic.irreducible_rat (Nat.pos_of_ne_zero hN))]
  exact Nat.totient_le N

/-- A nonzero integer combination of powers of the first N-th root of unity is not much smaller than its
conjugates are large. -/
theorem roots_separation {N : Nat} (hN : 0 < N) (ts : List (Int × Nat))
    (h : (ts.map (fun t => (t.1 : ℂ) * Complex.exp (2 * Real.pi * Complex.I / N) ^ t.2)).sum ≠ 0) :
    1 ≤ ‖(ts.map (fun t => (t.1 : ℂ) * Complex.exp (2 * Real.pi * Complex.I / N) ^ t.2)).sum‖ *
      (max 1 (turnsSize ts : ℝ)) ^ N := by
  have : NeZero N := ⟨hN.ne'⟩
  have : NeZero (N : ℚ) := ⟨by exact_mod_cast hN.ne'⟩
  obtain ⟨K, _, _, _⟩ : ∃ (K : Type) (_ : Field K) (_ : Algebra ℚ K), IsCyclotomicExtension {N} ℚ K :=
    ⟨CyclotomicField N ℚ, inferInstance, CyclotomicField.algebra N ℚ,
      CyclotomicField.isCyclotomicExtension N ℚ⟩
  have hζ : IsPrimitiveRoot (IsCyclotomicExtension.zeta N ℚ K) N := IsCyclotomicExtension.zeta_spec N ℚ K
  have hprim := Complex.isPrimitiveRoot_exp N hN.ne'
  let e := hζ.embeddingsEquivPrimitiveRoots ℂ (Polynomial.cyclotomic.irreducible_rat hN)
  let σ₀ := e.symm ⟨Complex.exp (2 * Real.pi * Complex.I / N), (mem_primitiveRoots hN).mpr hprim⟩
  have hσ₀ : σ₀ (IsCyclotomicExtension.zeta N ℚ K) = Complex.exp (2 * Real.pi * Complex.I / N) := by
    rw [← hζ.embeddingsEquivPrimitiveRoots_apply_coe ℂ (Polynomial.cyclotomic.irreducible_rat hN) σ₀]
    exact congrArg Subtype.val (e.apply_symm_apply _)
  have hmap : σ₀ (ts.map (fun t => (t.1 : K) * IsCyclotomicExtension.zeta N ℚ K ^ t.2)).sum =
      (ts.map (fun t => (t.1 : ℂ) * Complex.exp (2 * Real.pi * Complex.I / N) ^ t.2)).sum := by
    rw [map_list_sum, List.map_map]
    congr 1
    refine List.map_congr_left (fun t _ => ?_)
    rw [Function.comp_apply, map_mul, map_pow, map_intCast, hσ₀]
  rw [← hmap]
  refine cyclotomic_separation hζ ts σ₀ (fun h0 => h ?_)
  rw [← hmap, h0, map_zero]

theorem dvd_foldl_lcm (qs : List Nat) (m : Nat) :
    m ∣ qs.foldl Nat.lcm m ∧ ∀ q ∈ qs, q ∣ qs.foldl Nat.lcm m := by
  induction qs generalizing m with
  | nil => simp
  | cons q qs ih =>
    obtain ⟨h1, h2⟩ := ih (Nat.lcm m q)
    refine ⟨(Nat.dvd_lcm_left m q).trans h1, fun r hr => ?_⟩
    rcases List.mem_cons.mp hr with rfl | hr
    · exact (Nat.dvd_lcm_right m r).trans h1
    · exact h2 r hr

theorem foldl_lcm_pos (qs : List Nat) (m : Nat) (hm : 0 < m) (h : ∀ q ∈ qs, 0 < q) : 0 < qs.foldl Nat.lcm m := by
  induction qs generalizing m with
  | nil => exact hm
  | cons q qs ih => exact ih _ (Nat.lcm_pos hm (h q (by simp))) (fun r hr => h r (List.mem_cons_of_mem _ hr))

theorem Sines.order_pos {ss : Sines} (ok : ss.Ok) : 0 < Sines.order ss := by
  unfold Sines.order
  have := foldl_lcm_pos (ss.map (fun s => s.2.2)) 1 Nat.one_pos (by
    intro q hq
    obtain ⟨s, hs, rfl⟩ := List.mem_map.mp hq
    exact (ok s hs).1)
  omega

theorem cosineTurns_dvd (c : Int) (ss : Sines) : ∀ t ∈ cosineTurns c ss, t.2.2 ∣ Sines.order ss := by
  intro t ht
  simp only [cosineTurns, List.mem_cons, List.mem_flatMap, List.not_mem_nil, or_false] at ht
  rcases ht with rfl | ⟨s, hs, h⟩
  · exact one_dvd _
  · have hd : s.2.2 ∣ (ss.map (fun s => s.2.2)).foldl Nat.lcm 1 :=
      (dvd_foldl_lcm _ 1).2 _ (List.mem_map.mpr ⟨s, hs, rfl⟩)
    rcases h with rfl | rfl <;> exact Nat.mul_dvd_mul_left 4 hd

theorem turn_eq_pow {n d N : Nat} (hN : 0 < N) (hd : d ∣ N) :
    turn n d = Complex.exp (2 * Real.pi * Complex.I / N) ^ (n * (N / d)) := by
  obtain ⟨m, rfl⟩ := hd
  have hd0 : 0 < d := Nat.pos_of_mul_pos_right hN
  have hm0 : 0 < m := Nat.pos_of_mul_pos_left hN
  rw [Nat.mul_div_cancel_left _ hd0, ← Complex.exp_nat_mul]
  unfold turn
  congr 1
  have h1 : (d : ℂ) ≠ 0 := by exact_mod_cast hd0.ne'
  have h2 : (m : ℂ) ≠ 0 := by exact_mod_cast hm0.ne'
  push_cast
  field_simp

/-- The coefficients of the summands of c plus twice a sum of sines. -/
theorem cosineTurns_size (c : Int) (ss : Sines) (f : Int × Nat × Nat → Nat) :
    turnsSize ((cosineTurns c ss).map (fun t => (t.1, f t))) = c.natAbs + 2 * Sines.amplitude ss := by
  unfold turnsSize cosineTurns
  rw [List.map_map, List.map_cons, List.sum_cons]
  simp only [Function.comp_apply]
  congr 1
  induction ss with
  | nil => rfl
  | cons s ss ih =>
    rw [List.flatMap_cons, List.map_append, List.sum_append, ih, Sines.amplitude_cons]
    simp
    ring

/-- Twice a sum that differs from an integer, and by at most 1, differs from it by more than a bound that only
the summands' amplitudes and the order of their roots fix. -/
theorem twiceSum_separation {k h : Int} {ss : Sines} (ok : ss.Ok) (hne : (h : ℝ) + 2 * ss.value ≠ k)
    (hle : |(h : ℝ) + 2 * ss.value - k| ≤ 1) :
    1 ≤ |(h : ℝ) + 2 * ss.value - k| * ((4 * ss.amplitude + 1 : Nat) : ℝ) ^ (Sines.order ss) := by
  have hN := Sines.order_pos ok
  have hval := turnsValue_cosineTurns (h - k) ok
  have hsum : turnsValue (cosineTurns (h - k) ss) =
      (((cosineTurns (h - k) ss).map (fun t => (t.1, t.2.1 * (Sines.order ss / t.2.2)))).map
        (fun t => (t.1 : ℂ) * Complex.exp (2 * Real.pi * Complex.I / (Sines.order ss)) ^ t.2)).sum := by
    unfold turnsValue
    rw [List.map_map]
    congr 1
    refine List.map_congr_left (fun t ht => ?_)
    rw [Function.comp_apply, turn_eq_pow hN (cosineTurns_dvd _ _ t ht)]
  have hreal : (((h - k : Int) : ℝ) + 2 * ss.value) = h + 2 * ss.value - k := by
    push_cast
    ring
  rw [hreal] at hval
  have hsep := roots_separation hN _ (by
    rw [← hsum, hval]
    intro h0
    exact hne (sub_eq_zero.mp (Complex.ofReal_eq_zero.mp h0)))
  rw [← hsum, hval, Complex.norm_real, Real.norm_eq_abs, cosineTurns_size] at hsep
  refine le_trans hsep (mul_le_mul_of_nonneg_left (pow_le_pow_left₀ (by positivity) ?_ _) (abs_nonneg _))
  have hamp : |ss.value| ≤ ss.amplitude := by
    clear hval hsum hreal hsep hle hne ok hN
    induction ss with
    | nil => simp [Sines.amplitude]
    | cons s ss ih =>
      rw [Sines.value_cons, Sines.amplitude_cons]
      refine le_trans (abs_add_le _ _) ?_
      push_cast
      refine add_le_add ?_ ih
      rw [abs_mul, Nat.cast_natAbs, Int.cast_abs]
      exact mul_le_of_le_one_right (abs_nonneg _) (Real.abs_sin_le_one _)
  have hc : (((h - k).natAbs : Nat) : ℝ) ≤ 2 * ss.amplitude + 1 := by
    rw [Nat.cast_natAbs, Int.cast_abs]
    push_cast
    rw [abs_le] at hle hamp ⊢
    constructor <;> linarith
  have ha0 : (0 : ℝ) ≤ ss.amplitude := Nat.cast_nonneg _
  push_cast
  refine max_le (by linarith) ?_
  linarith

end Sys2Proof.Machine
end

