-- ==== Sys2Proof/Tests/Slice0.lean ====
section
/-! SUPPORT. Tests of the model. Expected values are those of spec/95_test_vectors.md (V.. names a vector there)
or worked by hand from the rule a test names. The second part holds, for each statement with hypotheses, a
theorem test_witness_<statement> that concrete states meet them, clause by clause at the edge of its range. -/

namespace Sys2Proof.Tests

open Sys2Proof Sys2Proof.Machine

-- One proof after another: many proofs that each wait for the kernel would each hold a thread.
set_option Elab.async false

/-! ### States -/

/-- The state an outcome goes on with. -/
def after : Host.Outcome State Fault Refusal → Option State
  | .next t => some t
  | _ => none

/-- STATUS and the two information words after a command. -/
def report (i : Instr) (s : State) : Option (Word × Word × Word) :=
  (after (exec i s)).map (fun t => (t.status.word, t.errInfo0, t.errInfo1))

/-- The elements j, …, j + n − 1 of an array of a space after a command. -/
def elements (space : Space) (a j n : Nat) (i : Instr) (s : State) : Option (List (Option Elem)) :=
  (after (exec i s)).map (fun t => (List.range n).map (fun k => t.mem.element space a (j + k)))

/-- A valid configuration with two samples per pulse. -/
def smallConfig : ConfigRegs :=
  { fs := 1000, refRate := 1000, pulseUs := 2000, amp := 1000, thrCenti := 65000, zone := 1, window := 10,
    order := 1, stopLo := 100, stopHi := 300, f0 := 100, f1 := 150, f2 := 200, f3 := 250 }

/-- A platform of 20 frames, 10 bytes and a shortest sequence of 20 samples. -/
def smallPlatform : Params := { maxFrames := 20, maxBytes := 10, maxOrder := 7, minLens := [19] }

/-- An array with these values from index 0. -/
def run {α : Type} (vs : List α) : Buf α := Buf.writeRun [] 0 vs

/-- 20 silent samples. -/
def silent : Buf Sample := run (List.replicate 20 0)

/-- The small platform with nothing written. -/
def start : State := { State.reset with cfg := smallConfig, params := smallPlatform }

/-- The small platform with every buffer full of zeros, ten bytes 'a', and every length at its capacity. -/
def loaded : State :=
  { start with
    ainLen := 20
    bytesLen := 10
    laneLen := 20
    chLen := 20
    rxLen := 20
    aoutLen := 20
    segSyms := 10
    symIdx := 9
    mem :=
      { ain := ⟨silent, silent⟩, aout := ⟨silent, silent⟩, ch := ⟨silent, silent⟩
        tx := Lanes.ofFn (fun _ => run (List.replicate 20 (.half 0)))
        rx := Lanes.ofFn (fun _ => silent)
        bytes := run (List.replicate 10 0x61) } }

/-- The small platform with the pair of R182's example as its input. -/
def twoFrames : State :=
  { start with ainLen := 2, mem := { Memory.empty with ain := ⟨run [5, -7], run [32767, -32768]⟩ } }

/-- The reset configuration with one symbol of equal samples in RX lane 3. -/
def oneSymbol (v : Sample) : State :=
  { State.reset with
    rxLen := 882
    mem := { Memory.empty with rx := Memory.empty.rx.set 3 (run (List.replicate 882 v)) } }

/-- The error state with code 5, and STATUS.BIT set. -/
def failed : State :=
  { start with status := { done := false, err := true, bit := true, code := 5 }, errInfo0 := 240000, errInfo1 := 10583 }

/-- A state whose host's next action is the one given. -/
def acting (s : State) (a : HostAction) : State := { s with pending := [a] }

/-! ### Well-formed words: one ill-formed term for each check (R92, R95, R96) -/

theorem test_wellFormed_accepts : (⟨0x10, 1, 3, 1, 0⟩ : Fields).wellFormed = true := by decide
theorem test_wellFormed_refuses_unassigned_opcode : (⟨0x03, 0, 0, 0, 0⟩ : Fields).wellFormed = false := by decide
theorem test_wellFormed_refuses_reserved_bits : (⟨0x21, 0, 0, 0, 1⟩ : Fields).wellFormed = false := by decide
theorem test_wellFormed_refuses_unused_channel : (⟨0x01, 1, 0, 0, 0⟩ : Fields).wellFormed = false := by decide
theorem test_wellFormed_refuses_unused_carrier : (⟨0x21, 0, 1, 0, 0⟩ : Fields).wellFormed = false := by decide
theorem test_wellFormed_refuses_unused_bit : (⟨0x20, 0, 0, 1, 0⟩ : Fields).wellFormed = false := by decide

/-! ### Decoding words written out from R90 and R94: RSV, BIT, K, CH, OPC -/

theorem test_decode_nop : decodeTableWord 32 0b00000000000000000000_0_00_0_00000001 = some .nop := by decide
theorem test_decode_clr : decodeTableWord 32 0b00000000000000000000_0_00_0_00000010 = some .clr := by decide
theorem test_decode_synth :
    decodeTableWord 32 0b00000000000000000000_1_01_1_00010000 = some (.synth 1 1 true) := by decide
theorem test_decode_mod : decodeTableWord 32 0b00000000000000000000_0_00_0_00010001 = some .mod := by decide
theorem test_decode_bpf : decodeTableWord 32 0b00000000000000000000_0_10_1_00100000 = some (.bpf 1 2) := by decide
theorem test_decode_bsf : decodeTableWord 32 0b00000000000000000000_0_00_1_00100001 = some (.bsf 1) := by decide
theorem test_decode_xlanes : decodeTableWord 32 0b00000000000000000000_0_00_0_00100010 = some .xlanes := by decide
theorem test_decode_demux : decodeTableWord 32 0b00000000000000000000_0_00_0_00110000 = some .demux := by decide
theorem test_decode_ovl : decodeTableWord 32 0b00000000000000000000_0_00_1_00110001 = some (.ovl 1) := by decide
theorem test_decode_mux : decodeTableWord 32 0b00000000000000000000_0_00_0_00110010 = some .mux := by decide
theorem test_decode_embed : decodeTableWord 32 0b00000000000000000000_0_00_0_00110011 = some .embed := by decide
theorem test_decode_decide :
    decodeTableWord 32 0b00000000000000000000_0_11_0_01000000 = some (.decide 0 3) := by decide
theorem test_decode_decode : decodeTableWord 32 0b00000000000000000000_0_00_0_01000001 = some .decode := by decide
theorem test_decode_demod : decodeTableWord 32 0b00000000000000000000_0_00_0_01000010 = some .demod := by decide

/-- The illegal words of spec/95_test_vectors.md section 2.6. -/
theorem test_decode_refuses :
    [0x0, 0x3, 0x111, 0x321, 0x820, 0x1021, 0x80000010, 0xFF].map (decodeTableWord 32) =
      List.replicate 8 none := by decide

/-! ### Numbers -/

/-- VX1 to VX6. -/
theorem test_mix_rounds_ties_to_even_and_saturates :
    mix 0 (.half 3) (.half 4) (.half 0) (.half 0) = 4 ∧ mix 0 (.half 5) (.half 0) (.half 0) (.half 0) = 2 ∧
      mix 0 (.half (-5)) (.half 0) (.half 0) (.half 0) = -2 ∧ mix 0 (.half (-7)) (.half 0) (.half 0) (.half 0) = -4 ∧
      mix 32767 (.half 2000) (.half 0) (.half 0) (.half 0) = 32767 ∧
      mix (-32768) (.half (-2000)) (.half 0) (.half 0) (.half 0) = -32768 := by decide +kernel

/-- VX8. -/
theorem test_mix_of_sines :
    mix 0 (numSynth 1000 18000 44100 1) (numSynth 1000 18400 44100 1) (.half 0) (.half 0) = 1042 := by
  decide +kernel

/-- The sum nearest a tie in program P1: AOUT[0][882 + 227] is q16(−1811.500493). -/
theorem test_mix_near_a_tie :
    mix 0 (.half 0) (numSynth 1000 18000 44100 227) (.half 0) (numSynth 1000 18800 44100 227) = -1812 := by
  decide +kernel

/-- R125 (d): n = 441 at each carrier. -/
theorem test_synth_is_zero_at_half_pulse :
    [17600, 18000, 18400, 18800].map (fun f => numSynth 1000 f 44100 441) = List.replicate 4 (.half 0) := by
  decide +kernel

/-- VB4. -/
theorem test_bits_fold : bitsToByte [true, false, true, false, false, true, false, true] = 0xA5 := by decide

/-! ### Commands -/

/-- VC1. -/
theorem test_nop : report .nop State.reset = some (1, 0, 0) := by decide +kernel
/-- VC3. -/
theorem test_nop_discarded : report .nop failed = some (0x00000506, 240000, 10583) := by decide +kernel
/-- VC5, VC6: BIT survives. -/
theorem test_clr : report .clr failed = some (0x00000004, 0, 0) := by decide +kernel
/-- VC7: an illegal word. -/
theorem test_illegal_word :
    (after (step (acting start (.regWrite 4 0 0x321)))).map
      (fun t => (t.cmd, t.status.word, t.errInfo0, t.errInfo1)) = some (0x321, 0x102, 0x321, 0) := by decide +kernel

/-- VM1 on two samples a pulse: 1000 sin(2π × 0.15) in element 1. -/
theorem test_synth :
    elements .tx 1 0 3 (.synth 0 1 true) start =
      some [some (.tone (.half 0)), some (.tone (.sine 1000 3 20)), none] := by decide +kernel
/-- VM12. -/
theorem test_synth_range : report (.synth 0 0 true) { start with symIdx := 10 } = some (0x402, 22, 20) := by
  decide +kernel
/-- VM4 on two samples a pulse: of byte 0x61, lane 7 carries a 1 at F3, here 1000 sin(2π / 4), and lane 0 a 0. -/
theorem test_mod :
    elements .tx 7 0 2 .mod loaded = some [some (.tone (.half 0)), some (.tone (.half 2000))] ∧
      elements .tx 0 0 2 .mod loaded = some [some (.tone (.half 0)), some (.tone (.half 0))] := by decide +kernel
/-- VM10. -/
theorem test_mod_uninit :
    report .mod { start with bytesLen := 2, mem := { Memory.empty with bytes := run [0x61] } } =
      some (0x602, 0x60, 1) := by decide +kernel

/-- VF1: zeros filter to zeros, in the lane of the command and no other. -/
theorem test_bpf :
    let s := { start with ainLen := 20, segSyms := 10, mem := { Memory.empty with ain := ⟨silent, silent⟩ } }
    elements .rx 6 19 2 (.bpf 1 2) s = some [some (.sample 0), none] ∧
      elements .rx 5 0 1 (.bpf 1 2) s = some [none] := by decide +kernel
/-- VF5. -/
theorem test_bpf_config :
    report (.bpf 0 0) { State.reset with cfg := { ConfigRegs.reset with fs := 32000 } } =
      some (0x202, 0x06C, 17600) := by decide +kernel
/-- VF2: only the named channel's check and write. -/
theorem test_bsf :
    elements .ch 1 0 1 (.bsf 1) { loaded with mem := { loaded.mem with ch := ⟨[], silent⟩ } } =
      some [some (.sample 0)] := by decide +kernel
/-- VF17. -/
theorem test_bsf_short : report (.bsf 0) { State.reset with chLen := 45 } = some (0x702, 45, 45) := by decide +kernel
/-- VF3. -/
theorem test_xlanes :
    (after (exec .xlanes { loaded with mem := { loaded.mem with rx := Memory.empty.rx } })).map
      (fun t => (t.rxLen, (List.range 8).map (fun l => t.mem.element .rx l 19))) =
        some (20, List.replicate 8 (some (.sample 0))) := by decide +kernel
/-- VF13. -/
theorem test_xlanes_config :
    report .xlanes { State.reset with cfg := { ConfigRegs.reset with f3 := 200 } } = some (0x202, 0x078, 200) := by
  decide +kernel

/-- VX9. -/
theorem test_demux :
    elements .ch 0 0 3 .demux twoFrames = some [some (.sample 5), some (.sample (-7)), none] ∧
      elements .ch 1 0 3 .demux twoFrames = some [some (.sample 32767), some (.sample (-32768)), none] := by
  decide +kernel
/-- VX11. -/
theorem test_demux_uninit :
    report .demux { twoFrames with mem := { twoFrames.mem with ain := ⟨run [5, -7], run [1]⟩ } } =
      some (0x602, 0x11, 1) := by decide +kernel
/-- R184 with the lanes of byte 0x61: 100 + 809.017 + 951.057 in channel 0. -/
theorem test_ovl :
    ((after (exec .mod loaded)).bind (fun s => elements .ch 0 0 2 (.ovl 0)
      { s with mem := { s.mem with ch := ⟨run (List.replicate 20 100), silent⟩ } })) =
        some [some (.sample 100), some (.sample 1860)] := by decide +kernel
/-- VX13. -/
theorem test_ovl_range : report (.ovl 0) { State.reset with laneLen := 882, chLen := 881 } = some (0x402, 882, 881) := by
  decide +kernel
/-- VX10. -/
theorem test_mux :
    ((after (exec .demux twoFrames)).bind (fun s => elements .aout 1 0 3 .mux s)) =
      some [some (.sample 32767), some (.sample (-32768)), none] := by decide +kernel
/-- VX17, P1 on two samples a pulse: 809.017 + 951.057 in channel 0, 1000 in channel 1, at the capacity's edge. -/
theorem test_embed :
    elements .aout 0 18 2 .embed loaded = some [some (.sample 0), some (.sample 1760)] ∧
      elements .aout 1 18 2 .embed loaded = some [some (.sample 0), some (.sample 1000)] := by decide +kernel
/-- VX16, VX20. -/
theorem test_embed_capacity :
    report .embed { State.reset with bytesLen := 12, ainLen := 10583 } = some (0x502, 240000, 10583) := by
  decide +kernel

/-- VE1: 650 is the threshold itself. -/
theorem test_decide_at_threshold :
    (after (exec (.decide 0 3) (oneSymbol 650))).map (fun t => (t.status.word, t.envSum, t.envZones)) =
      some (1, 13000, 20) := by decide +kernel
/-- VE3: absolute values, one above the threshold. -/
theorem test_decide_above_threshold :
    (after (exec (.decide 0 3) (oneSymbol (-651)))).map (fun t => (t.status.word, t.envSum, t.envZones)) =
      some (5, 13020, 20) := by decide +kernel
/-- P3 on two samples a pulse: lanes 1, 2 and 7 one above the threshold. -/
theorem test_decode_command :
    elements .bytes 0 0 2 .decode
      { start with
        rxLen := 2
        mem := { Memory.empty with
          rx := Lanes.ofFn (fun l => run (List.replicate 2 (if l ∈ [1, 2, 7] then 651 else 650))) } } =
            some [some (.byte 0x61), none] := by decide +kernel
/-- VE21: fewer samples than a pulse give no byte. -/
theorem test_decode_command_empty :
    (after (exec .decode { State.reset with rxLen := 881, bytesLen := 7 })).map
      (fun t => (t.status.word, t.bytesLen)) = some (1, 0) := by decide +kernel
/-- R218 with R153 L4: silence decodes to ten zero bytes. -/
theorem test_demod :
    (after (exec .demod loaded)).map (fun t => (t.rxLen, t.bytesLen, t.mem.element .bytes 0 9)) =
      some (20, 10, some (.byte 0)) := by decide +kernel
/-- VE24. -/
theorem test_demod_short : report .demod State.reset = some (0x702, 0, 45) := by decide +kernel

/-- VH2: the header of a 3-byte file of name length 5, encrypted. -/
theorem test_header :
    (⟨3, 5, true, 0x77⟩ : Header).bytes = [0x61, 0x53, 0x78, 0, 0, 0, 3, 0x0B, 0x77, 0] := by decide

/-! ### The host's programs -/

/-- R320 step 6 on S3's Frame in a carrier one frame short: 0.24 seconds needed, 10583 frames at 44100 Hz there. -/
theorem test_embed_reports_capacity :
    (checkEmbed 44100 failed).1 = .error (.reported (.capacity (24 / 100) (10583 / 44100))) := by
  have h : (checkEmbed 44100 failed).1 = .error (.reported (.capacity ((240000 : Nat) / 1000000)
    ((10583 : Nat) / (44100 : Nat)))) := rfl
  rw [h]
  norm_num

/-- VH5, and a file that is not WAV-named: each ends its run before anything is done (R322). -/
theorem test_host_rejects_before_any_access :
    embedProgram 44100 [] [] [0] (List.replicate 128 0x61) false 0 start =
        (.error (.reported .inputConstraint), start) ∧
      extractProgram false 44100 [] [] start = (.error (.reported .formatConstraint), start) := by
  have h : buildFrame [0] (List.replicate 128 0x61) false 0 = .error .inputConstraint := by
    simp [buildFrame, buildHeader, u32Max, bind, Except.bind]
  exact ⟨by rw [embedProgram, h]; rfl, rfl⟩

/-- R321 steps 3 and 8. -/
theorem test_extract_stops_on_error :
    (stopOnError failed).1 = .error (.blockError 5) ∧ (stopOnError start).1 = .ok () := ⟨rfl, rfl⟩

/-- R321 steps 4, 5 and 9, on VH1's and VH2's headers. -/
theorem test_extract_reads_header :
    (checkHeader [0x61, 0x53, 0x58, 0, 0, 0, 2, 0, 0, 0] start).1 = .error (.reported .protocolMismatch) ∧
      (checkHeader [0x61, 0x53, 0x78, 0, 0, 0, 3, 0x0B, 0, 0] start).1 = .ok ⟨3, 5, true, 0⟩ ∧
      extracted [0x68, 0x69] 0 = .text [0x68, 0x69] ∧
      extracted [1, 2, 3, 0x61, 0x2E] 2 = .file [0x61, 0x2E] [1, 2, 3] := ⟨rfl, rfl, rfl, rfl⟩

/-! ### Witnesses: states that meet the hypotheses of the statements -/

/-- The words of every clause of IllegalWords: opcode 0, both ends of each gap, RSV, and each unused field. -/
theorem test_witness_IllegalWords :
    (∀ w ∈ [0x00, 0x03, 0x0F, 0x12, 0x1F, 0x23, 0x2F, 0x34, 0x3F, 0x43, 0xFF, 0x1021, 0x80000010, 0x101, 0x321,
        0x820], decodeTableWord 32 w = none) ∧
      (start.withFetchWord 32 0x321).pending = .regWrite 4 0 0x321 :: [] ∧
      (start.withFetchWord 32 0x321).status.err = false := by decide +kernel

theorem test_witness_StepRunsDecodedCommand :
    (start.withFetchWord 32 0x33).pending = .regWrite 4 0 0x33 :: [] ∧ decode 0x33 = .ok .embed := ⟨rfl, rfl⟩

theorem test_witness_ErrorStateDiscardsAllButClr :
    (failed.withFetchWord 32 1).pending = .regWrite 4 0 1 :: [] ∧ (failed.withFetchWord 32 1).status.err = true ∧
      decodeTableWord 32 1 ≠ some .clr ∧ (failed.withFetchWord 32 2).pending = .regWrite 4 0 2 :: [] ∧
      decode 2 = .ok .clr := by
  refine ⟨rfl, rfl, by decide, rfl, rfl⟩

theorem test_witness_IdleBlockKeepsItsState : failed.pending = [] := rfl

/-- Accesses of each clause: a legal one, a wrong width, a misaligned and an unmapped offset; RW, CMD and RO. -/
theorem test_witness_HostRegisterAccess :
    [(4, 0x094), (2, 0x094), (4, 0x095), (4, 0x098), (4, 0x024)].map (fun a => (registerAt a.1 a.2).toOption) =
        [some .aoutLen, none, none, none, none] ∧
      Reg.rxLen.offset = 0x090 ∧ Reg.cmd.offset = 0x000 ∧ Reg.aoutLen.offset = 0x094 ∧
      (acting start (.regRead 4 0x094)).pending = .regRead 4 0x094 :: [] := by decide +kernel

theorem test_witness_RegisterWriteFrame :
    start.writeReg .rxLen 7 = some { start with rxLen := 7 } ∧
      start.writeReg .fs 0 = some { start with cfg := { smallConfig with fs := 0 } } := ⟨rfl, rfl⟩

/-- The edges of a legal write and of a legal read, and one access for each way to be refused. -/
theorem test_witness_HostBufferAccess :
    [((Space.rx, 7, 19), (32767 : Int)), ((.bytes, 0, 9), 255), ((.ain, 1, 0), -32768), ((.ch, 0, 0), 0),
      ((.rx, 8, 0), 0), ((.bytes, 0, 10), 0), ((.bytes, 0, 0), 256), ((.ain, 0, 0), 32768)].map
        (fun a => (after (step (acting start (.bufWrite a.1.1 a.1.2.1 a.1.2.2 a.2)))).isSome) =
          [true, true, true, false, false, false, false, false] ∧
      [(Space.tx, 7, 19), (.tx, 8, 0), (.tx, 0, 20)].map
        (fun a => (after (step (acting loaded (.bufRead a.1 a.2.1 a.2.2)))).isSome) = [true, false, false] ∧
      start.mem.element .tx 7 19 = none := by decide +kernel

theorem test_witness_ResetSetsEveryRegister : (acting loaded .reset).pending = .reset :: [] := rfl

/-- A state with every buffer full meets the invariant, and its step runs EMBED. -/
theorem test_witness_EveryStepKeepsInvariant :
    (acting loaded (commandAction .embed)).Inv ∧
      (after (step (acting loaded (commandAction .embed)))).isSome = true := by
  refine ⟨⟨by decide +kernel, ?_, ?_, ?_, by decide +kernel⟩, by decide +kernel⟩
  · unfold State.errorAgrees; decide +kernel
  · unfold State.lengthsFit; decide +kernel
  · unfold State.channelsFilled State.written State.valid; decide +kernel

theorem test_witness_OnlyResetClearsValidBits :
    (after (step (acting loaded (commandAction .embed)))).isSome = true ∧
      (acting loaded (commandAction .embed)).pending.head? ≠ some .reset ∧
      (acting loaded (commandAction .embed)).valid .tx 7 19 := by
  unfold State.valid; decide +kernel

/-- A discarded command, and a host write of a buffer, in the error state. -/
theorem test_witness_ErrorIsSticky :
    failed.status.err = true ∧ (after (step (acting failed (commandAction .nop)))).isSome = true ∧
      (acting failed (commandAction .nop)).pending.head? ≠ some .reset ∧
      (acting failed (commandAction .nop)).pending.head? ≠ some (.regWrite 4 0 (encode .clr)) ∧
      (after (step (acting failed (.bufWrite .ain 0 0 1)))).isSome = true := by decide +kernel

theorem test_witness_ErrorsAreAllOrNothing :
    start.status.err = false ∧ (after (exec .demod start)).map (fun t => t.status.err) = some true := by
  decide +kernel

/-- For CommandsKeepInputsAndConfiguration, OnlyDecideWritesBitAndEnvelope and BuffersHaveTheirWriters: every
command of one shape or another answers a next state with its writes made, and with an error. -/
theorem test_witness_every_command :
    [Instr.nop, .clr, .synth 1 3 true, .mod, .bpf 1 3, .bsf 1, .xlanes, .demux, .ovl 1, .mux, .embed, .decide 1 3,
      .decode, .demod].map (fun i => ((after (exec i loaded)).map (fun t => t.status.err),
        (after (exec i failed)).map (fun t => t.status.err))) =
      (some false, some true) :: (some false, some false) :: List.replicate 12 (some false, some true) := by
  decide +kernel

/-- SPP at its smallest, at a product that is no multiple, at zero, and beyond 32 bits. -/
theorem test_witness_SamplesPerPulse :
    [(1, 1000000), (1, 1000001), (0, 1000000), (4000000000, 4000000000), (44100, 20000)].map
        (fun a => ({ smallConfig with fs := BitVec.ofNat 32 a.1, pulseUs := BitVec.ofNat 32 a.2 } : ConfigRegs).spp) =
      [1, 0, 0, 16000000000000, 882] := by decide +kernel

theorem test_witness_SineSamples :
    (1 ≤ 44100 ∧ 2 * 17600 * 441 % 44100 = 0 ∧ 17600 * 882 % 44100 = 0) ∧ numSynth 1000 1 1 1 = .half 0 := by
  decide +kernel

/-- Lane samples of both forms meet MixIsExact's hypotheses. -/
theorem test_witness_MixIsExact :
    (Tone.half 3).wf = true ∧ (Tone.sine (-1000) 9 98).wf = true ∧ (numSynth 1000 18000 44100 1).wf = true ∧
      numSynth 1000 18000 44100 1 = .sine 1000 9 98 := by decide +kernel

theorem test_witness_FilterLaws : ∀ v ∈ ([0, 0] : List Sample), v = 0 := by simp

/-- Slot 9 ends at the capacity. -/
theorem test_witness_SynthWritesOnePulse :
    loaded.status.err = false ∧ loaded.cfg.spp ≠ 0 ∧ loaded.cfg.amp.toNat ≤ 32767 ∧
      (loaded.symIdx.toNat + 1) * loaded.cfg.spp = loaded.params.maxFrames := by decide +kernel

theorem test_witness_ModWritesEightLanes :
    loaded.bytesLen.toNat = loaded.params.maxBytes ∧
      loaded.bytesLen.toNat * loaded.cfg.spp = loaded.params.maxFrames ∧
      loaded.written .bytes 0 0 loaded.bytesLen.toNat := by
  unfold State.written State.valid; decide +kernel

/-- SPP 0 with FS 0 and with FS valid, and AMP one too large. -/
theorem test_witness_PulseConfigErrors :
    start.status.err = false ∧ ({ smallConfig with fs := 0 }).spp = 0 ∧ ({ smallConfig with pulseUs := 1 }).spp = 0 ∧
      ({ smallConfig with amp := 32768 }).spp = 2 := by decide +kernel

/-- For BPF, XLANES and DEMOD: a segment of 20 samples, one more than the longest refused, ending at AIN_LEN. -/
theorem test_witness_extraction :
    loaded.status.err = false ∧ loaded.demodOk ∧ loaded.segFrom + loaded.segLen = loaded.ainLen.toNat := by
  simp only [State.demodOk, State.bandPassOk, State.orderOk, State.segmentOk, State.written, State.valid]
  decide +kernel

/-- For BSF and EMBED: CH_LEN and AIN_LEN at the capacity and one more than the longest refused, and the
capacity of EMBED exactly met. -/
theorem test_witness_embedding :
    loaded.status.err = false ∧ loaded.embedOk ∧ loaded.minLen + 1 = loaded.chLen.toNat ∧
      loaded.bytesLen.toNat * loaded.cfg.spp = loaded.ainLen.toNat ∧
      loaded.written .ch 1 0 loaded.chLen.toNat ∧ Buf.get loaded.mem.bytes 9 = some 0x61 := by
  simp only [State.embedOk, State.bandStopOk, State.orderOk, State.written, State.valid]
  decide +kernel

/-- A state for each clause of BandPassConfigErrors; the last carrier is the only invalid one. -/
theorem test_witness_BandPassConfigErrors :
    ¬ ({ start with cfg := { smallConfig with order := 8 } }).orderOk ∧
      ({ start with cfg := { smallConfig with window := 0 } }).orderOk ∧
      (let s := { start with cfg := { smallConfig with f3 := 10 } }
       s.orderOk ∧ s.cfg.window ≠ 0 ∧ ¬ s.bandPassOk 3 ∧ ∀ j < 3, s.bandPassOk j) := by
  simp only [State.bandPassOk, State.orderOk]
  decide +kernel

/-- A state for each clause of BandStopConfigErrors, EMBED's included; the last has 2 × STOP_HI = FS. -/
theorem test_witness_BandStopConfigErrors :
    ({ smallConfig with fs := 0 }).fs = 0 ∧
      (let s := { start with cfg := { smallConfig with order := 0 } }
       s.cfg.fs ≠ 0 ∧ ¬ s.orderOk ∧ s.cfg.spp ≠ 0 ∧ s.cfg.amp.toNat ≤ 32767) ∧
      (let s := { start with cfg := { smallConfig with stopLo := 300 } }
       s.orderOk ∧ ¬ (1 ≤ s.cfg.stopLo.toNat ∧ s.cfg.stopLo.toNat < s.cfg.stopHi.toNat) ∧ s.cfg.spp ≠ 0) ∧
      (let s := { start with cfg := { smallConfig with fs := 500, stopHi := 250 } }
       s.orderOk ∧ 1 ≤ s.cfg.stopLo.toNat ∧ s.cfg.stopLo.toNat < s.cfg.stopHi.toNat ∧
         s.cfg.fs.toNat = 2 * s.cfg.stopHi.toNat ∧ s.cfg.spp ≠ 0) := by
  simp only [State.orderOk]
  decide +kernel

/-- For RateErrors: another reference rate, with every other configuration valid. -/
theorem test_witness_RateErrors :
    let s := { start with cfg := { smallConfig with refRate := 1001 } }
    s.status.err = false ∧ s.cfg.spp ≠ 0 ∧ s.cfg.fs ≠ s.cfg.refRate ∧ (∀ k, s.bandPassOk k) ∧ s.cfg.zone ≠ 0 := by
  simp only [State.bandPassOk, State.orderOk]
  decide +kernel

/-- For ShortErrors: nine symbols are 18 samples; 19 samples are still too few for BSF and for EMBED. -/
theorem test_witness_ShortErrors :
    (let s := { loaded with segSyms := 9 }
     (∀ j, s.bandPassOk j) ∧ s.segFrom + s.segLen ≤ s.ainLen.toNat ∧ s.segSyms.toNat ≤ s.params.maxBytes ∧
       s.cfg.zone ≠ 0 ∧ s.segLen ≤ filterMinLen s.params s.cfg.order.toNat) ∧
      (let s := { loaded with chLen := 19, ainLen := 19, bytesLen := 9 }
       s.bandStopOk ∧ s.chLen.toNat = filterMinLen s.params s.cfg.order.toNat ∧
         s.ainLen.toNat = filterMinLen s.params s.cfg.order.toNat ∧
         s.bytesLen.toNat * s.cfg.spp ≤ s.ainLen.toNat) := by
  simp only [State.bandPassOk, State.bandStopOk, State.orderOk]
  decide +kernel

/-- For SegmentRangeErrors: each limit passed by one. -/
theorem test_witness_SegmentRangeErrors :
    (let s := { loaded with ainLen := 21 }
     s.params.maxFrames + 1 = s.ainLen.toNat ∧ (∀ j, s.bandPassOk j) ∧ s.cfg.zone ≠ 0) ∧
      (let s := { loaded with segStart := 1 }
       s.ainLen.toNat ≤ s.params.maxFrames ∧ s.segFrom + s.segLen = s.ainLen.toNat + 1) ∧
      (let s := { loaded with params := { smallPlatform with maxBytes := 9 } }
       s.segFrom + s.segLen ≤ s.ainLen.toNat ∧ s.segSyms.toNat = s.params.maxBytes + 1) := by
  simp only [State.bandPassOk, State.orderOk]
  decide +kernel

/-- For DemuxCopiesInput, DemuxThenMuxReproducesInput, MuxCopiesChannels and OvlAddsFourLanes. -/
theorem test_witness_copies :
    loaded.ainLen.toNat = loaded.params.maxFrames ∧ loaded.laneLen.toNat = loaded.chLen.toNat ∧
      (∀ c < 2, loaded.written .ain c 0 20 ∧ loaded.written .ch c 0 20) ∧
      (∀ k : Carrier, loaded.written .tx (4 * 1 + k.val) 0 loaded.laneLen.toNat) := by
  unfold State.written State.valid; decide +kernel

/-- For DemuxErrors: a length one too large, and the first unwritten element in either channel. -/
theorem test_witness_DemuxErrors :
    ({ start with ainLen := 21 }).params.maxFrames < 21 ∧ start.firstUnwritten .ain 0 0 1 0 ∧
      (let s := { twoFrames with mem := { twoFrames.mem with ain := ⟨run [5, -7], run [1]⟩ } }
       s.written .ain 0 0 s.ainLen.toNat ∧ s.firstUnwritten .ain 1 0 s.ainLen.toNat 1) := by
  unfold State.firstUnwritten State.written State.valid; decide +kernel

/-- For EmbedRangeAndUninitErrors: each limit passed by one, and a first unwritten element in each array. -/
theorem test_witness_EmbedRangeAndUninitErrors :
    (let s := { loaded with bytesLen := 11, ainLen := 21 }
     s.status.err = false ∧ s.cfg.spp ≠ 0 ∧ s.cfg.amp.toNat ≤ 32767 ∧ s.bandStopOk ∧
       s.params.maxBytes + 1 = s.bytesLen.toNat ∧ s.params.maxFrames + 1 = s.ainLen.toNat) ∧
      ({ loaded with mem := { loaded.mem with bytes := run [0x61] } }).firstUnwritten .bytes 0 0 10 1 ∧
      ({ loaded with mem := { loaded.mem with ain := ⟨[], silent⟩ } }).firstUnwritten .ain 0 0 20 0 ∧
      ({ loaded with mem := { loaded.mem with ain := ⟨silent, run [0]⟩ } }).firstUnwritten .ain 1 0 20 1 := by
  simp only [State.bandStopOk, State.orderOk, State.firstUnwritten, State.written, State.valid]
  decide +kernel

/-- For EmbedCapacity: the capacity exceeded by one sample (`test_witness_embedding` meets it exactly). -/
theorem test_witness_EmbedCapacity :
    let s := { loaded with ainLen := 19 }
    s.cfg.spp ≠ 0 ∧ s.bandStopOk ∧ s.ainLen.toNat + 1 = s.bytesLen.toNat * s.cfg.spp := by
  simp only [State.bandStopOk, State.orderOk]
  decide +kernel

/-- For EnvelopeDecision, at a segment with a partial zone at its end. -/
theorem test_witness_EnvelopeDecision :
    smallConfig.zone ≠ 0 ∧ envelope { smallConfig with zone := 2 } [-32768, 1, 9] = ⟨true, 32768, 1⟩ := by
  decide +kernel

/-- For DecideWritesDecision: the slot's last sample is the lane's last. -/
theorem test_witness_DecideWritesDecision :
    loaded.cfg.zone ≠ 0 ∧ loaded.cfg.fs = loaded.cfg.refRate ∧
      (loaded.symIdx.toNat + 1) * loaded.cfg.spp = loaded.rxLen.toNat ∧
      loaded.written .rx (4 * 1 + 3) (loaded.symIdx.toNat * loaded.cfg.spp) loaded.cfg.spp := by
  unfold State.written State.valid; decide +kernel

/-- For DecodeWritesBytes: as many bytes as the buffer holds. -/
theorem test_witness_DecodeWritesBytes :
    loaded.rxLen.toNat = loaded.params.maxFrames ∧ loaded.rxLen.toNat / loaded.cfg.spp = loaded.params.maxBytes ∧
      ∀ l : Lane, loaded.written .rx l 0 (loaded.rxLen.toNat / loaded.cfg.spp * loaded.cfg.spp) := by
  unfold State.written State.valid; decide +kernel

theorem test_witness_ZoneConfigErrors :
    let s := { start with cfg := { smallConfig with zone := 0, refRate := 1001 } }
    s.status.err = false ∧ s.cfg.spp ≠ 0 ∧ s.cfg.zone = 0 ∧ ∀ j, s.bandPassOk j := by
  simp only [State.bandPassOk, State.orderOk]
  decide +kernel

/-- For LengthRangeErrors: each limit passed by one, or by one symbol. -/
theorem test_witness_LengthRangeErrors :
    (let s := { loaded with symIdx := 10, bytesLen := 11, chLen := 21 }
     s.params.maxFrames < (s.symIdx.toNat + 1) * s.cfg.spp ∧ s.params.maxBytes < s.bytesLen.toNat ∧
       s.params.maxFrames < s.chLen.toNat ∧ s.rxLen.toNat < (s.symIdx.toNat + 1) * s.cfg.spp) ∧
      (let s := { loaded with params := { smallPlatform with maxFrames := 19 } }
       s.bytesLen.toNat ≤ s.params.maxBytes ∧ s.params.maxFrames < s.bytesLen.toNat * s.cfg.spp) ∧
      (let s := { loaded with chLen := 19, rxLen := 21 }
       s.chLen.toNat ≤ s.params.maxFrames ∧ s.chLen.toNat < s.laneLen.toNat ∧
         s.params.maxFrames < s.rxLen.toNat) ∧
      (let s := { loaded with params := { smallPlatform with maxBytes := 9 } }
       s.rxLen.toNat ≤ s.params.maxFrames ∧ s.params.maxBytes < s.rxLen.toNat / s.cfg.spp) := by
  decide +kernel

/-- Every element of `loaded` is written but the last of one array of each space that EmbeddingUninitErrors and
ExtractionUninitErrors name. -/
def lastUnwritten : State :=
  let short : Buf Sample := run (List.replicate 19 0)
  { loaded with
    mem :=
      { ain := ⟨silent, short⟩, aout := ⟨[], []⟩, ch := ⟨silent, short⟩
        tx := loaded.mem.tx.set 3 (run (List.replicate 19 (.half 0)))
        rx := loaded.mem.rx.set 7 short
        bytes := run (List.replicate 9 0x61) } }

theorem test_witness_EmbeddingUninitErrors :
    lastUnwritten.status.err = false ∧ lastUnwritten.bandStopOk ∧ lastUnwritten.minLen < lastUnwritten.chLen.toNat ∧
      lastUnwritten.firstUnwritten .bytes 0 0 10 9 ∧ lastUnwritten.firstUnwritten .ch 1 0 20 19 ∧
      lastUnwritten.written .ch 0 0 20 ∧ lastUnwritten.firstUnwritten .tx (4 * 0 + 3) 0 20 19 ∧
      (∀ k : Carrier, k < 3 → lastUnwritten.written .tx (4 * 0 + k.val) 0 20) ∧
      start.firstUnwritten .ch 0 0 20 0 := by
  simp only [State.bandStopOk, State.orderOk, State.firstUnwritten, State.written, State.valid]
  decide +kernel

theorem test_witness_ExtractionUninitErrors :
    (∀ k, lastUnwritten.bandPassOk k) ∧ lastUnwritten.segmentOk ∧ lastUnwritten.written .ain 0 0 20 ∧
      lastUnwritten.firstUnwritten .ain 1 0 20 19 ∧ start.firstUnwritten .ain 0 0 20 0 ∧
      lastUnwritten.firstUnwritten .rx (4 * 1 + 3) 18 2 1 ∧
      (∀ l : Lane, l < 7 → lastUnwritten.written .rx l 0 20) ∧ lastUnwritten.firstUnwritten .rx 7 0 20 19 := by
  simp only [State.bandPassOk, State.orderOk, State.segmentOk, State.firstUnwritten, State.written, State.valid]
  decide +kernel

/-- For HeaderFidelity: filenames of 127 and of 128 bytes. -/
theorem test_witness_HeaderFidelity :
    (buildHeader 3 127 true 1).toOption = some ⟨3, 127, true, 1⟩ ∧ (buildHeader 3 128 true 1).toOption = none := by
  decide +kernel

end Sys2Proof.Tests
end

section
/-! The rounding of R10: the integer `rneDiv` of a quotient and the real `rneReal` agree. Both branch on the
floor and the fractional part, so two facts about the real quotient v / d carry the proof: its floor is v / d in
the integers, and its fractional part is (v % d) / d. -/

namespace Sys2Proof.Machine

theorem floor_quotient (v : Int) (d : Nat) : ⌊(v : ℝ) / (d : ℝ)⌋ = v / d := by
  rw [Int.floor_div_natCast, Int.floor_intCast]

theorem quotient_sub_floor (v : Int) (d : Nat) :
    (v : ℝ) / (d : ℝ) - ⌊(v : ℝ) / (d : ℝ)⌋ = ((v % d : Int) : ℝ) / (d : ℝ) := by
  rw [Int.self_sub_floor, Int.fract_div_intCast_eq_div_intCast_mod]

theorem div_lt_half_iff {r : Int} {d : Nat} (hd : 0 < d) :
    (r : ℝ) / (d : ℝ) < 1 / 2 ↔ 2 * r < (d : Int) := by
  have hpos : (0 : ℝ) < d := Nat.cast_pos.mpr hd
  rw [div_lt_div_iff₀ hpos two_pos, one_mul, mul_comm]
  exact_mod_cast Iff.rfl

theorem half_lt_div_iff {r : Int} {d : Nat} (hd : 0 < d) :
    1 / 2 < (r : ℝ) / (d : ℝ) ↔ (d : Int) < 2 * r := by
  have hpos : (0 : ℝ) < d := Nat.cast_pos.mpr hd
  rw [div_lt_div_iff₀ two_pos hpos, one_mul, mul_comm (r : ℝ)]
  exact_mod_cast Iff.rfl

/-- Settles O27: under the two facts about the quotient, the branches of `rneReal` are those of `rneDiv`. -/
theorem roundingIsNearestEven : Obligations.RoundingIsNearestEven := by
  intro v d hd
  rw [rneReal, quotient_sub_floor, floor_quotient]
  simp only [rneDiv, div_lt_half_iff hd, half_lt_div_iff hd, gt_iff_lt]

end Sys2Proof.Machine
end

section
/-! Valid bits (spec/10_state.md R42): no buffer write clears one, so no command does, and of the steps only a
platform reset does. -/

namespace Sys2Proof.Machine

/-- Every element that is written in the first array is written in the second. -/
def Buf.Grows {α : Type} (b b' : Buf α) : Prop := ∀ i, (Buf.get b i).isSome → (Buf.get b' i).isSome

theorem Buf.Grows.refl {α : Type} (b : Buf α) : Buf.Grows b b := fun _ h => h

theorem Buf.Grows.writeRun {α : Type} (b : Buf α) (i : Nat) (vs : List α) : Buf.Grows b (Buf.writeRun b i vs) :=
  fun j => Buf.get_writeRun_isSome b i vs j

/-- No array of memory loses an element. -/
structure Memory.Grows (m m' : Memory) : Prop where
  ain   : ∀ c, Buf.Grows (m.ain.get c) (m'.ain.get c)
  aout  : ∀ c, Buf.Grows (m.aout.get c) (m'.aout.get c)
  ch    : ∀ c, Buf.Grows (m.ch.get c) (m'.ch.get c)
  tx    : ∀ l, Buf.Grows (m.tx.get l) (m'.tx.get l)
  rx    : ∀ l, Buf.Grows (m.rx.get l) (m'.rx.get l)
  bytes : Buf.Grows m.bytes m'.bytes

theorem Memory.Grows.refl (m : Memory) : m.Grows m :=
  ⟨fun _ => .refl _, fun _ => .refl _, fun _ => .refl _, fun _ => .refl _, fun _ => .refl _, .refl _⟩

theorem Memory.Grows.trans {m m' m'' : Memory} (a : m.Grows m') (b : m'.Grows m'') : m.Grows m'' where
  ain c i h := b.ain c i (a.ain c i h)
  aout c i h := b.aout c i (a.aout c i h)
  ch c i h := b.ch c i (a.ch c i h)
  tx l i h := b.tx l i (a.tx l i h)
  rx l i h := b.rx l i (a.rx l i h)
  bytes i h := b.bytes i (a.bytes i h)

theorem Stereo.element_grows {x y : Stereo (Buf Sample)} (h : ∀ c, Buf.Grows (x.get c) (y.get c)) {a i : Nat}
    (hx : (x.element a i).isSome) : (y.element a i).isSome := by
  unfold Stereo.element at hx ⊢
  split at hx
  · next ha => simpa [ha] using h ⟨a, ha⟩ i (by simpa using hx)
  · simp at hx

/-- The growth of the arrays, in terms of the elements of memory. -/
theorem Memory.Grows.element {m m' : Memory} (g : m.Grows m') {space : Space} {a i : Nat}
    (h : (m.element space a i).isSome) : (m'.element space a i).isSome := by
  cases space with
  | ain => exact Stereo.element_grows g.ain h
  | aout => exact Stereo.element_grows g.aout h
  | ch => exact Stereo.element_grows g.ch h
  | tx =>
    simp only [Memory.element] at h ⊢
    split at h
    · next ha => simpa [ha] using g.tx ⟨a, ha⟩ i (by simpa using h)
    · simp at h
  | rx =>
    simp only [Memory.element] at h ⊢
    split at h
    · next ha => simpa [ha] using g.rx ⟨a, ha⟩ i (by simpa using h)
    · simp at h
  | bytes =>
    simp only [Memory.element] at h ⊢
    split at h
    · next ha => simpa [ha] using g.bytes i (by simpa using h)
    · simp at h

/-! ### Each write of memory -/

theorem Stereo.grows_set {α : Type} (x : Stereo (Buf α)) (c : Channel) (i : Nat) (vs : List α) (d : Channel) :
    Buf.Grows (x.get d) ((x.set c (Buf.writeRun (x.get c) i vs)).get d) := by
  rw [Stereo.get_set]
  split
  · next h => subst h; exact .writeRun _ i vs
  · exact .refl _

theorem Lanes.grows_set {α : Type} (x : Lanes (Buf α)) (l : Lane) (i : Nat) (vs : List α) (k : Lane) :
    Buf.Grows (x.get k) ((x.set l (Buf.writeRun (x.get l) i vs)).get k) := by
  rw [Lanes.get_set]
  split
  · next h => subst h; exact .writeRun _ i vs
  · exact .refl _

theorem Lanes.grows_ofFn {α : Type} (x : Lanes (Buf α)) (run : Lane → List α) (l : Lane) :
    Buf.Grows (x.get l) ((Lanes.ofFn (fun l => Buf.writeRun (x.get l) 0 (run l))).get l) := by
  rw [Lanes.get_ofFn]
  exact .writeRun _ 0 _

section
variable (m : Memory)

theorem Memory.grows_writeAin (c : Channel) (i : Nat) (vs : List Sample) : m.Grows (m.writeAin c i vs) :=
  { Memory.Grows.refl m with ain := Stereo.grows_set m.ain c i vs }

theorem Memory.grows_writeAout (c : Channel) (i : Nat) (vs : List Sample) : m.Grows (m.writeAout c i vs) :=
  { Memory.Grows.refl m with aout := Stereo.grows_set m.aout c i vs }

theorem Memory.grows_writeCh (c : Channel) (i : Nat) (vs : List Sample) : m.Grows (m.writeCh c i vs) :=
  { Memory.Grows.refl m with ch := Stereo.grows_set m.ch c i vs }

theorem Memory.grows_writeTx (l : Lane) (i : Nat) (vs : List Tone) : m.Grows (m.writeTx l i vs) :=
  { Memory.Grows.refl m with tx := Lanes.grows_set m.tx l i vs }

theorem Memory.grows_writeRx (l : Lane) (i : Nat) (vs : List Sample) : m.Grows (m.writeRx l i vs) :=
  { Memory.Grows.refl m with rx := Lanes.grows_set m.rx l i vs }

theorem Memory.grows_writeBytes (i : Nat) (vs : List Byte) : m.Grows (m.writeBytes i vs) :=
  { Memory.Grows.refl m with bytes := Buf.Grows.writeRun m.bytes i vs }

theorem Memory.grows_writeTxLanes (run : Lane → List Tone) : m.Grows (m.writeTxLanes run) :=
  { Memory.Grows.refl m with tx := Lanes.grows_ofFn m.tx run }

theorem Memory.grows_writeRxLanes (run : Lane → List Sample) : m.Grows (m.writeRxLanes run) :=
  { Memory.Grows.refl m with rx := Lanes.grows_ofFn m.rx run }

theorem Memory.grows_hostWrite (space : Space) (a i : Nat) (v : Int) : m.Grows (m.hostWrite space a i v) := by
  cases space <;> simp only [Memory.hostWrite]
  case ain =>
    split
    · exact m.grows_writeAin ..
    · exact .refl m
  case rx =>
    split
    · exact m.grows_writeRx ..
    · exact .refl m
  case bytes => exact m.grows_writeBytes ..
  all_goals exact .refl m

end

/-! ### Composite commands -/

/-- What each of EMBED's seven sub-steps does from one state to the next, EMBED does (spec/43_stereo_mux.md R187). -/
theorem embedBody_induction {R : State → State → Prop} (trans : ∀ {s t u}, R s t → R t u → R s u)
    (mod : ∀ {s t}, modBody s = .ok t → R s t) (demux : ∀ {s t}, demuxBody s = .ok t → R s t)
    (bsf : ∀ {c s t}, bsfBody c s = .ok t → R s t) (ovl : ∀ {c s t}, ovlBody c s = .ok t → R s t)
    (mux : ∀ {s t}, muxBody s = .ok t → R s t) {s t : State} (h : embedBody s = .ok t) : R s t := by
  obtain ⟨-, _, h1, _, h2, _, h3, _, h4, _, h5, _, h6, h7⟩ := embedBody_eq_ok.mp h
  exact trans (mod h1) <| trans (demux h2) <| trans (bsf h3) <| trans (bsf h4) <| trans (ovl h5) <|
    trans (ovl h6) (mux h7)

/-- What XLANES and DECODE do from one state to the next, DEMOD does (spec/44_envelope_slicer.md R218). -/
theorem demodBody_induction {R : State → State → Prop} (trans : ∀ {s t u}, R s t → R t u → R s u)
    (xlanes : ∀ {s t}, xlanesBody s = .ok t → R s t) (decode : ∀ {s t}, decodeBody s = .ok t → R s t)
    {s t : State} (h : demodBody s = .ok t) : R s t := by
  obtain ⟨-, _, h1, h2⟩ := demodBody_eq_ok.mp h
  exact trans (xlanes h1) (decode h2)

end Sys2Proof.Machine
end

section
/-! Valid bits, command by command and step by step. -/

namespace Sys2Proof.Machine

variable {s t : State}

theorem modBody_grows (h : modBody s = .ok t) : s.mem.Grows t.mem := by
  obtain ⟨-, -, -, -, _, -, rfl⟩ := modBody_eq_ok.mp h
  exact s.mem.grows_writeTxLanes _

theorem demuxBody_grows (h : demuxBody s = .ok t) : s.mem.Grows t.mem := by
  obtain ⟨-, _, -, _, -, rfl⟩ := demuxBody_eq_ok.mp h
  exact (s.mem.grows_writeCh ..).trans (Memory.grows_writeCh ..)

theorem bsfBody_grows {c : Channel} (h : bsfBody c s = .ok t) : s.mem.Grows t.mem := by
  obtain ⟨-, -, -, -, _, -, rfl⟩ := bsfBody_eq_ok.mp h
  exact s.mem.grows_writeCh ..

theorem ovlBody_grows {c : Channel} (h : ovlBody c s = .ok t) : s.mem.Grows t.mem := by
  obtain ⟨-, -, _, -, _, -, _, -, _, -, _, -, rfl⟩ := ovlBody_eq_ok.mp h
  exact s.mem.grows_writeCh ..

theorem muxBody_grows (h : muxBody s = .ok t) : s.mem.Grows t.mem := by
  obtain ⟨-, _, -, _, -, rfl⟩ := muxBody_eq_ok.mp h
  exact (s.mem.grows_writeAout ..).trans (Memory.grows_writeAout ..)

theorem xlanesBody_grows (h : xlanesBody s = .ok t) : s.mem.Grows t.mem := by
  obtain ⟨-, -, -, -, -, _, -, _, -, rfl⟩ := xlanesBody_eq_ok.mp h
  exact s.mem.grows_writeRxLanes _

theorem decodeBody_grows (h : decodeBody s = .ok t) : s.mem.Grows t.mem := by
  obtain ⟨-, -, -, -, -, _, -, rfl⟩ := decodeBody_eq_ok.mp h
  exact s.mem.grows_writeBytes ..

theorem bodyOf_grows {i : Instr} (h : bodyOf i s = .ok t) : s.mem.Grows t.mem := by
  cases i with
  | nop | clr => cases h; exact .refl _
  | synth =>
    obtain ⟨-, -, -, rfl⟩ := synthBody_eq_ok.mp h
    exact s.mem.grows_writeTx ..
  | mod => exact modBody_grows h
  | bpf =>
    obtain ⟨-, -, -, -, -, _, -, rfl⟩ := bpfBody_eq_ok.mp h
    exact s.mem.grows_writeRx ..
  | bsf => exact bsfBody_grows h
  | xlanes => exact xlanesBody_grows h
  | demux => exact demuxBody_grows h
  | ovl => exact ovlBody_grows h
  | mux => exact muxBody_grows h
  | embed =>
    exact embedBody_induction (R := fun s t => s.mem.Grows t.mem) .trans modBody_grows demuxBody_grows
      bsfBody_grows ovlBody_grows muxBody_grows h
  | decide =>
    obtain ⟨-, -, -, -, -, _, -, rfl⟩ := decideBody_eq_ok.mp h
    exact .refl _
  | decode => exact decodeBody_grows h
  | demod =>
    exact demodBody_induction (R := fun s t => s.mem.Grows t.mem) .trans xlanesBody_grows decodeBody_grows h

theorem exec_grows {i : Instr} (h : exec i s = .next t) : s.mem.Grows t.mem := by
  obtain ⟨-, rfl⟩ | ⟨-, -, rfl⟩ | ⟨-, -, u, hu, rfl⟩ | ⟨-, -, e, -, rfl⟩ := exec_cases h
  · exact .refl _
  · exact .refl _
  · have g := bodyOf_grows hu
    exact g
  · exact .refl _

/-- A word that is no command raises `Illegal`, or is discarded in the error state. -/
theorem illegal_cases {e : Err} (h : command s (fun _ => .error e) = .next t) :
    (s.status.err = true ∧ t = s) ∨ (s.status.err = false ∧ t = s.raise e) := by
  obtain ⟨he, rfl⟩ | ⟨he, ⟨u, hu, -⟩ | ⟨e', hu, rfl⟩⟩ := command_cases h
  · exact .inl ⟨he, rfl⟩
  · cases hu
  · cases hu
    exact .inr ⟨he, rfl⟩

/-- What a host write of a register other than CMD leaves as it was: all that commands alone write. -/
structure RegisterFrame (s t : State) : Prop where
  status   : t.status = s.status
  info0    : t.errInfo0 = s.errInfo0
  info1    : t.errInfo1 = s.errInfo1
  envSum   : t.envSum = s.envSum
  envZones : t.envZones = s.envZones
  laneLen  : t.laneLen = s.laneLen
  chLen    : t.chLen = s.chLen
  aoutLen  : t.aoutLen = s.aoutLen
  mem      : t.mem = s.mem
  params   : t.params = s.params
  pending  : t.pending = s.pending
  replies  : t.replies = s.replies

theorem writeReg_frame {r : Reg} {v : Word} (h : s.writeReg r v = some t) : RegisterFrame s t := by
  cases r <;> cases h <;> constructor <;> rfl

theorem Performed.grows {a : HostAction} (h : Performed s a t) (ha : a ≠ .reset) : s.mem.Grows t.mem := by
  cases h with
  | reset => exact absurd rfl ha
  | read => exact .refl _
  | register r v _ hw => exact (writeReg_frame hw).mem ▸ .refl _
  | command v i _ hd he =>
    have g := exec_grows he
    exact g
  | illegal v _ hd hc => obtain ⟨-, rfl⟩ | ⟨-, rfl⟩ := illegal_cases hc <;> exact .refl _
  | buffer space a i v => exact s.mem.grows_hostWrite space a i v

/-- Settles O13: no action of the host but a reset loses an element. -/
theorem onlyResetClearsValidBits : Obligations.OnlyResetClearsValidBits := by
  intro s t h hreset space a i
  suffices g : s.mem.Grows t.mem from g.element
  obtain ⟨-, rfl⟩ | ⟨act, rest, hp, hperf⟩ := step_cases h
  · exact .refl _
  · exact hperf.grows (by simpa [hp] using hreset)

end Sys2Proof.Machine
end

section
/-! The error state (spec/60_exceptions.md R255, R257): only CLR's word and a reset leave it. -/

namespace Sys2Proof.Machine

variable {s t : State}

/-- A word selects a row of the opcode table, and the command is built from it (spec/30_encoding.md R100). -/
theorem exists_row_of_decode {w : Word} {i : Instr} (h : decode w = .ok i) :
    ∃ r ∈ opcodeTable, w &&& r.mask = r.pattern ∧ r.build (operandC w) (operandK w) (operandB w) = i := by
  unfold decode at h
  split at h
  · next r hr =>
    cases h
    exact ⟨r, List.mem_of_find?_eq_some hr, by simpa using List.find?_some hr, rfl⟩
  · cases h

/-- CLR has one word: its row's mask keeps every bit. -/
theorem eq_encode_clr_of_decode {w : Word} (h : decode w = .ok .clr) : w = encode .clr := by
  obtain ⟨r, hr, hw, hb⟩ := exists_row_of_decode h
  fin_cases hr <;> cases hb
  exact (BitVec.and_allOnes (x := w)).symm.trans hw

/-- A command other than CLR is discarded in the error state. -/
theorem exec_discarded {i : Instr} (h : exec i s = .next t) (hi : i ≠ .clr) (he : s.status.err = true) : t = s := by
  rw [exec_eq_command hi, command_discarded he] at h
  cases h
  rfl

theorem Performed.keeps_error {a : HostAction} (h : Performed s a t) (he : s.status.err = true) (ha : a ≠ .reset)
    (hclr : a ≠ .regWrite 4 0 (encode .clr)) :
    t.status = s.status ∧ t.errInfo0 = s.errInfo0 ∧ t.errInfo1 = s.errInfo1 ∧
      ((∀ space n i v, a ≠ .bufWrite space n i v) → t.mem = s.mem) := by
  cases h with
  | reset => exact absurd rfl ha
  | read => exact ⟨rfl, rfl, rfl, fun _ => rfl⟩
  | register r v _ hw =>
    have f := writeReg_frame hw
    exact ⟨f.status, f.info0, f.info1, fun _ => f.mem⟩
  | command v i _ hd hx =>
    have hi : i ≠ .clr := by
      rintro rfl
      exact hclr (by rw [eq_encode_clr_of_decode hd])
    obtain rfl := exec_discarded hx hi he
    exact ⟨rfl, rfl, rfl, fun _ => rfl⟩
  | illegal v _ hd hc =>
    obtain ⟨-, rfl⟩ | ⟨hf, -⟩ := illegal_cases hc
    · exact ⟨rfl, rfl, rfl, fun _ => rfl⟩
    · simp [he] at hf
  | buffer space n i v => exact ⟨rfl, rfl, rfl, fun hb => absurd rfl (hb space n i v)⟩

/-- Settles O14: an idle step changes nothing, and the host's actions keep the error as `Performed.keeps_error`
says. -/
theorem errorIsSticky : Obligations.ErrorIsSticky := by
  intro s t he h hreset hclr
  obtain ⟨-, rfl⟩ | ⟨a, rest, hp, hperf⟩ := step_cases h
  · exact ⟨rfl, rfl, rfl, fun _ => rfl⟩
  · simp only [hp, List.head?_cons, ne_eq, Option.some.injEq] at hreset hclr ⊢
    exact hperf.keeps_error he hreset hclr

end Sys2Proof.Machine
end

section
/-! The invariant (Safety.lean): its clauses on memory, lengths, channels and the envelope are kept by every
command's body, whatever STATUS holds; the clause on STATUS is kept by how a command ends. -/

namespace Sys2Proof.Machine

variable {s t : State}

/-- The clauses of the invariant that do not speak of errors. -/
structure State.DataInv (s : State) : Prop where
  memory   : Memory.wf s.params s.mem = true
  lengths  : s.lengthsFit
  channels : s.channelsFilled
  envelope : s.envSum.toNat ≤ 32768 * s.envZones.toNat

theorem State.Inv.data (h : s.Inv) : s.DataInv := ⟨h.memory, h.lengths, h.channels, h.envelope⟩

theorem State.DataInv.inv (h : s.DataInv) (he : s.errorAgrees) : s.Inv :=
  ⟨h.memory, he, h.lengths, h.channels, h.envelope⟩

/-! ### Filled channels -/

theorem State.written_grows (g : s.mem.Grows t.mem) {space : Space} {a i n : Nat} (h : s.written space a i n) :
    t.written space a i n := fun j hj => g.element (h j hj)

/-- Channels stay filled while memory grows and the two lengths stay. -/
theorem State.channelsFilled_grows (h : s.channelsFilled) (g : s.mem.Grows t.mem) (hc : t.chLen = s.chLen)
    (ho : t.aoutLen = s.aoutLen) : t.channelsFilled := by
  intro a ha
  rw [hc, ho]
  exact ⟨written_grows g (h a ha).1, written_grows g (h a ha).2⟩

/-- Both arrays of a pair are filled below the length of the runs written to them. -/
theorem Stereo.isSome_set_both {x : Stereo (Buf Sample)} {n : Nat} {v0 v1 : List Sample} (h0 : v0.length = n)
    (h1 : v1.length = n) (c : Channel) {j : Nat} (hj : j < n) :
    (Buf.get (((x.set 0 (Buf.writeRun (x.get 0) 0 v0)).set 1
      (Buf.writeRun ((x.set 0 (Buf.writeRun (x.get 0) 0 v0)).get 1) 0 v1)).get c) j).isSome := by
  have hread := Buf.readRun_eq_ok (Stereo.readRun_set_both (x := x) h0 h1 c)
  rw [← Nat.zero_add j, hread.2 j hj, List.getElem?_eq_getElem (hread.1.symm ▸ hj)]
  rfl

/-! ### Bodies -/

/-- The envelope's bound outlasts saturation. -/
theorem sat32_sum_le {sum zones : Nat} (h : sum ≤ 32768 * zones) :
    (sat32 sum).toNat ≤ 32768 * (sat32 zones).toNat := by
  rw [sat32_toNat, sat32_toNat]
  omega

theorem synthBody_data {c : Channel} {k : Carrier} {b : Bool} (h : synthBody c k b s = .ok t) (hs : s.DataInv) :
    t.DataInv := by
  obtain ⟨hspp, -, hcap, rfl⟩ := synthBody_eq_ok.mp h
  have hstop : s.symIdx.toNat * s.cfg.spp + s.cfg.spp = (s.symIdx.toNat + 1) * s.cfg.spp := (Nat.succ_mul ..).symm
  refine ⟨Memory.wf_writeTx hs.memory ?_ (State.pulse_wf hspp b k), ⟨?_, hs.lengths.2⟩,
    State.channelsFilled_grows hs.channels (s.mem.grows_writeTx ..) rfl rfl, hs.envelope⟩
  · rw [State.pulse_length, hstop]
    exact hcap
  · exact (sat32_toNat _).le.trans ((Nat.min_le_left ..).trans (max_le hs.lengths.1 hcap))

theorem modBody_data (h : modBody s = .ok t) (hs : s.DataInv) : t.DataInv := by
  obtain ⟨hspp, -, -, hcap, bytes, hb, rfl⟩ := modBody_eq_ok.mp h
  refine ⟨Memory.wf_writeTxLanes hs.memory (fun l => ?_) (laneStream_wf hspp bytes), ⟨?_, hs.lengths.2⟩,
    State.channelsFilled_grows hs.channels (s.mem.grows_writeTxLanes _) rfl rfl, hs.envelope⟩
  · rw [laneStream_length, (Buf.readRun_eq_ok hb).1]
    exact hcap
  · exact (sat32_toNat _).le.trans ((Nat.min_le_left ..).trans hcap)

theorem bpfBody_data {c : Channel} {k : Carrier} (h : bpfBody c k s = .ok t) (hs : s.DataInv) : t.DataInv := by
  obtain ⟨-, -, -, ⟨hain, hseg⟩, -, x, hx, rfl⟩ := bpfBody_eq_ok.mp h
  have hlen : 0 + (bandPass s k x).length ≤ s.params.maxFrames := by
    rw [bandPass_length, (Buf.readRun_eq_ok hx).1]
    omega
  exact ⟨Memory.wf_writeRx hs.memory hlen, hs.lengths,
    State.channelsFilled_grows hs.channels (s.mem.grows_writeRx ..) rfl rfl, hs.envelope⟩

theorem bsfBody_data {c : Channel} (h : bsfBody c s = .ok t) (hs : s.DataInv) : t.DataInv := by
  obtain ⟨-, -, hcap, -, x, hx, rfl⟩ := bsfBody_eq_ok.mp h
  have hlen : 0 + (bandStop s x).length ≤ s.params.maxFrames := by
    rw [bandStop_length, (Buf.readRun_eq_ok hx).1]
    omega
  exact ⟨Memory.wf_writeCh hs.memory hlen, hs.lengths,
    State.channelsFilled_grows hs.channels (s.mem.grows_writeCh ..) rfl rfl, hs.envelope⟩

theorem xlanesBody_data (h : xlanesBody s = .ok t) (hs : s.DataInv) : t.DataInv := by
  obtain ⟨-, -, -, ⟨hain, hseg⟩, -, x0, h0, x1, h1, rfl⟩ := xlanesBody_eq_ok.mp h
  have hcap : s.segLen ≤ s.params.maxFrames := by omega
  refine ⟨Memory.wf_writeRxLanes hs.memory (fun l => ?_), hs.lengths,
    State.channelsFilled_grows hs.channels (s.mem.grows_writeRxLanes _) rfl rfl, hs.envelope⟩
  rw [bandPass_length]
  split
  · exact (Buf.readRun_eq_ok h0).1.trans_le hcap
  · exact (Buf.readRun_eq_ok h1).1.trans_le hcap

theorem demuxBody_data (h : demuxBody s = .ok t) (hs : s.DataInv) : t.DataInv := by
  have g := demuxBody_grows h
  obtain ⟨hcap, v0, h0, v1, h1, rfl⟩ := demuxBody_eq_ok.mp h
  have hlen0 := (Buf.readRun_eq_ok h0).1
  have hlen1 := (Buf.readRun_eq_ok h1).1
  have hcap0 : 0 + v0.length ≤ s.params.maxFrames := by omega
  have hcap1 : 0 + v1.length ≤ s.params.maxFrames := by omega
  refine ⟨Memory.wf_writeCh (Memory.wf_writeCh hs.memory hcap0) hcap1,
    ⟨hs.lengths.1, hcap, hs.lengths.2.2⟩, fun a ha => ⟨?_, State.written_grows g (hs.channels a ha).2⟩, hs.envelope⟩
  refine (written_ch_iff (c := ⟨a, ha⟩)).mpr fun j hj => ?_
  rw [Nat.zero_add]
  exact Stereo.isSome_set_both hlen0 hlen1 _ hj

theorem ovlBody_data {c : Channel} (h : ovlBody c s = .ok t) (hs : s.DataInv) : t.DataInv := by
  obtain ⟨hcap, hlane, x, hx, t0, h0, t1, h1, t2, h2, t3, h3, rfl⟩ := ovlBody_eq_ok.mp h
  have hlen := mixRun_length (Buf.readRun_eq_ok hx).1 (Buf.readRun_eq_ok h0).1 (Buf.readRun_eq_ok h1).1
    (Buf.readRun_eq_ok h2).1 (Buf.readRun_eq_ok h3).1
  have hfit : 0 + (mixRun x t0 t1 t2 t3).length ≤ s.params.maxFrames := by omega
  exact ⟨Memory.wf_writeCh hs.memory hfit, hs.lengths,
    State.channelsFilled_grows hs.channels (s.mem.grows_writeCh ..) rfl rfl, hs.envelope⟩

theorem muxBody_data (h : muxBody s = .ok t) (hs : s.DataInv) : t.DataInv := by
  have g := muxBody_grows h
  obtain ⟨hcap, v0, h0, v1, h1, rfl⟩ := muxBody_eq_ok.mp h
  have hlen0 := (Buf.readRun_eq_ok h0).1
  have hlen1 := (Buf.readRun_eq_ok h1).1
  have hcap0 : 0 + v0.length ≤ s.params.maxFrames := by omega
  have hcap1 : 0 + v1.length ≤ s.params.maxFrames := by omega
  refine ⟨Memory.wf_writeAout (Memory.wf_writeAout hs.memory hcap0) hcap1,
    ⟨hs.lengths.1, hcap, hcap⟩, fun a ha => ⟨State.written_grows g (hs.channels a ha).1, ?_⟩, hs.envelope⟩
  refine (written_aout_iff (c := ⟨a, ha⟩)).mpr fun j hj => ?_
  rw [Nat.zero_add]
  exact Stereo.isSome_set_both hlen0 hlen1 _ hj

theorem decideBody_data {c : Channel} {k : Carrier} (h : decideBody c k s = .ok t) (hs : s.DataInv) :
    t.DataInv := by
  obtain ⟨-, -, -, -, -, seg, -, rfl⟩ := decideBody_eq_ok.mp h
  exact ⟨hs.memory, hs.lengths, hs.channels, sat32_sum_le (envelope_sum_le s.cfg seg)⟩

theorem decodeBody_data (h : decodeBody s = .ok t) (hs : s.DataInv) : t.DataInv := by
  obtain ⟨-, -, -, -, hcap, lanes, -, rfl⟩ := decodeBody_eq_ok.mp h
  refine ⟨Memory.wf_writeBytes hs.memory ?_, hs.lengths,
    State.channelsFilled_grows hs.channels (s.mem.grows_writeBytes ..) rfl rfl, hs.envelope⟩
  rw [decodeSymbols_length, Nat.zero_add]
  exact hcap

theorem bodyOf_data {i : Instr} (h : bodyOf i s = .ok t) (hs : s.DataInv) : t.DataInv := by
  cases i with
  | nop | clr => cases h; exact hs
  | synth => exact synthBody_data h hs
  | mod => exact modBody_data h hs
  | bpf => exact bpfBody_data h hs
  | bsf => exact bsfBody_data h hs
  | xlanes => exact xlanesBody_data h hs
  | demux => exact demuxBody_data h hs
  | ovl => exact ovlBody_data h hs
  | mux => exact muxBody_data h hs
  | embed =>
    exact embedBody_induction (R := fun s t => s.DataInv → t.DataInv) (fun f g hs => g (f hs)) modBody_data
      demuxBody_data bsfBody_data ovlBody_data muxBody_data h hs
  | decide => exact decideBody_data h hs
  | decode => exact decodeBody_data h hs
  | demod =>
    exact demodBody_induction (R := fun s t => s.DataInv → t.DataInv) (fun f g hs => g (f hs)) xlanesBody_data
      decodeBody_data h hs

/-! ### Ends of a command -/

theorem ErrCode.number_bounds (e : ErrCode) : 1 ≤ e.number.toNat ∧ e.number.toNat ≤ 7 := by
  cases e <;> decide

theorem State.complete_inv (hs : s.DataInv) (he : s.errorAgrees) (hf : s.status.err = false) : s.complete.Inv :=
  State.DataInv.inv ⟨hs.memory, hs.lengths, hs.channels, hs.envelope⟩
    ⟨fun _ => he.1 hf, fun ht => absurd (hf.symm.trans ht) (by decide)⟩

theorem State.raise_inv (hs : s.Inv) (e : Err) : (s.raise e).Inv :=
  State.DataInv.inv ⟨hs.memory, hs.lengths, hs.channels, hs.envelope⟩
    ⟨fun hf => absurd hf (by simp), fun _ => ⟨rfl, e.code.number_bounds⟩⟩

theorem State.clearError_inv (hs : s.Inv) : s.clearError.Inv :=
  State.DataInv.inv ⟨hs.memory, hs.lengths, hs.channels, hs.envelope⟩
    ⟨fun _ => ⟨rfl, rfl, rfl⟩, fun ht => absurd ht (by simp)⟩

/-- A body reads and writes neither the error's flags nor its words. -/
theorem BodyFrame.errorAgrees (f : BodyFrame s t) (h : s.errorAgrees) : t.errorAgrees := by
  unfold State.errorAgrees
  rw [f.err, f.done, f.code, f.info0, f.info1]
  exact h

theorem exec_inv {i : Instr} (h : exec i s = .next t) (hs : s.Inv) : t.Inv := by
  obtain ⟨-, rfl⟩ | ⟨-, -, rfl⟩ | ⟨-, hf, u, hu, rfl⟩ | ⟨-, -, e, -, rfl⟩ := exec_cases h
  · exact State.clearError_inv hs
  · exact hs
  · have f := bodyOf_frame hu
    exact State.complete_inv (bodyOf_data hu hs.data) (f.errorAgrees hs.error) (f.err.trans hf)
  · exact State.raise_inv hs e

/-! ### Actions of the host -/

theorem RegisterFrame.inv (f : RegisterFrame s t) (hs : s.Inv) : t.Inv where
  memory := by rw [f.params, f.mem]; exact hs.memory
  error := by
    unfold State.errorAgrees
    rw [f.status, f.info0, f.info1]
    exact hs.error
  lengths := by
    unfold State.lengthsFit
    rw [f.laneLen, f.chLen, f.aoutLen, f.params]
    exact hs.lengths
  channels := State.channelsFilled_grows hs.channels (f.mem ▸ .refl _) f.chLen f.aoutLen
  envelope := by rw [f.envSum, f.envZones]; exact hs.envelope

theorem State.platformReset_inv (s : State) : s.platformReset.Inv where
  memory := Memory.wf_empty _
  error := ⟨fun _ => ⟨rfl, rfl, rfl⟩, fun h => absurd h Bool.false_ne_true⟩
  lengths := ⟨Nat.zero_le _, Nat.zero_le _, Nat.zero_le _⟩
  channels := fun _ _ => ⟨fun j hj => absurd hj (Nat.not_lt_zero j), fun j hj => absurd hj (Nat.not_lt_zero j)⟩
  envelope := Nat.zero_le _

theorem Performed.inv {a : HostAction} (h : Performed s a t) (hs : s.Inv) : t.Inv := by
  cases h with
  | reset => exact s.platformReset_inv
  | read => exact ⟨hs.memory, hs.error, hs.lengths, hs.channels, hs.envelope⟩
  | register r v _ hw => exact (writeReg_frame hw).inv hs
  | command v i _ hd hx => exact exec_inv hx ⟨hs.memory, hs.error, hs.lengths, hs.channels, hs.envelope⟩
  | illegal v _ hd hc =>
    have hs' : State.Inv { s with cmd := v } := ⟨hs.memory, hs.error, hs.lengths, hs.channels, hs.envelope⟩
    obtain ⟨-, rfl⟩ | ⟨-, rfl⟩ := illegal_cases hc
    · exact hs'
    · exact State.raise_inv hs' _
  | buffer space a i v hw ha hi =>
    exact ⟨Memory.wf_hostWrite hs.memory hi, hs.error, hs.lengths,
      State.channelsFilled_grows hs.channels (s.mem.grows_hostWrite ..) rfl rfl, hs.envelope⟩

/-- Settles O12: an idle step changes nothing, and every action of the host keeps the invariant. -/
theorem everyStepKeepsInvariant : Obligations.EveryStepKeepsInvariant := by
  intro s t hs h
  obtain ⟨-, rfl⟩ | ⟨a, rest, -, hperf⟩ := step_cases h
  · exact hs
  · exact hperf.inv ⟨hs.memory, hs.error, hs.lengths, hs.channels, hs.envelope⟩

end Sys2Proof.Machine
end

section
/-! Frames of the commands (spec/10_state.md R22, R27, R39, R40, spec/20_memory.md R60): what no command writes, and
who writes the rest. -/

namespace Sys2Proof.Machine

variable {s t : State}

/-- Settles O16: an aborted, discarded or clearing command writes none of these, and a body has `BodyFrame`. -/
theorem commandsKeepInputsAndConfiguration : Obligations.CommandsKeepInputsAndConfiguration := by
  intro i s t h
  obtain ⟨-, rfl⟩ | ⟨-, -, rfl⟩ | ⟨-, -, u, hu, rfl⟩ | ⟨-, -, e, -, rfl⟩ := exec_cases h
  · exact ⟨rfl, rfl, rfl, rfl, rfl, rfl, rfl, rfl, rfl, rfl⟩
  · exact ⟨rfl, rfl, rfl, rfl, rfl, rfl, rfl, rfl, rfl, rfl⟩
  · have f := bodyOf_frame hu
    exact ⟨f.cmd, f.segStart, f.segSyms, f.symIdx, f.cfg, f.ainLen, f.ain, f.params, f.pending, f.replies⟩
  · exact ⟨rfl, rfl, rfl, rfl, rfl, rfl, rfl, rfl, rfl, rfl⟩

/-- A part of the state that some commands write and the others do not. -/
inductive Part where
  | bytes
  | lanes
  | chLen
  | ch
  | rx
  | out
  | decision

/-- Two states agree on a part. -/
def Part.same : Part → State → State → Prop
  | .bytes, s, t => t.bytesLen = s.bytesLen ∧ t.mem.bytes = s.mem.bytes
  | .lanes, s, t => t.laneLen = s.laneLen ∧ t.mem.tx = s.mem.tx
  | .chLen, s, t => t.chLen = s.chLen
  | .ch, s, t => t.mem.ch = s.mem.ch
  | .rx, s, t => t.rxLen = s.rxLen ∧ t.mem.rx = s.mem.rx
  | .out, s, t => t.aoutLen = s.aoutLen ∧ t.mem.aout = s.mem.aout
  | .decision, s, t => t.status.bit = s.status.bit ∧ t.envSum = s.envSum ∧ t.envZones = s.envZones

/-- The commands that write a part. -/
def Part.writtenBy : Part → Instr → Bool
  | .bytes, .decode | .bytes, .demod => true
  | .lanes, .synth _ _ _ | .lanes, .mod | .lanes, .embed => true
  | .chLen, .demux | .chLen, .embed => true
  | .ch, .demux | .ch, .bsf _ | .ch, .ovl _ | .ch, .embed => true
  | .rx, .bpf _ _ | .rx, .xlanes | .rx, .demod => true
  | .out, .mux | .out, .embed => true
  | .decision, .decide _ _ => true
  | _, _ => false

theorem Part.same.refl (p : Part) (s : State) : p.same s s := by
  cases p <;> simp [Part.same]

theorem Part.same.trans {p : Part} {u : State} (a : p.same s t) (b : p.same t u) : p.same s u := by
  cases p <;> simp_all [Part.same]

variable {p : Part}

theorem modBody_same (hp : p.writtenBy .mod = false) (h : modBody s = .ok t) : p.same s t := by
  obtain ⟨-, -, -, -, _, -, rfl⟩ := modBody_eq_ok.mp h
  cases p <;> simp_all [Part.writtenBy, Part.same, Memory.writeTxLanes]

theorem demuxBody_same (hp : p.writtenBy .demux = false) (h : demuxBody s = .ok t) : p.same s t := by
  obtain ⟨-, _, -, _, -, rfl⟩ := demuxBody_eq_ok.mp h
  cases p <;> simp_all [Part.writtenBy, Part.same]

theorem bsfBody_same {c : Channel} (hp : p.writtenBy (.bsf c) = false) (h : bsfBody c s = .ok t) : p.same s t := by
  obtain ⟨-, -, -, -, _, -, rfl⟩ := bsfBody_eq_ok.mp h
  cases p <;> simp_all [Part.writtenBy, Part.same]

theorem ovlBody_same {c : Channel} (hp : p.writtenBy (.ovl c) = false) (h : ovlBody c s = .ok t) : p.same s t := by
  obtain ⟨-, -, _, -, _, -, _, -, _, -, _, -, rfl⟩ := ovlBody_eq_ok.mp h
  cases p <;> simp_all [Part.writtenBy, Part.same]

theorem muxBody_same (hp : p.writtenBy .mux = false) (h : muxBody s = .ok t) : p.same s t := by
  obtain ⟨-, _, -, _, -, rfl⟩ := muxBody_eq_ok.mp h
  cases p <;> simp_all [Part.writtenBy, Part.same]

theorem xlanesBody_same (hp : p.writtenBy .xlanes = false) (h : xlanesBody s = .ok t) : p.same s t := by
  obtain ⟨-, -, -, -, -, _, -, _, -, rfl⟩ := xlanesBody_eq_ok.mp h
  cases p <;> simp_all [Part.writtenBy, Part.same, Memory.writeRxLanes]

theorem decodeBody_same (hp : p.writtenBy .decode = false) (h : decodeBody s = .ok t) : p.same s t := by
  obtain ⟨-, -, -, -, -, _, -, rfl⟩ := decodeBody_eq_ok.mp h
  cases p <;> simp_all [Part.writtenBy, Part.same]

/-- A part EMBED does not write is written by none of its sub-steps. -/
theorem Part.not_writtenBy_embed (hp : p.writtenBy .embed = false) :
    p.writtenBy .mod = false ∧ p.writtenBy .demux = false ∧ (∀ c, p.writtenBy (.bsf c) = false) ∧
      (∀ c, p.writtenBy (.ovl c) = false) ∧ p.writtenBy .mux = false := by
  cases p <;> simp_all [Part.writtenBy]

/-- A part DEMOD does not write is written neither by XLANES nor by DECODE. -/
theorem Part.not_writtenBy_demod (hp : p.writtenBy .demod = false) :
    p.writtenBy .xlanes = false ∧ p.writtenBy .decode = false := by
  cases p <;> simp_all [Part.writtenBy]

theorem bodyOf_same {i : Instr} (hp : p.writtenBy i = false) (h : bodyOf i s = .ok t) : p.same s t := by
  cases i with
  | nop | clr => cases h; exact .refl p s
  | synth =>
    obtain ⟨-, -, -, rfl⟩ := synthBody_eq_ok.mp h
    cases p <;> simp_all [Part.writtenBy, Part.same]
  | mod => exact modBody_same hp h
  | bpf =>
    obtain ⟨-, -, -, -, -, _, -, rfl⟩ := bpfBody_eq_ok.mp h
    cases p <;> simp_all [Part.writtenBy, Part.same]
  | bsf => exact bsfBody_same hp h
  | xlanes => exact xlanesBody_same hp h
  | demux => exact demuxBody_same hp h
  | ovl => exact ovlBody_same hp h
  | mux => exact muxBody_same hp h
  | embed =>
    obtain ⟨hmod, hdemux, hbsf, hovl, hmux⟩ := p.not_writtenBy_embed hp
    exact embedBody_induction (R := p.same) .trans (modBody_same hmod) (demuxBody_same hdemux)
      (bsfBody_same (hbsf _)) (ovlBody_same (hovl _)) (muxBody_same hmux) h
  | decide =>
    obtain ⟨-, -, -, -, -, _, -, rfl⟩ := decideBody_eq_ok.mp h
    cases p <;> simp_all [Part.writtenBy, Part.same]
  | decode => exact decodeBody_same hp h
  | demod =>
    obtain ⟨hx, hd⟩ := p.not_writtenBy_demod hp
    exact demodBody_induction (R := p.same) .trans (xlanesBody_same hx) (decodeBody_same hd) h

theorem State.complete_same (p : Part) (s : State) : p.same s s.complete := by
  cases p <;> simp [Part.same]

theorem State.raise_same (p : Part) (s : State) (e : Err) : p.same s (s.raise e) := by
  cases p <;> simp [Part.same]

theorem State.clearError_same (p : Part) (s : State) : p.same s s.clearError := by
  cases p <;> simp [Part.same]

/-- A command that is not one of a part's writers leaves the part as it was, however it ends. -/
theorem exec_same {i : Instr} (h : exec i s = .next t) (p : Part) (hp : p.writtenBy i = false) : p.same s t := by
  obtain ⟨-, rfl⟩ | ⟨-, -, rfl⟩ | ⟨-, -, u, hu, rfl⟩ | ⟨-, -, e, -, rfl⟩ := exec_cases h
  · exact s.clearError_same p
  · exact .refl p t
  · exact (bodyOf_same hp hu).trans (u.complete_same p)
  · exact s.raise_same p e

/-- Settles O17: DECIDE is the only writer of the decision. -/
theorem onlyDecideWritesBitAndEnvelope : Obligations.OnlyDecideWritesBitAndEnvelope := by
  intro i s t h hi
  refine exec_same h .decision ?_
  cases i <;> simp_all [Part.writtenBy]

/-- Settles O18: the writers of each part are those the statement lists. -/
theorem buffersHaveTheirWriters : Obligations.BuffersHaveTheirWriters := by
  intro i s t h
  refine ⟨fun hi => exec_same h .bytes ?_, fun hi => exec_same h .lanes ?_, fun hi => exec_same h .chLen ?_,
    fun hi => exec_same h .ch ?_, fun hi => exec_same h .rx ?_, fun hi => exec_same h .out ?_⟩ <;>
  cases i <;> simp_all [Part.writtenBy]

end Sys2Proof.Machine
end

section
/-! The registers (spec/10_state.md R20, R22, R31, R40, R46). -/

namespace Sys2Proof.Machine

/-- Settles O4: the host's write of the word is what the step fetches, and issuing it runs the command. -/
theorem stepRunsDecodedCommand : Obligations.StepRunsDecodedCommand := by
  intro s w rest i hp hd
  simp only [step, fetch_command hp, State.issue, hd]

/-- A register other than the one written, and other than SPP, reads as before. -/
theorem readReg_writeReg_of_ne {s t : State} {r r' : Reg} {v : Word} (h : s.writeReg r v = some t) (hne : r' ≠ r)
    (hspp : r' ≠ .spp) : t.readReg r' = s.readReg r' := by
  cases r <;> cases h <;> cases r' <;> simp [State.readReg] at hne hspp ⊢

theorem readReg_writeReg_self {s t : State} {r : Reg} {v : Word} (h : s.writeReg r v = some t) :
    t.readReg r = v := by
  cases r <;> cases h <;> rfl

/-- Settles O8: the register written holds the word, and the rest is `RegisterFrame` and the register's neighbours. -/
theorem registerWriteFrame : Obligations.RegisterWriteFrame := by
  intro s t r v h
  have f := writeReg_frame h
  exact ⟨readReg_writeReg_self h, fun r' => readReg_writeReg_of_ne h, f.mem, f.params, f.pending, f.replies⟩

/-- Settles O19: the fields of STATUS, from the lowest bit up, bit by bit below 16; above them nothing is stored. -/
theorem statusWordLayout : Obligations.StatusWordLayout := by
  intro st j
  simp only [Status.word, BitVec.getLsbD_append, BitVec.getLsbD_ofBool]
  by_cases hj : j < 16
  · interval_cases j <;> simp
  · grind

/-- SPP is the number of samples of a pulse, times a million, where that is a whole number (R31). -/
theorem ConfigRegs.spp_eq_iff (r : ConfigRegs) {n : Nat} (hn : 1 ≤ n) :
    r.spp = n ↔ r.pulseUs.toNat * r.fs.toNat = n * 1000000 := by
  simp only [ConfigRegs.spp]
  constructor
  · intro h
    split at h <;> omega
  · intro h
    have hpos : 0 < r.pulseUs.toNat * r.fs.toNat := by omega
    rw [if_pos ⟨Nat.pos_of_mul_pos_left hpos, Nat.pos_of_mul_pos_right hpos, by omega⟩]
    omega

/-- Settles O22 by the equation of SPP, which leaves 0 where no whole number solves it. -/
theorem samplesPerPulse : Obligations.SamplesPerPulse := by
  refine fun r => ⟨fun n hn => r.spp_eq_iff hn, ⟨?_, ?_⟩, fun h => ?_, by decide⟩
  · rintro h ⟨n, hn, hp⟩
    have := (r.spp_eq_iff hn).mpr hp
    omega
  · intro h
    by_contra h0
    have hpos := Nat.pos_of_ne_zero h0
    exact h ⟨r.spp, hpos, (r.spp_eq_iff hpos).mp rfl⟩
  · have hfit : r.spp ≤ u32Max := Nat.le_of_lt_succ h
    rw [ConfigRegs.sppWord, if_pos hfit, BitVec.toNat_ofNat, Nat.mod_eq_of_lt h]

/-- Settles O23, lane by lane. -/
theorem laneMapping : Obligations.LaneMapping := by
  intro l
  refine ⟨rfl, rfl, Fin.ext ?_, fun _ => rfl, fun r => ?_⟩
  · simp only [laneOf, channelOf, carrierOf]
    omega
  · fin_cases l <;> rfl

/-- An offset is mapped where a register of R20's list stands at it. -/
theorem Reg.exists_offset_iff (off : Nat) : (∃ r : Reg, r.offset = off) ↔ off ∈ Reg.all.map Reg.offset := by
  constructor
  · rintro ⟨r, rfl⟩
    exact List.mem_map_of_mem (by cases r <;> decide)
  · intro h
    obtain ⟨r, -, hr⟩ := List.mem_map.mp h
    exact ⟨r, hr⟩

/-- Settles O60: the offsets are R20's, and below 0x098 the rest is seen offset by offset. -/
theorem registerMap : Obligations.RegisterMap := by
  refine ⟨rfl, rfl, rfl, rfl, fun off => ?_⟩
  rw [Reg.exists_offset_iff]
  by_cases h : off < 0x098
  · interval_cases off <;> decide
  · simp [Reg.all, Reg.offset, h]
    omega

end Sys2Proof.Machine
end

section
/-! Where commands abort (spec/60_exceptions.md R252, R253): a body passes its checks and reads in order up to the
first that fails, and answers that one's error. -/

namespace Sys2Proof.Machine

variable {s : State} {e : Err}

/-- After a check that passed, the rest runs. -/
theorem bind_of_pass {α : Type} {x : Except Err Unit} {f : Unit → Except Err α} (h : x = .ok ()) :
    (x >>= f) = f () := bind_of_ok h

/-! ### Checks that fail -/

theorem requireSpp_of_eq_zero (h : s.cfg.spp = 0) : requireSpp s = .error s.cfg.sppError := by
  simp [requireSpp, h]

theorem ConfigRegs.sppError_of_fs {r : ConfigRegs} (h : r.fs = 0) : r.sppError = ⟨.config, 0x040, 0⟩ := by
  simp [ConfigRegs.sppError, h]

theorem ConfigRegs.sppError_of_fs_ne {r : ConfigRegs} (h : r.fs ≠ 0) :
    r.sppError = ⟨.config, 0x048, r.pulseUs.toNat⟩ := if_neg h

theorem requireAmp_of_lt (h : 32767 < s.cfg.amp.toNat) :
    requireAmp s = .error ⟨.config, 0x050, s.cfg.amp.toNat⟩ := by
  simp [requireAmp, h]

theorem requireZone_of_eq_zero (h : s.cfg.zone = 0) : requireZone s = .error ⟨.config, 0x058, 0⟩ := by
  simp [requireZone, h]

theorem requireRate_of_ne (h : s.cfg.fs ≠ s.cfg.refRate) :
    requireRate s = .error ⟨.rate, s.cfg.fs.toNat, s.cfg.refRate.toNat⟩ := by
  simp [requireRate, h]

theorem requireWithin_of_lt {v limit : Nat} (h : limit < v) :
    requireWithin v limit = .error ⟨.range, v, limit⟩ := requireWithin_eq_error.mpr ⟨h, rfl⟩

/-! ### The first checks -/

/-- The commands that synthesize pulses (spec/10_state.md R32). -/
def synthesizes (i : Instr) : Prop := i = .mod ∨ i = .embed ∨ ∃ c k b, i = .synth c k b

/-- The commands that cut pulses (spec/10_state.md R31). -/
def cutsPulses (i : Instr) : Prop :=
  synthesizes i ∨ i = .xlanes ∨ i = .decode ∨ i = .demod ∨ (∃ c k, i = .bpf c k) ∨ ∃ c k, i = .decide c k

theorem cutsPulses.ne_clr {i : Instr} (h : cutsPulses i) : i ≠ .clr := by
  rintro rfl
  simp [cutsPulses, synthesizes] at h

/-- A command that cuts pulses checks SPP first. -/
theorem cutsPulses.spp_error {i : Instr} (hi : cutsPulses i) (h : requireSpp s = .error e) :
    bodyOf i s = .error e := by
  obtain (rfl | rfl | ⟨c, k, b, rfl⟩) | rfl | rfl | rfl | ⟨c, k, rfl⟩ | ⟨c, k, rfl⟩ := hi
  case inl.inr.inl => exact bind_of_error (bind_of_error h)
  case inr.inr.inr.inl => exact bind_of_error (bind_of_error h)
  all_goals exact bind_of_error h

/-- A command that synthesizes checks AMP next. -/
theorem synthesizes.amp_error {i : Instr} (hi : synthesizes i) (hspp : s.cfg.spp ≠ 0)
    (h : requireAmp s = .error e) : bodyOf i s = .error e := by
  have spp : requireSpp s = .ok () := requireSpp_eq_ok.mpr hspp
  obtain rfl | rfl | ⟨c, k, b, rfl⟩ := hi
  · exact (bind_of_pass spp).trans (bind_of_error h)
  · exact bind_of_error ((bind_of_pass spp).trans (bind_of_error h))
  · exact (bind_of_pass spp).trans (bind_of_error h)

/-- Settles O33: SPP's check comes first in every such body, and AMP's is the next of those that synthesize. -/
theorem pulseConfigErrors : Obligations.PulseConfigErrors := by
  intro s i he synths cuts
  refine ⟨fun hi hspp hfs => ?_, fun hi hspp hfs => ?_, fun hi hspp hamp => ?_⟩
  · rw [← ConfigRegs.sppError_of_fs hfs]
    exact exec_error (cutsPulses.ne_clr hi) he (cutsPulses.spp_error hi (requireSpp_of_eq_zero hspp))
  · rw [← ConfigRegs.sppError_of_fs_ne hfs]
    exact exec_error (cutsPulses.ne_clr hi) he (cutsPulses.spp_error hi (requireSpp_of_eq_zero hspp))
  · exact exec_error (cutsPulses.ne_clr (.inl hi)) he (synthesizes.amp_error hi hspp (requireAmp_of_lt hamp))

/-! ### Extraction: configuration -/

/-- Settles O39: FS is compared once the checks of the configuration passed. -/
theorem rateErrors : Obligations.RateErrors := by
  intro s c k he hspp hne
  have spp : requireSpp s = .ok () := requireSpp_eq_ok.mpr hspp
  have rate := requireRate_of_ne hne
  refine ⟨fun hk => exec_error nofun he ?_, fun hk => exec_error nofun he ?_,
    fun hz => ⟨exec_error nofun he ?_, exec_error nofun he ?_⟩, fun hk hz => exec_error nofun he ?_⟩
  · exact (bind_of_pass spp).trans <| (bind_of_pass (requireBandPass_eq_ok_iff.mpr hk)).trans (bind_of_error rate)
  · exact (bind_of_pass spp).trans <| (bind_of_pass (requireBandPasses_eq_ok_iff.mpr hk)).trans (bind_of_error rate)
  · exact (bind_of_pass spp).trans <| (bind_of_pass (requireZone_eq_ok.mpr hz)).trans (bind_of_error rate)
  · exact (bind_of_pass spp).trans <| (bind_of_pass (requireZone_eq_ok.mpr hz)).trans (bind_of_error rate)
  · exact bind_of_error <| (bind_of_pass spp).trans <| (bind_of_pass (requireBandPasses_eq_ok_iff.mpr hk)).trans <|
      (bind_of_pass (requireZone_eq_ok.mpr hz)).trans (bind_of_error rate)

/-- Settles O55: ZONE is checked after SPP, in DEMOD after the carriers. -/
theorem zoneConfigErrors : Obligations.ZoneConfigErrors := by
  intro s c k he hspp hz
  have spp : requireSpp s = .ok () := requireSpp_eq_ok.mpr hspp
  have zone := requireZone_of_eq_zero hz
  refine ⟨exec_error nofun he ?_, exec_error nofun he ?_, fun hk => exec_error nofun he ?_⟩
  · exact (bind_of_pass spp).trans (bind_of_error zone)
  · exact (bind_of_pass spp).trans (bind_of_error zone)
  · exact bind_of_error <| (bind_of_pass spp).trans <| (bind_of_pass (requireBandPasses_eq_ok_iff.mpr hk)).trans
      (bind_of_error zone)

end Sys2Proof.Machine
end

section
/-! Where commands abort at an unwritten element (spec/10_state.md R42, spec/60_exceptions.md R253): each scans its
arrays in order, and the first whose run is not written names the error. -/

namespace Sys2Proof.Machine

variable {s : State} {j : Nat}

/-- Settles O43: the length is checked, then channel 0 is read, then channel 1. -/
theorem demuxErrors : Obligations.DemuxErrors := by
  intro s he
  refine ⟨fun hlen => exec_error nofun he (bind_of_error (requireWithin_of_lt hlen)), fun j hlen hu => ?_,
    fun j hlen hw hu => ?_⟩
  · rw [← Nat.zero_add j]
    have read := readAin_of_firstUnwritten (c := 0) hu
    exact exec_error nofun he ((bind_of_pass (requireWithin_eq_ok.mpr hlen)).trans (bind_of_error read))
  · rw [← Nat.zero_add j]
    obtain ⟨v0, h0⟩ := readAin_of_written (c := 0) hw
    have read := readAin_of_firstUnwritten (c := 1) hu
    exact exec_error nofun he
      ((bind_of_pass (requireWithin_eq_ok.mpr hlen)).trans ((bind_of_ok h0).trans (bind_of_error read)))

/-! ### The embedding commands -/

theorem modBody_uninit (hspp : s.cfg.spp ≠ 0) (hamp : s.cfg.amp.toNat ≤ 32767)
    (hb : s.bytesLen.toNat ≤ s.params.maxBytes) (hf : s.bytesLen.toNat * s.cfg.spp ≤ s.params.maxFrames)
    (hu : s.firstUnwritten .bytes 0 0 s.bytesLen.toNat j) : modBody s = .error ⟨.uninit, 0x60, j⟩ := by
  rw [← Nat.zero_add j]
  exact (bind_of_pass (requireSpp_eq_ok.mpr hspp)).trans <| (bind_of_pass (requireAmp_eq_ok.mpr hamp)).trans <|
    (bind_of_pass (requireWithin_eq_ok.mpr hb)).trans <| (bind_of_pass (requireWithin_eq_ok.mpr hf)).trans <|
      bind_of_error (readBytes_of_firstUnwritten hu)

theorem bsfBody_uninit {c : Channel} (hfs : s.cfg.fs ≠ 0) (hstop : s.bandStopOk)
    (hlen : s.chLen.toNat ≤ s.params.maxFrames) (hlong : s.minLen < s.chLen.toNat)
    (hu : s.firstUnwritten .ch c 0 s.chLen.toNat j) : bsfBody c s = .error ⟨.uninit, 0x30 + c.val, j⟩ := by
  rw [← Nat.zero_add j]
  exact (bind_of_pass (require_eq_ok.mpr (decide_eq_true hfs))).trans <|
    (bind_of_pass (requireBandStop_eq_ok_iff.mpr hstop)).trans <|
      (bind_of_pass (requireWithin_eq_ok.mpr hlen)).trans <| (bind_of_pass (requireLong_eq_ok.mpr hlong)).trans <|
        bind_of_error (readCh_of_firstUnwritten hu)

theorem ovlBody_uninit_ch {c : Channel} (hlen : s.chLen.toNat ≤ s.params.maxFrames)
    (hlane : s.laneLen.toNat ≤ s.chLen.toNat) (hu : s.firstUnwritten .ch c 0 s.laneLen.toNat j) :
    ovlBody c s = .error ⟨.uninit, 0x30 + c.val, j⟩ := by
  rw [← Nat.zero_add j]
  exact (bind_of_pass (requireWithin_eq_ok.mpr hlen)).trans <| (bind_of_pass (requireWithin_eq_ok.mpr hlane)).trans <|
    bind_of_error (readCh_of_firstUnwritten hu)

/-- OVL reads its lanes in the order of the carriers, so those before the first unwritten one pass. -/
theorem ovlBody_uninit_tx {c : Channel} {k : Carrier} (hlen : s.chLen.toNat ≤ s.params.maxFrames)
    (hlane : s.laneLen.toNat ≤ s.chLen.toNat) (hch : s.written .ch c 0 s.laneLen.toNat)
    (hw : ∀ k' < k, s.written .tx (laneOf c k') 0 s.laneLen.toNat)
    (hu : s.firstUnwritten .tx (laneOf c k) 0 s.laneLen.toNat j) :
    ovlBody c s = .error ⟨.uninit, 0x40 + (laneOf c k).val, j⟩ := by
  rw [← Nat.zero_add j]
  obtain ⟨x, hx⟩ := readCh_of_written hch
  have hread : ∀ k' < k, ∃ vs, s.readTx (laneOf c k') 0 s.laneLen.toNat = .ok vs :=
    fun k' hk => readTx_of_written (hw k' hk)
  choose! vs hok using hread
  have herr := readTx_of_firstUnwritten hu
  refine (bind_of_pass (requireWithin_eq_ok.mpr hlen)).trans <|
    (bind_of_pass (requireWithin_eq_ok.mpr hlane)).trans <| (bind_of_ok hx).trans ?_
  match k, hok, herr with
  | 0, hok, herr | 1, hok, herr | 2, hok, herr | 3, hok, herr => simp [bind, Except.bind, hok, herr]

/-- Channel 0 is the only one before channel 1. -/
theorem forall_lt_one {p : Channel → Prop} (h : p 0) : ∀ d < (1 : Channel), p d :=
  fun d hd => (Fin.lt_one_iff d).mp hd ▸ h

theorem muxBody_uninit {c : Channel} (hlen : s.chLen.toNat ≤ s.params.maxFrames)
    (hw : ∀ d < c, s.written .ch d 0 s.chLen.toNat) (hu : s.firstUnwritten .ch c 0 s.chLen.toNat j) :
    muxBody s = .error ⟨.uninit, 0x30 + c.val, j⟩ := by
  rw [← Nat.zero_add j]
  refine (bind_of_pass (requireWithin_eq_ok.mpr hlen)).trans ?_
  match c, hw, hu with
  | 0, _, hu => exact bind_of_error (readCh_of_firstUnwritten hu)
  | 1, hw, hu =>
    obtain ⟨v0, h0⟩ := readCh_of_written (hw 0 (by decide))
    exact (bind_of_ok h0).trans (bind_of_error (readCh_of_firstUnwritten hu))

/-- Settles O57: each command's body aborts where it first reads an unwritten element. -/
theorem embeddingUninitErrors : Obligations.EmbeddingUninitErrors := by
  intro s c j he
  refine ⟨fun hspp hamp hb hf hu => exec_error nofun he (modBody_uninit hspp hamp hb hf hu),
    fun hfs hstop hlen hlong hu => exec_error nofun he (bsfBody_uninit hfs hstop hlen hlong hu),
    fun hlen hlane => ⟨fun hu => exec_error nofun he (ovlBody_uninit_ch hlen hlane hu), fun k hch hw hu => ?_⟩,
    fun hlen => ⟨fun hu => exec_error nofun he (muxBody_uninit (c := 0) hlen nofun hu),
      fun hw hu => exec_error nofun he (muxBody_uninit (c := 1) hlen (forall_lt_one hw) hu)⟩⟩
  rw [Nat.add_assoc]
  exact exec_error nofun he (ovlBody_uninit_tx hlen hlane hch hw hu)

/-! ### The extraction commands -/

/-- Both channels of the segment are read in order. -/
theorem readAin_both_error {α : Type} {i n : Nat} {f : List Sample → List Sample → Except Err α} {c : Channel}
    (hw : ∀ d < c, s.written .ain d i n) (hu : s.firstUnwritten .ain c i n j) :
    (do let x0 ← s.readAin 0 i n; let x1 ← s.readAin 1 i n; f x0 x1) = .error ⟨.uninit, 0x10 + c.val, i + j⟩ := by
  match c, hw, hu with
  | 0, _, hu => exact bind_of_error (readAin_of_firstUnwritten hu)
  | 1, hw, hu =>
    obtain ⟨v0, h0⟩ := readAin_of_written (hw 0 (by decide))
    exact (bind_of_ok h0).trans (bind_of_error (readAin_of_firstUnwritten hu))

theorem readRxLanes_error {n : Nat} {l : Lane} (hw : ∀ l' < l, s.written .rx l' 0 n)
    (hu : s.firstUnwritten .rx l 0 n j) : readRxLanes s n = .error ⟨.uninit, 0x50 + l.val, j⟩ := by
  rw [← Nat.zero_add j]
  have hread : ∀ l' < l, ∃ vs, s.readRx l' 0 n = .ok vs := fun l' hl => readRx_of_written (hw l' hl)
  choose! vs hok using hread
  have herr := readRx_of_firstUnwritten hu
  match l, hok, herr with
  | 0, hok, herr | 1, hok, herr | 2, hok, herr | 3, hok, herr | 4, hok, herr | 5, hok, herr | 6, hok, herr
  | 7, hok, herr => simp [readRxLanes, bind, Except.bind, hok, herr]

theorem State.segmentOk.requireSegment (h : s.segmentOk) : requireSegment s = .ok () :=
  requireSegment_eq_ok.mpr ⟨h.1, h.2.1⟩

theorem State.segmentOk.requireLong (h : s.segmentOk) : requireLong s s.segLen = .ok () :=
  requireLong_eq_ok.mpr h.2.2

section
variable (hspp : s.cfg.spp ≠ 0) (hrate : s.cfg.fs = s.cfg.refRate)
include hspp hrate

theorem bpfBody_uninit {c : Channel} {k : Carrier} (hk : s.bandPassOk k) (hseg : s.segmentOk)
    (hu : s.firstUnwritten .ain c s.segFrom s.segLen j) :
    bpfBody c k s = .error ⟨.uninit, 0x10 + c.val, s.segFrom + j⟩ :=
  (bind_of_pass (requireSpp_eq_ok.mpr hspp)).trans <| (bind_of_pass (requireBandPass_eq_ok_iff.mpr hk)).trans <|
    (bind_of_pass (requireRate_eq_ok.mpr hrate)).trans <|
      (bind_of_pass hseg.requireSegment).trans <|
        (bind_of_pass hseg.requireLong).trans <| bind_of_error (readAin_of_firstUnwritten hu)

theorem xlanesBody_uninit {c : Channel} (hk : ∀ k, s.bandPassOk k) (hseg : s.segmentOk)
    (hw : ∀ d < c, s.written .ain d s.segFrom s.segLen) (hu : s.firstUnwritten .ain c s.segFrom s.segLen j) :
    xlanesBody s = .error ⟨.uninit, 0x10 + c.val, s.segFrom + j⟩ :=
  (bind_of_pass (requireSpp_eq_ok.mpr hspp)).trans <| (bind_of_pass (requireBandPasses_eq_ok_iff.mpr hk)).trans <|
    (bind_of_pass (requireRate_eq_ok.mpr hrate)).trans <|
      (bind_of_pass hseg.requireSegment).trans <|
        (bind_of_pass hseg.requireLong).trans <| readAin_both_error hw hu

theorem demodBody_uninit {c : Channel} (hk : ∀ k, s.bandPassOk k) (hseg : s.segmentOk) (hz : s.cfg.zone ≠ 0)
    (hsyms : s.segSyms.toNat ≤ s.params.maxBytes) (hw : ∀ d < c, s.written .ain d s.segFrom s.segLen)
    (hu : s.firstUnwritten .ain c s.segFrom s.segLen j) :
    demodBody s = .error ⟨.uninit, 0x10 + c.val, s.segFrom + j⟩ :=
  bind_of_error <| (bind_of_pass (requireSpp_eq_ok.mpr hspp)).trans <|
    (bind_of_pass (requireBandPasses_eq_ok_iff.mpr hk)).trans <| (bind_of_pass (requireZone_eq_ok.mpr hz)).trans <|
      (bind_of_pass (requireRate_eq_ok.mpr hrate)).trans <|
        (bind_of_pass hseg.requireSegment).trans <|
          (bind_of_pass (requireWithin_eq_ok.mpr hsyms)).trans <|
            (bind_of_pass hseg.requireLong).trans <| readAin_both_error hw hu

theorem decideBody_uninit {c : Channel} {k : Carrier} (hz : s.cfg.zone ≠ 0)
    (hlen : s.rxLen.toNat ≤ s.params.maxFrames) (hslot : (s.symIdx.toNat + 1) * s.cfg.spp ≤ s.rxLen.toNat)
    (hu : s.firstUnwritten .rx (laneOf c k) (s.symIdx.toNat * s.cfg.spp) s.cfg.spp j) :
    decideBody c k s = .error ⟨.uninit, 0x50 + (laneOf c k).val, s.symIdx.toNat * s.cfg.spp + j⟩ :=
  (bind_of_pass (requireSpp_eq_ok.mpr hspp)).trans <| (bind_of_pass (requireZone_eq_ok.mpr hz)).trans <|
    (bind_of_pass (requireRate_eq_ok.mpr hrate)).trans <| (bind_of_pass (requireWithin_eq_ok.mpr hlen)).trans <|
      (bind_of_pass (requireWithin_eq_ok.mpr hslot)).trans <| bind_of_error (readRx_of_firstUnwritten hu)

theorem decodeBody_uninit {l : Lane} (hz : s.cfg.zone ≠ 0) (hlen : s.rxLen.toNat ≤ s.params.maxFrames)
    (hcount : s.rxLen.toNat / s.cfg.spp ≤ s.params.maxBytes)
    (hw : ∀ l' < l, s.written .rx l' 0 (s.rxLen.toNat / s.cfg.spp * s.cfg.spp))
    (hu : s.firstUnwritten .rx l 0 (s.rxLen.toNat / s.cfg.spp * s.cfg.spp) j) :
    decodeBody s = .error ⟨.uninit, 0x50 + l.val, j⟩ :=
  (bind_of_pass (requireSpp_eq_ok.mpr hspp)).trans <| (bind_of_pass (requireZone_eq_ok.mpr hz)).trans <|
    (bind_of_pass (requireRate_eq_ok.mpr hrate)).trans <| (bind_of_pass (requireWithin_eq_ok.mpr hlen)).trans <|
      (bind_of_pass (requireWithin_eq_ok.mpr hcount)).trans <| bind_of_error (readRxLanes_error hw hu)

end

/-- Settles O58: each command's body aborts where it first reads an unwritten element. -/
theorem extractionUninitErrors : Obligations.ExtractionUninitErrors := by
  intro s c k j he hspp hrate
  refine ⟨fun hk hseg hu => exec_error nofun he (bpfBody_uninit hspp hrate hk hseg hu),
    fun hk hseg => ⟨fun hu => ⟨?_, fun ⟨hz, hsyms⟩ => ?_⟩, fun hw hu => ⟨?_, fun ⟨hz, hsyms⟩ => ?_⟩⟩,
    fun hz hlen hslot hu => ?_,
    fun hz hlen hcount l hw hu => exec_error nofun he (decodeBody_uninit hspp hrate hz hlen hcount hw hu)⟩
  · exact exec_error nofun he (xlanesBody_uninit (c := 0) hspp hrate hk hseg nofun hu)
  · exact exec_error nofun he (demodBody_uninit (c := 0) hspp hrate hk hseg hz hsyms nofun hu)
  · exact exec_error nofun he (xlanesBody_uninit (c := 1) hspp hrate hk hseg (forall_lt_one hw) hu)
  · exact exec_error nofun he (demodBody_uninit (c := 1) hspp hrate hk hseg hz hsyms (forall_lt_one hw) hu)
  · rw [Nat.add_assoc]
    exact exec_error nofun he (decideBody_uninit hspp hrate hz hlen hslot hu)

end Sys2Proof.Machine
end

section
/-! Register accesses (spec/20_memory.md R66): one equation per kind of access, and a refusal for the rest. -/

namespace Sys2Proof.Machine

variable {s : State} {rest : List HostAction} {width off : Nat} {v : Word} {r : Reg}

theorem Reg.offset_mod_four (r : Reg) : r.offset % 4 = 0 := by
  cases r <;> rfl

/-- An access that does not meet a register at its offset with four bytes names no register. -/
theorem registerAt_refuses (h : width ≠ 4 ∨ off % 4 ≠ 0 ∨ ∀ r : Reg, off ≠ r.offset) :
    ∃ e, registerAt width off = .error e := by
  cases hr : registerAt width off with
  | error e => exact ⟨e, rfl⟩
  | ok r =>
    obtain ⟨rfl, rfl⟩ := registerAt_eq_ok hr
    obtain hw | ho | hn := h
    · exact absurd rfl hw
    · exact absurd r.offset_mod_four ho
    · exact absurd rfl (hn r)

theorem step_regRead (hp : s.pending = .regRead 4 r.offset :: rest) :
    step s = .next { s with pending := rest, replies := .reg r (s.readReg r) :: s.replies } := by
  simp only [step, State.fetch, hp, State.hostRegRead, registerAt_offset]
  rfl

theorem step_regRead_refused {e : Refusal} (hp : s.pending = .regRead width off :: rest)
    (h : registerAt width off = .error e) : step s = .refused e := by
  simp only [step, State.fetch, hp, State.hostRegRead, h]

theorem step_regWrite_refused {e : Refusal} (hp : s.pending = .regWrite width off v :: rest)
    (h : registerAt width off = .error e) : step s = .refused e := by
  simp only [step, State.fetch, hp, State.hostRegWrite, h]

theorem step_regWrite {t : State} (hp : s.pending = .regWrite 4 r.offset v :: rest)
    (h : State.writeReg { s with pending := rest } r v = some t) : step s = .next t := by
  simp only [step, State.fetch, hp, State.hostRegWrite, registerAt_offset]
  cases r <;> cases h <;> rfl

theorem step_regWrite_readOnly (hp : s.pending = .regWrite 4 r.offset v :: rest) (hc : r ≠ .cmd)
    (h : State.writeReg { s with pending := rest } r v = none) : step s = .refused .registerReadOnly := by
  simp only [step, State.fetch, hp, State.hostRegWrite, registerAt_offset]
  cases r <;> cases h
  case cmd => exact absurd rfl hc
  all_goals rfl

/-- A write to CMD always answers: the word is stored, and no command and no illegal word changes it. -/
theorem step_writeCmd (hp : s.pending = .regWrite 4 0 v :: rest) :
    ∃ t, step s = .next t ∧ t.cmd = v ∧
      ∀ i, decode v = .ok i → step s = exec i { s with pending := rest, cmd := v } := by
  cases hd : decode v with
  | ok i =>
    have hstep := stepRunsDecodedCommand s v rest i hp hd
    obtain ⟨t, ht⟩ := exec_answers i { s with cmd := v, pending := rest }
    obtain ⟨hcmd, -⟩ := commandsKeepInputsAndConfiguration i _ t ht
    refine ⟨t, hstep.trans ht, hcmd, ?_⟩
    rintro _ ⟨⟩
    exact hstep
  | error e =>
    have hstep : step s = command { s with pending := rest, cmd := v }
        (fun _ => .error ⟨.illegal, v.toNat, 0⟩) := by
      simp only [step, fetch_command hp, State.issue, hd]
    obtain ⟨t, ht⟩ := command_answers { s with pending := rest, cmd := v }
      (fun _ => .error ⟨.illegal, v.toNat, 0⟩)
    refine ⟨t, hstep.trans ht, ?_, nofun⟩
    obtain ⟨-, rfl⟩ | ⟨-, rfl⟩ := illegal_cases ht <;> rfl

/-- Settles O7: a mapped access is a read, a write of an RW register, a write to CMD or one of a read-only
register; any other access names no register. -/
theorem hostRegisterAccess : Obligations.HostRegisterAccess := by
  intro s rest width off v
  refine ⟨fun hp => ⟨?_, fun h => ?_⟩, fun hp => ⟨?_, fun h => ?_⟩⟩
  · rintro r rfl rfl
    exact step_regRead hp
  · obtain ⟨e, he⟩ := registerAt_refuses h
    exact ⟨e, step_regRead_refused hp he⟩
  · rintro r rfl rfl
    refine ⟨fun hrw => ?_, fun hcmd => ?_, fun hro => ?_⟩
    · obtain ⟨t, ht⟩ : ∃ t, State.writeReg { s with pending := rest } r v = some t := by
        fin_cases hrw <;> exact ⟨_, rfl⟩
      exact ⟨t, ht, step_regWrite hp ht, readReg_writeReg_self ht⟩
    · subst hcmd
      exact step_writeCmd hp
    · obtain ⟨hne, hnone⟩ : r ≠ .cmd ∧ State.writeReg { s with pending := rest } r v = none := by
        fin_cases hro <;> exact ⟨nofun, rfl⟩
      exact ⟨_, step_regWrite_readOnly hp hne hnone⟩
  · obtain ⟨e, he⟩ := registerAt_refuses h
    exact ⟨e, step_regWrite_refused hp he⟩

end Sys2Proof.Machine
end

section
/-! Buffer accesses (spec/20_memory.md R60, R67): the checks as propositions, and the step of each access. -/

namespace Sys2Proof.Machine

variable {s : State} {rest : List HostAction} {space : Space} {a i : Nat} {v : Int}

theorem Space.hostWritable_iff : space.hostWritable = true ↔ space ∈ [Space.ain, .rx, .bytes] := by
  cases space <;> decide

theorem Space.contains_iff {p : Params} :
    space.contains p a i = true ↔ a < space.arrays ∧ i < space.capacity p := by
  simp only [Space.contains, Bool.and_eq_true, decide_eq_true_eq]

theorem Space.holds_iff :
    space.holds v = true ↔ if space = .bytes then 0 ≤ v ∧ v ≤ 255 else -32768 ≤ v ∧ v ≤ 32767 := by
  cases space <;> simp [Space.holds]

theorem step_bufWrite (hp : s.pending = .bufWrite space a i v :: rest) (hw : space.hostWritable = true)
    (hc : space.contains s.params a i = true) (hv : space.holds v = true) :
    step s = .next { s with pending := rest, mem := s.mem.hostWrite space a i v } := by
  simp [step, State.fetch, hp, State.hostBufWrite, hw, hc, hv]

/-- The three checks of a buffer write are made in this order. -/
theorem step_bufWrite_refused (hp : s.pending = .bufWrite space a i v :: rest)
    (h : ¬ (space.hostWritable = true ∧ space.contains s.params a i = true ∧ space.holds v = true)) :
    ∃ e, step s = .refused e := by
  simp only [step, State.fetch, hp, State.hostBufWrite]
  by_cases hw : space.hostWritable = true
  · by_cases hc : space.contains s.params a i = true
    · have hv : ¬ space.holds v = true := fun hv => h ⟨hw, hc, hv⟩
      exact ⟨.valueOutOfRange, by simp [hw, hc, hv]⟩
    · exact ⟨.elementOutOfRange, by simp [hw, hc]⟩
  · exact ⟨.spaceReadOnly, by simp [hw]⟩

theorem step_bufRead {x : Elem} (hp : s.pending = .bufRead space a i :: rest)
    (hc : space.contains s.params a i = true) (hx : s.mem.element space a i = some x) :
    step s = .next { s with pending := rest, replies := .elem space a i x :: s.replies } := by
  simp [step, State.fetch, hp, State.hostBufRead, hc, hx]

theorem step_bufRead_outOfRange (hp : s.pending = .bufRead space a i :: rest)
    (hc : ¬ space.contains s.params a i = true) : step s = .refused .elementOutOfRange := by
  simp [step, State.fetch, hp, State.hostBufRead, hc]

theorem step_bufRead_unwritten (hp : s.pending = .bufRead space a i :: rest)
    (hc : space.contains s.params a i = true) (hx : s.mem.element space a i = none) :
    step s = .refused .elementUnwritten := by
  simp [step, State.fetch, hp, State.hostBufRead, hc, hx]

/-- Settles O9: the model's checks are those of the statement, and `Memory.element_hostWrite` gives every element
after a write. -/
theorem hostBufferAccess : Obligations.HostBufferAccess := by
  intro s rest space a i v
  refine ⟨fun hp => ?_, fun hp => ⟨fun x ha hi hx => ?_, fun h => ?_⟩⟩
  · rw [← Space.hostWritable_iff, ← Space.holds_iff]
    refine ⟨fun ⟨hw, ha, hi, hv⟩ => ?_, fun h => step_bufWrite_refused hp fun ⟨hw, hc, hv⟩ => ?_⟩
    · exact ⟨_, step_bufWrite hp hw (Space.contains_iff.mpr ⟨ha, hi⟩) hv, Memory.element_hostWrite hw ha⟩
    · obtain ⟨ha, hi⟩ := Space.contains_iff.mp hc
      exact h ⟨hw, ha, hi, hv⟩
  · exact step_bufRead hp (Space.contains_iff.mpr ⟨ha, hi⟩) hx
  · by_cases hc : space.contains s.params a i = true
    · obtain ⟨ha, hi⟩ := Space.contains_iff.mp hc
      have hx : s.mem.element space a i = none := (h.resolve_left (absurd ha)).resolve_left (absurd hi)
      exact ⟨_, step_bufRead_unwritten hp hc hx⟩
    · exact ⟨_, step_bufRead_outOfRange hp hc⟩

end Sys2Proof.Machine
end

section
/-! Decoding and encoding (spec/30_encoding.md R90, R91, R94, R100): the bits a row's mask leaves free are its
command's operand fields, so a word and its command determine each other. -/

namespace Sys2Proof

/-- The five fields hold every bit of the word (R90). -/
theorem Fields.ofWord_injective : Function.Injective Fields.ofWord := by
  intro v w h
  simp only [Fields.ofWord, Fields.mk.injEq, ← BitVec.toNat_inj, BitVec.extractLsb'_toNat,
    Nat.shiftRight_eq_div_pow] at h
  bv_omega

/-- The fields CH, K and BIT are the operands of R91. -/
theorem Fields.ofWord_eq_operands (w : Word) : Fields.ofWord w =
    ⟨w.extractLsb' 0 8, .ofNat 1 (operandC w), .ofNat 2 (operandK w), .ofBool (operandB w),
      w.extractLsb' 12 20⟩ := by
  have hc : .ofNat 1 (operandC w) = w.extractLsb' 8 1 := (BitVec.ofNat_toNat 1 _).trans (BitVec.setWidth_eq _)
  have hk : .ofNat 2 (operandK w) = w.extractLsb' 9 2 := (BitVec.ofNat_toNat 2 _).trans (BitVec.setWidth_eq _)
  have hb : .ofBool (operandB w) = w.extractLsb' 11 1 := by
    ext j hj
    simp [operandB, show j = 0 by omega]
  rw [hc, hk, hb, Fields.ofWord]

theorem Fields.ofWord_encodeFields (c : Channel) (k : Carrier) (b : Bool) :
    Fields.ofWord (encodeFields 0 c k b) = ⟨0, .ofNat 1 c, .ofNat 2 k, .ofBool b, 0⟩ := by
  revert c k b
  decide

/-- Bits 11:8 of a word are its operands at their places. -/
theorem and_operandBits (w : Word) : w &&& 0xF00 = encodeFields 0 (operandC w) (operandK w) (operandB w) := by
  apply Fields.ofWord_injective
  obtain ⟨-, hc, hk, hb, -⟩ := Fields.mk.inj (Fields.ofWord_eq_operands w)
  rw [Fields.ofWord_encodeFields, ← hc, ← hk, ← hb]
  simp only [Fields.ofWord, BitVec.extractLsb'_and, Fields.mk.injEq]
  exact ⟨BitVec.and_zero, BitVec.and_allOnes, BitVec.and_allOnes, BitVec.and_allOnes, BitVec.and_zero⟩

/-- What a row's mask leaves free lies in bits 11:8. -/
theorem operandBits_and_free {r : OpcodeRow} (hr : r ∈ opcodeTable) : 0xF00 &&& ~~~r.mask = ~~~r.mask := by
  revert r
  decide

/-- The word of a row's command: the row's pattern, and the operands where the mask leaves bits free. -/
theorem encode_build {r : OpcodeRow} (hr : r ∈ opcodeTable) (c : Channel) (k : Carrier) (b : Bool) :
    encode (r.build c k b) = r.pattern ||| (encodeFields 0 c k b &&& ~~~r.mask) := by
  revert c k b
  fin_cases hr <;> decide

theorem eq_encode_of_decode {w : Word} {i : Instr} (h : decode w = .ok i) : w = encode i := by
  obtain ⟨r, hr, hw, rfl⟩ := Machine.exists_row_of_decode h
  calc w = (w &&& r.mask) ||| (w &&& ~~~r.mask) := by
        rw [← BitVec.and_or_distrib_left, BitVec.or_not_self, BitVec.and_allOnes]
    _ = r.pattern ||| ((w &&& 0xF00) &&& ~~~r.mask) := by
        rw [hw, BitVec.and_assoc, operandBits_and_free hr]
    _ = encode (r.build (operandC w) (operandK w) (operandB w)) := by
        rw [encode_build hr, and_operandBits]

theorem decode_encode (i : Instr) : decode (encode i) = .ok i := by
  cases i with
  | synth c k b =>
    revert c k b
    decide
  | bpf c k | decide c k =>
    revert c k
    decide
  | bsf c | ovl c =>
    revert c
    decide
  | nop | clr | mod | xlanes | demux | mux | embed | decode | demod => rfl

/-- Settles O1: `eq_encode_of_decode` one way and `decode_encode` the other. -/
theorem decodeAndEncodeAgree : Obligations.DecodeAndEncodeAgree :=
  fun _ i => ⟨eq_encode_of_decode, fun h => h ▸ decode_encode i⟩

/-- Settles O2: the legal words encode as given and so decode by O1; the last two set a field BSF does not use
and a bit of RSV. -/
theorem workedEncodings : Obligations.WorkedEncodings := by
  have worked {w : Word} {i : Instr} (h : encode i = w) : encode i = w ∧ decode w = .ok i :=
    ⟨h, (decodeAndEncodeAgree w i).mpr h.symm⟩
  have unused : decode 0x00000321 = .error .unusedFieldSet := rfl
  have reserved : decode 0x00001021 = .error .reservedBitSet := rfl
  refine ⟨worked rfl, worked rfl, worked rfl, worked rfl, worked rfl, worked rfl, fun i => ?_, fun i => ?_⟩
  · rw [unused]
    exact nofun
  · rw [reserved]
    exact nofun

end Sys2Proof
end

section
/-! Illegal words (spec/30_encoding.md R92, R95, R96): a word is a command's exactly when its fields are well
formed, and one that is none raises `Illegal`. -/

namespace Sys2Proof

/-- The opcodes of each set of used fields (R94). -/
theorem Uses.ofOpcode_cases {opc : BitVec 8} {u : Uses} (h : ofOpcode opc = some u) :
    (opc = 0x10 ∧ u = ⟨true, true, true⟩) ∨
      ((opc = 0x20 ∨ opc = 0x40) ∧ u = ⟨true, true, false⟩) ∨
      ((opc = 0x21 ∨ opc = 0x31) ∧ u = ⟨true, false, false⟩) ∨
      (opc ∈ [0x01, 0x02, 0x11, 0x22, 0x30, 0x32, 0x33, 0x41, 0x42] ∧ u = ⟨false, false, false⟩) := by
  unfold ofOpcode at h
  split_ifs at h with hsynth hlane hchannel hbare <;> cases h
  · exact .inl ⟨hsynth, rfl⟩
  · exact .inr (.inl ⟨hlane, rfl⟩)
  · exact .inr (.inr (.inl ⟨hchannel, rfl⟩))
  · exact .inr (.inr (.inr ⟨hbare, rfl⟩))

/-- The opcodes that use each field (R94). -/
theorem Uses.ofOpcode_fields {opc : BitVec 8} {u : Uses} (h : ofOpcode opc = some u) :
    (u.ch = true ↔ opc.toNat ∈ [0x10, 0x20, 0x21, 0x31, 0x40]) ∧
      (u.k = true ↔ opc.toNat ∈ [0x10, 0x20, 0x40]) ∧ (u.bit = true ↔ opc.toNat ∈ [0x10]) := by
  obtain ⟨rfl, rfl⟩ | ⟨rfl | rfl, rfl⟩ | ⟨rfl | rfl, rfl⟩ | ⟨hbare, rfl⟩ := ofOpcode_cases h
  case inr.inr.inr => fin_cases hbare <;> decide
  all_goals decide

/-- The unassigned opcodes: 0 and the gaps of R96. -/
theorem Uses.ofOpcode_eq_none_iff {opc : BitVec 8} : ofOpcode opc = none ↔
    opc.toNat = 0 ∨ (0x03 ≤ opc.toNat ∧ opc.toNat ≤ 0x0F) ∨ (0x12 ≤ opc.toNat ∧ opc.toNat ≤ 0x1F) ∨
      (0x23 ≤ opc.toNat ∧ opc.toNat ≤ 0x2F) ∨ (0x34 ≤ opc.toNat ∧ opc.toNat ≤ 0x3F) ∨ 0x43 ≤ opc.toNat := by
  simp only [ofOpcode, ite_eq_iff, List.mem_cons, List.not_mem_nil, reduceCtorEq, and_false, false_or, and_true,
    or_false]
  bv_omega

theorem Fields.wellFormed_iff {f : Fields} : f.wellFormed = true ↔
    ∃ u, Uses.ofOpcode f.opc = some u ∧ f.rsv = 0 ∧ (u.ch = true ∨ f.ch = 0) ∧ (u.k = true ∨ f.k = 0) ∧
      (u.bit = true ∨ f.bit = 0) := by
  unfold Fields.wellFormed
  cases Uses.ofOpcode f.opc <;> simp [and_assoc]

theorem Fields.not_wellFormed_iff {f : Fields} : ¬ f.wellFormed = true ↔
    Uses.ofOpcode f.opc = none ∨ f.rsv ≠ 0 ∨
      (f.ch ≠ 0 ∧ f.opc.toNat ∉ [0x10, 0x20, 0x21, 0x31, 0x40]) ∨
      (f.k ≠ 0 ∧ f.opc.toNat ∉ [0x10, 0x20, 0x40]) ∨ (f.bit ≠ 0 ∧ f.opc.toNat ∉ [0x10]) := by
  rw [wellFormed_iff]
  cases hu : Uses.ofOpcode f.opc with
  | none => simp
  | some u =>
    obtain ⟨hch, hk, hbit⟩ := Uses.ofOpcode_fields hu
    simp only [← hch, ← hk, ← hbit, Option.some.injEq, exists_eq_left', reduceCtorEq, false_or]
    tauto

/-- Well-formed fields are those of a command: its opcode fixes the constructor, and the fields it uses are the
word's operands. -/
theorem Fields.exists_instr {w : Word} (h : (Fields.ofWord w).wellFormed = true) :
    ∃ i : Instr, Fields.ofWord w = i.fields := by
  obtain ⟨u, hu, hrsv, hch, hk, hbit⟩ := wellFormed_iff.mp h
  rw [ofWord_eq_operands] at *
  generalize operandC w = c, operandK w = k, operandB w = b, w.extractLsb' 0 8 = opc,
    w.extractLsb' 12 20 = rsv at *
  cases hrsv
  obtain ⟨rfl, rfl⟩ | ⟨rfl | rfl, rfl⟩ | ⟨rfl | rfl, rfl⟩ | ⟨hbare, rfl⟩ := Uses.ofOpcode_cases hu <;>
    simp only [Bool.false_eq_true, false_or] at hch hk hbit
  · exact ⟨.synth c k b, rfl⟩
  · exact ⟨.bpf c k, by rw [hbit]; rfl⟩
  · exact ⟨.decide c k, by rw [hbit]; rfl⟩
  · exact ⟨.bsf c, by rw [hk, hbit]; rfl⟩
  · exact ⟨.ovl c, by rw [hk, hbit]; rfl⟩
  · rw [hch, hk, hbit]
    fin_cases hbare
    exacts [⟨.nop, rfl⟩, ⟨.clr, rfl⟩, ⟨.mod, rfl⟩, ⟨.xlanes, rfl⟩, ⟨.demux, rfl⟩, ⟨.mux, rfl⟩, ⟨.embed, rfl⟩,
      ⟨.decode, rfl⟩, ⟨.demod, rfl⟩]

/-- Every command's word has the command's fields, and they are well formed. -/
theorem Instr.encodes (i : Instr) : Laws.Encodes.Statement i := by
  cases i
  exacts [Laws.Encodes.nop, Laws.Encodes.clr, Laws.Encodes.synth _ _ _, Laws.Encodes.mod, Laws.Encodes.bpf _ _,
    Laws.Encodes.bsf _, Laws.Encodes.xlanes, Laws.Encodes.demux, Laws.Encodes.ovl _, Laws.Encodes.mux,
    Laws.Encodes.embed, Laws.Encodes.decide _ _, Laws.Encodes.decode, Laws.Encodes.demod]

theorem exists_decode_iff_wellFormed {w : Word} :
    (∃ i, decode w = .ok i) ↔ (Fields.ofWord w).wellFormed = true := by
  constructor
  · rintro ⟨i, hd⟩
    obtain ⟨hwf, hfields⟩ := i.encodes
    rwa [eq_encode_of_decode hd, hfields]
  · intro h
    obtain ⟨i, hi⟩ := Fields.exists_instr h
    obtain ⟨-, hfields⟩ := i.encodes
    have hw : w = encode i := Fields.ofWord_injective (hi.trans hfields.symm)
    exact ⟨i, hw ▸ decode_encode i⟩

end Sys2Proof

namespace Sys2Proof.Machine

/-- A write to CMD of a word that is no command is a command whose one check fails. -/
theorem step_illegal {s : State} {w : Word} {rest : List HostAction} (hp : s.pending = .regWrite 4 0 w :: rest)
    (he : s.status.err = false) (hd : ∀ i, decode w ≠ .ok i) :
    step s = .next (State.raise { s with pending := rest, cmd := w } ⟨.illegal, w.toNat, 0⟩) := by
  cases h : decode w with
  | ok i => exact absurd h (hd i)
  | error e =>
    simp only [step, fetch_command hp, State.issue, h]
    exact command_error he rfl

/-- Settles O3: a word is illegal when its fields are not well formed, and then `step_illegal` gives the step. -/
theorem illegalWords : Obligations.IllegalWords := by
  intro s w rest hp he opc unassigned unusedCh unusedK unusedBit illegal
  have hillegal : illegal ↔ ∀ i, decode w ≠ .ok i := by
    rw [← not_exists, exists_decode_iff_wellFormed, Fields.not_wellFormed_iff, Uses.ofOpcode_eq_none_iff]
  refine ⟨hillegal, fun h => ?_⟩
  rw [step_illegal hp he (hillegal.mp h), State.raise, sat32_toNat_self]
  rfl

end Sys2Proof.Machine
end

section
/-! The bit codec (spec/41_lane_modulator.md R120 to R122). Folding the bits of a byte is a number in binary, most
significant bit first, so each of its binary digits is an element of the list, counted from its end. -/

namespace Sys2Proof.Machine

theorem testBit_foldl_bits (x : List Bool) (i : Nat) :
    Nat.testBit (x.foldl (fun v (b : Bool) => 2 * v + b.toNat) 0) i = x.reverse[i]?.getD false := by
  induction x using List.reverseRecOn generalizing i with
  | nil => simp
  | append_singleton x b ih =>
    rw [List.foldl_append, List.foldl_cons, List.foldl_nil, ← Nat.bit_val, List.reverse_concat']
    cases i with
    | zero => simp
    | succ i => rw [Nat.testBit_bit_succ, ih, List.getElem?_cons_succ]

/-- Lane l of a fold is bit l of the list. -/
theorem laneBit_bitsToByte {x : List Bool} (hx : x.length = 8) (l : Lane) :
    laneBit (bitsToByte x) l = x[l.val]'(by omega) := by
  have hrev : 7 - l.val < x.reverse.length := by rw [List.length_reverse]; omega
  rw [laneBit, bitsToByte, BitVec.getLsbD_ofNat, testBit_foldl_bits, List.getElem?_eq_getElem hrev,
    Option.getD_some, List.getElem_reverse, decide_eq_true (by omega), Bool.true_and]
  congr 1
  omega

@[simp] theorem bitsOf_length (b : Byte) : (bitsOf b).length = 8 := by
  simp [bitsOf]

theorem bitsOf_getElem {b : Byte} {l : Lane} {h : l.val < (bitsOf b).length} : (bitsOf b)[l.val] = laneBit b l := by
  simp [bitsOf]

/-- A byte is its eight lanes' bits. -/
theorem eq_of_laneBit_eq {b b' : Byte} (h : ∀ l, laneBit b l = laneBit b' l) : b = b' := by
  refine BitVec.eq_of_getLsbD_eq (fun i hi => ?_)
  have hl := h ⟨7 - i, by omega⟩
  rwa [laneBit, laneBit, Nat.sub_sub_self (by omega)] at hl

/-- Settles O24: a fold and a byte have the same bits, lane by lane. -/
theorem bitCodecRoundTrip : Obligations.BitCodecRoundTrip := by
  refine ⟨fun b => eq_of_laneBit_eq fun l => ?_, fun x hx => List.ext_getElem ?_ fun l hl _ => ?_⟩
  · rw [laneBit_bitsToByte (bitsOf_length b), bitsOf_getElem]
  · rw [bitsOf_length, hx]
  · rw [bitsOf_length] at hl
    exact (bitsOf_getElem (l := ⟨l, hl⟩)).trans (laneBit_bitsToByte hx ⟨l, hl⟩)

end Sys2Proof.Machine
end

section
/-! The sine samples (spec/41_lane_modulator.md R124, R125). The model folds a phase into the first quarter turn;
each fold keeps the value, by the sine's symmetries: sin (π − θ) = sin θ past a quarter turn, sin (θ − π) = −sin θ
past half a turn, and the period 2π beyond a whole one. -/

namespace Sys2Proof.Machine

open Real

/-! ### The first quarter turn in lowest terms -/

/-- A positive part of a turn y / m in lowest terms, at most a quarter of it, is 1 / m where m is 4 or 12. -/
theorem eq_one_of_coprime_quarter {y m : Nat} (hc : Nat.Coprime y m) (hy : y ≠ 0) (hle : 4 * y ≤ m)
    (hm : m = 4 ∨ m = 12) : y = 1 := by
  obtain rfl | rfl := hm
  · omega
  · have : y ≤ 3 := by omega
    interval_cases y <;> revert hc <;> decide

theorem sin_quarter_turn : sin (2 * π * ((1 : Nat) / (4 : Nat))) = 1 := by
  rw [← sin_pi_div_two]
  congr 1
  push_cast
  ring

theorem sin_twelfth_turn : sin (2 * π * ((1 : Nat) / (12 : Nat))) = 1 / 2 := by
  rw [← sin_pi_div_six]
  congr 1
  push_cast
  ring

/-! ### The folds -/

theorem firstQuarterTone_value (a : Int) {x n : Nat} (hn : 0 < n) (hx : 4 * x ≤ n) :
    (firstQuarterTone a x n).value = a * sin (2 * π * (x / n)) := by
  have hg : 0 < Nat.gcd x n := Nat.gcd_pos_of_pos_right x hn
  have hc : Nat.Coprime (x / Nat.gcd x n) (n / Nat.gcd x n) := Nat.coprime_div_gcd_div_gcd hg
  have hle : 4 * (x / Nat.gcd x n) ≤ n / Nat.gcd x n := by
    rw [← Nat.mul_div_assoc 4 (Nat.gcd_dvd_left x n)]
    exact Nat.div_le_div_right hx
  have hfrac : ((x / Nat.gcd x n : Nat) : ℝ) / (n / Nat.gcd x n : Nat) = x / n := by
    rw [Nat.cast_div_div_div_cancel_right (Nat.gcd_dvd_right x n) (Nat.gcd_dvd_left x n)]
  rw [← hfrac]
  unfold firstQuarterTone
  simp only
  split
  · next h0 => obtain rfl | rfl := h0 <;> simp [Tone.value]
  · next h0 =>
    obtain ⟨-, hx0⟩ := not_or.mp h0
    have hy : x / Nat.gcd x n ≠ 0 := (Nat.div_gcd_pos_of_pos_left n (Nat.pos_of_ne_zero hx0)).ne'
    split
    · next h4 =>
      rw [h4, eq_one_of_coprime_quarter hc hy hle (.inl h4), sin_quarter_turn, Tone.value]
      push_cast
      ring
    · split
      · next h12 =>
        rw [h12, eq_one_of_coprime_quarter hc hy hle (.inr h12), sin_twelfth_turn, Tone.value, mul_one_div]
      · rw [Tone.value, mul_div_assoc]

theorem firstHalfTone_value (a : Int) {x fs : Nat} (hfs : 0 < fs) (hx : x ≤ fs) :
    (firstHalfTone a x fs).value = a * sin (π * (x / fs)) := by
  have hne : (fs : ℝ) ≠ 0 := by positivity
  unfold firstHalfTone
  split
  · rw [firstQuarterTone_value a (by omega) (by omega)]
    congr 2
    push_cast
    field_simp
  · rw [firstQuarterTone_value a (by omega) (by omega), ← sin_pi_sub]
    congr 2
    push_cast [Nat.cast_sub hx]
    field_simp
    ring

/-- Whole turns of the phase leave the sine. -/
theorem synthReal_eq_sin_mod (amp f n : Nat) {fs : Nat} (hfs : 0 < fs) :
    synthReal amp f fs n = amp * sin (π * ((2 * (f * n) % (2 * fs) : Nat) / fs)) := by
  have hphase : ((2 * fs * (2 * (f * n) / (2 * fs)) + 2 * (f * n) % (2 * fs) : Nat) : ℝ) = 2 * (f * n) := by
    rw [Nat.div_add_mod]
    push_cast
    rfl
  rw [synthReal, ← sin_add_nat_mul_two_pi (π * _) (2 * (f * n) / (2 * fs))]
  push_cast at hphase
  congr 2
  field_simp
  linear_combination -hphase

/-- Settles O25: past half a turn the sine is that of the rest, negated. -/
theorem sineSamplesAreExact : Obligations.SineSamplesAreExact := by
  intro amp f fs n hfs
  have hne : (fs : ℝ) ≠ 0 := by positivity
  have hlt := Nat.mod_lt (2 * (f * n)) (show 0 < 2 * fs by omega)
  rw [synthReal_eq_sin_mod amp f n hfs, numSynth]
  split
  · rw [firstHalfTone_value _ hfs (by omega), Int.cast_natCast]
  · rw [firstHalfTone_value _ hfs (by omega), Nat.cast_sub (by omega), sub_div, div_self hne, mul_sub, mul_one,
      sin_sub_pi]
    push_cast
    ring

/-- Settles O26: the laws of values are those of R124's sine, and law (e) is that of the reduced phase. -/
theorem sineSampleLaws : Obligations.SineSampleLaws := by
  intro amp f fs n hfs
  have hval := sineSamplesAreExact
  refine ⟨?_, ?_, ?_, fun h => ?_, fun m h => ?_⟩
  · rw [hval amp f fs 0 hfs, synthReal]
    simp
  · rw [hval amp f fs n hfs, synthReal, abs_mul, Nat.abs_cast]
    exact mul_le_of_le_one_right (Nat.cast_nonneg amp) (abs_sin_le_one _)
  · rw [hval 0 f fs n hfs, synthReal, Nat.cast_zero, zero_mul]
  · obtain ⟨k, hk⟩ := Nat.dvd_of_mod_eq_zero h
    have hk' : 2 * (f : ℝ) * n = fs * k := by exact_mod_cast hk
    have hangle : 2 * π * f * n / fs = k * π := by
      field_simp
      linear_combination hk'
    rw [hval amp f fs n hfs, synthReal, hangle, sin_nat_mul_pi, mul_zero]
  · have hphase : 2 * (f * (n + m)) % (2 * fs) = 2 * (f * n) % (2 * fs) := by
      rw [Nat.mul_mod_mul_left, Nat.mul_mod_mul_left, Nat.mul_add, Nat.add_mod, h, Nat.add_zero, Nat.mod_mod]
    simp only [numSynth, hphase]

end Sys2Proof.Machine
end

section
/-! SYNTH and MOD (spec/41_lane_modulator.md R126 to R128): the states their bodies leave, element by element of
TX. -/

namespace Sys2Proof.Machine

variable {s : State}

theorem State.pulse_getElem? {b : Bool} {k : Carrier} {n : Nat} (hn : n < s.cfg.spp) :
    (s.pulse b k)[n]? =
      some (if b then numSynth s.cfg.amp.toNat (s.cfg.carrier k) s.cfg.fs.toNat n else .half 0) :=
  Sys2Proof.Machine.pulse_getElem? hn

/-- An element of a TX array after one pulse is written from index i. -/
theorem get_writeRun_pulse (buf : Buf Tone) (b : Bool) (k : Carrier) (i j : Nat) :
    Buf.get (Buf.writeRun buf i (s.pulse b k)) j =
      if i ≤ j ∧ j < i + s.cfg.spp then
        some (if b then numSynth s.cfg.amp.toNat (s.cfg.carrier k) s.cfg.fs.toNat (j - i) else .half 0)
      else Buf.get buf j := by
  rw [Buf.get_writeRun, State.pulse_length]
  split
  · exact State.pulse_getElem? (by omega)
  · rfl

/-- Settles O31: the body writes one lane, and there one pulse. -/
theorem synthWritesOnePulse : Obligations.SynthWritesOnePulse := by
  intro s c k b he hspp hamp hend
  have hexec := exec_ok (i := .synth c k b) nofun he (synthBody_eq_ok.mpr ⟨hspp, hamp, hend, rfl⟩)
  refine ⟨(s.mem.writeTx _ _ (s.pulse b k)).tx, hexec, fun l i => ?_⟩
  rw [Memory.writeTx_tx, Lanes.get_set]
  by_cases hl : l = laneOf c k
  · subst hl
    rw [if_pos rfl, get_writeRun_pulse]
    exact if_congr (by simp [laneOf, Nat.succ_mul]) rfl rfl
  · rw [if_neg hl, if_neg (fun h => hl (Fin.ext h.1))]

/-- An element of a TX array after MOD's streams are written from index 0. -/
theorem get_writeTxLanes_laneStream (bytes : List Byte) (l : Lane) (i : Nat) :
    Buf.get ((s.mem.writeTxLanes (laneStream s bytes)).tx.get l) i =
      if i < bytes.length * s.cfg.spp then (laneStream s bytes l)[i]? else Buf.get (s.mem.tx.get l) i := by
  simp [Memory.writeTxLanes, Buf.get_writeRun]

/-- Settles O32: the body writes each lane's stream from index 0, slot j of which is the pulse of byte j's bit. -/
theorem modWritesEightLanes : Obligations.ModWritesEightLanes := by
  intro s he hspp hamp hbytes hframes hw
  obtain ⟨bytes, hread, hlen, hval⟩ := Buf.readRun_ok s.mem.bytes 0 _ (written_bytes_iff.mp hw)
  have hexec := exec_ok (i := .mod) nofun he (modBody_eq_ok.mpr ⟨hspp, hamp, hbytes, hframes, bytes, hread, rfl⟩)
  refine ⟨(s.mem.writeTxLanes (laneStream s bytes)).tx, hexec, fun l j n b hj hn hb => ?_, fun l i hi => ?_⟩
  · have hin : j * s.cfg.spp + n < s.bytesLen.toNat * s.cfg.spp := by
      calc j * s.cfg.spp + n < (j + 1) * s.cfg.spp := by rw [Nat.succ_mul]; omega
        _ ≤ s.bytesLen.toNat * s.cfg.spp := Nat.mul_le_mul_right _ hj
    have hbyte : bytes[j]? = some b := by rw [← hval j hj, Nat.zero_add, hb]
    rw [get_writeTxLanes_laneStream, hlen, if_pos hin, laneStream_getElem? hn hbyte, State.pulse_getElem? hn, laneBit]
  · rw [get_writeTxLanes_laneStream, hlen, if_neg (by omega)]

end Sys2Proof.Machine
end

section
/-! Where commands abort at a length or an end beyond its limit (spec/60_exceptions.md R252): the checks of the
configuration come first, and then the limits are compared in order. -/

namespace Sys2Proof.Machine

variable {s : State}

theorem synthesis_checks_pass {α : Type} {x : Except Err α} (hspp : s.cfg.spp ≠ 0)
    (hamp : s.cfg.amp.toNat ≤ 32767) : (do requireSpp s; requireAmp s; x) = x :=
  (bind_of_pass (requireSpp_eq_ok.mpr hspp)).trans (bind_of_pass (requireAmp_eq_ok.mpr hamp))

theorem slicing_checks_pass {α : Type} {x : Except Err α} (hspp : s.cfg.spp ≠ 0) (hz : s.cfg.zone ≠ 0)
    (hrate : s.cfg.fs = s.cfg.refRate) : (do requireSpp s; requireZone s; requireRate s; x) = x :=
  (bind_of_pass (requireSpp_eq_ok.mpr hspp)).trans <| (bind_of_pass (requireZone_eq_ok.mpr hz)).trans <|
    bind_of_pass (requireRate_eq_ok.mpr hrate)

theorem within_passes {α : Type} {v limit : Nat} {x : Except Err α} (h : v ≤ limit) :
    (do requireWithin v limit; x) = x := bind_of_pass (requireWithin_eq_ok.mpr h)

/-- A command that comes to a limit and exceeds it raises `Range`. -/
theorem exec_range {i : Instr} {v limit : Nat} {x : Except Err State} (hi : i ≠ .clr)
    (he : s.status.err = false) (hbody : bodyOf i s = do requireWithin v limit; x) (h : limit < v) :
    exec i s = .next (s.raise ⟨.range, v, limit⟩) :=
  exec_error hi he (hbody.trans (bind_of_error (requireWithin_of_lt h)))

/-- Settles O56: each body passes the checks before the limit that is exceeded. -/
theorem lengthRangeErrors : Obligations.LengthRangeErrors := by
  intro s c k b he slicing synthesis slotEnd range
  refine ⟨fun ⟨hspp, hamp⟩ => exec_range nofun he (synthesis_checks_pass hspp hamp),
    fun ⟨hspp, hamp⟩ => exec_range nofun he (synthesis_checks_pass hspp hamp),
    fun ⟨hspp, hamp⟩ hb => exec_range nofun he ((synthesis_checks_pass hspp hamp).trans (within_passes hb)),
    fun h => ⟨exec_range nofun he rfl h, exec_range nofun he rfl h⟩,
    fun hch => exec_range nofun he (within_passes hch),
    fun ⟨hspp, hz, hrate⟩ h => ⟨exec_range nofun he (slicing_checks_pass hspp hz hrate) h,
      exec_range nofun he (slicing_checks_pass hspp hz hrate) h⟩,
    fun ⟨hspp, hz, hrate⟩ hrx => exec_range nofun he ((slicing_checks_pass hspp hz hrate).trans (within_passes hrx)),
    fun ⟨hspp, hz, hrate⟩ hrx => exec_range nofun he ((slicing_checks_pass hspp hz hrate).trans (within_passes hrx))⟩

end Sys2Proof.Machine
end

section
/-! The band filter's commands (spec/42_band_filter.md R151, R153, R157 to R159): the filter's laws, and the states
the bodies of BPF, BSF and XLANES leave, element by element of the space each writes. -/

namespace Sys2Proof.Machine

variable {s : State}

/-- Silence is its own filtering (L4). -/
theorem bwf_of_all_zero {type : Band} {order lo hi fs : Nat} {x : List Sample} (h : ∀ v ∈ x, v = 0) :
    bwf type order lo hi fs x = x :=
  if_pos (List.all_eq_true.mpr fun v hv => beq_iff_eq.mpr (h v hv))

/-- Settles O30: lengths and silence are kept, and a sample's range is that of its type. -/
theorem filterLaws : Obligations.FilterLaws := by
  intro type order lo hi fs x
  refine ⟨bwf_length .., fun v _ => ⟨BitVec.le_toInt v, Int.le_of_lt_add_one BitVec.toInt_lt⟩, fun h => ?_⟩
  rw [bwf_of_all_zero h]
  exact h

/-! ### BPF and BSF -/

/-- The length of a segment that ends inside the present frames fits its register. -/
theorem sat32_segLen (h : s.segFrom + s.segLen ≤ s.ainLen.toNat) : sat32 s.segLen = BitVec.ofNat 32 s.segLen :=
  sat32_eq_ofNat (w := s.ainLen) ((Nat.le_add_left _ _).trans h)

/-- Settles O34: the body writes one lane, from its start. -/
theorem bpfFiltersOneLane : Obligations.BpfFiltersOneLane := by
  intro s c k he hspp hk hrate hseg hw
  obtain ⟨x, hread, hlen, hval⟩ := Buf.readRun_ok _ _ _ (written_ain_iff.mp hw)
  obtain ⟨hcap, hend, hlong⟩ := hseg
  have hexec := exec_ok (i := .bpf c k) nofun he (bpfBody_eq_ok.mpr
    ⟨hspp, requireBandPass_eq_ok_iff.mpr hk, hrate, ⟨hcap, hend⟩, hlong, x, hread, rfl⟩)
  rw [sat32_segLen hend] at hexec
  refine ⟨x, (s.mem.writeRx (laneOf c k) 0 (bandPass s k x)).rx, hlen, hval, hexec, fun l i => ?_⟩
  rw [Memory.writeRx_rx, Lanes.get_set]
  by_cases hl : l = laneOf c k
  · subst hl
    rw [if_pos rfl, Buf.get_writeRun, bandPass_length, hlen]
    exact if_congr (by simp [laneOf]) rfl rfl
  · rw [if_neg hl, if_neg (fun h => hl (Fin.ext h.1))]

/-- Settles O35: the body writes one channel, from its start. -/
theorem bsfFiltersInPlace : Obligations.BsfFiltersInPlace := by
  intro s c he hfs hstop hcap hlong hw
  obtain ⟨x, hread, hlen, hval⟩ := Buf.readRun_ok _ _ _ (written_ch_iff.mp hw)
  simp only [Nat.zero_add] at hval
  have hexec := exec_ok (i := .bsf c) nofun he (bsfBody_eq_ok.mpr
    ⟨hfs, requireBandStop_eq_ok_iff.mpr hstop, hcap, hlong, x, hread, rfl⟩)
  refine ⟨x, (s.mem.writeCh c 0 (bandStop s x)).ch, hlen, hval, hexec, fun d i => ?_⟩
  rw [Memory.writeCh_ch, Stereo.get_set]
  by_cases hd : d = c
  · subst hd
    rw [if_pos rfl, Buf.get_writeRun, bandStop_length, hlen]
    exact if_congr (by simp) rfl rfl
  · rw [if_neg hd, if_neg (fun h => hd h.1)]

/-! ### XLANES -/

@[simp] theorem channelOf_laneOf (c : Channel) (k : Carrier) : channelOf (laneOf c k) = c := by
  ext
  simp only [channelOf, laneOf]
  omega

@[simp] theorem carrierOf_laneOf (c : Channel) (k : Carrier) : carrierOf (laneOf c k) = k := by
  ext
  simp only [carrierOf, laneOf]
  omega

/-- A choice between the channels' values is the value of the channel. -/
theorem ite_channel {α : Type} (x : Channel → α) (c : Channel) : (if c = 0 then x 0 else x 1) = x c := by
  match c with
  | 0 | 1 => rfl

/-- An element of an RX array after a run is written from the start of every lane. -/
theorem get_writeRxLanes (m : Memory) (run : Lane → List Sample) (l : Lane) (i : Nat) :
    Buf.get ((m.writeRxLanes run).rx.get l) i =
      if i < (run l).length then (run l)[i]? else Buf.get (m.rx.get l) i := by
  simp [Memory.writeRxLanes, Buf.get_writeRun]

/-- Settles O36: lane 4c + k is written from its start with the run of channel c at carrier k. -/
theorem xlanesFilterEightLanes : Obligations.XlanesFilterEightLanes := by
  intro s he hspp hk hrate hseg hw0 hw1
  have hw : ∀ c : Channel, s.written .ain c s.segFrom s.segLen := Fin.forall_fin_two.mpr ⟨hw0, hw1⟩
  choose x hread hlen hval using fun c => Buf.readRun_ok _ _ _ (written_ain_iff.mp (hw c))
  obtain ⟨hcap, hend, hlong⟩ := hseg
  have hexec := exec_ok (i := .xlanes) nofun he (xlanesBody_eq_ok.mpr
    ⟨hspp, requireBandPasses_eq_ok_iff.mpr hk, hrate, ⟨hcap, hend⟩, hlong, x 0, hread 0, x 1, hread 1, rfl⟩)
  simp only [ite_channel, sat32_segLen hend] at hexec
  refine ⟨x, (s.mem.writeRxLanes fun l => bandPass s (carrierOf l) (x (channelOf l))).rx,
    fun c => ⟨hlen c, hval c⟩, hexec, fun c k i => ?_⟩
  rw [get_writeRxLanes, channelOf_laneOf, carrierOf_laneOf, bandPass_length, hlen]
  rfl

end Sys2Proof.Machine
end

section
/-! Where the filter commands abort (spec/42_band_filter.md R154 to R159, spec/60_exceptions.md R252, R253): the
filter's configuration first, then the segment, and last a sequence too short to filter. -/

namespace Sys2Proof.Machine

variable {s : State} {e : Err}

/-! ### Invalid bands -/

theorem requireOrder_of_not (h : ¬ s.orderOk) : requireOrder s = .error ⟨.config, 0x060, s.cfg.order.toNat⟩ :=
  require_eq_error.mpr ⟨by simpa [State.orderOk] using h, rfl⟩

/-- A register is at least 1 where it is not 0. -/
theorem one_le_toNat_of_ne {w : Word} (h : w ≠ 0) : 1 ≤ w.toNat :=
  Nat.pos_of_ne_zero fun h0 => h (BitVec.eq_of_toNat_eq h0)

theorem requireBandPass_of_order {k : Carrier} (h : ¬ s.orderOk) :
    requireBandPass s k = .error ⟨.config, 0x060, s.cfg.order.toNat⟩ := bind_of_error (requireOrder_of_not h)

theorem requireBandPass_of_window {k : Carrier} (ho : s.orderOk) (h : s.cfg.window = 0) :
    requireBandPass s k = .error ⟨.config, 0x05C, 0⟩ :=
  (bind_of_pass (requireOrder_eq_ok_iff.mpr ho)).trans (bind_of_error (by simp [h]))

theorem requireBandPass_of_carrier {k : Carrier} (ho : s.orderOk) (hw : s.cfg.window ≠ 0) (h : ¬ s.bandPassOk k) :
    requireBandPass s k = .error ⟨.config, carrierOffset k, s.cfg.carrier k⟩ := by
  have hwindow := one_le_toNat_of_ne hw
  refine (bind_of_pass (requireOrder_eq_ok_iff.mpr ho)).trans <|
    (bind_of_pass (require_eq_ok.mpr (decide_eq_true hwindow))).trans (require_eq_error.mpr ⟨?_, rfl⟩)
  simpa [State.bandPassOk, ho, hwindow] using h

/-- The carriers are checked in order, so those before the first invalid one pass. -/
theorem requireBandPasses_error {k : Carrier} (hlt : ∀ j < k, s.bandPassOk j) (h : requireBandPass s k = .error e) :
    requireBandPasses s = .error e := by
  have hok : ∀ j < k, requireBandPass s j = .ok () := fun j hj => requireBandPass_eq_ok_iff.mpr (hlt j hj)
  match k, hok, h with
  | 0, hok, h | 1, hok, h | 2, hok, h | 3, hok, h => simp [requireBandPasses, bind, Except.bind, hok, h]

theorem exec_bpf_band_error {c : Channel} {k : Carrier} (he : s.status.err = false) (hspp : s.cfg.spp ≠ 0)
    (h : requireBandPass s k = .error e) : exec (.bpf c k) s = .next (s.raise e) :=
  exec_error nofun he ((bind_of_pass (requireSpp_eq_ok.mpr hspp)).trans (bind_of_error h))

theorem exec_eight_lanes_band_error (he : s.status.err = false) (hspp : s.cfg.spp ≠ 0)
    (h : requireBandPasses s = .error e) :
    exec .xlanes s = .next (s.raise e) ∧ exec .demod s = .next (s.raise e) :=
  have spp : requireSpp s = .ok () := requireSpp_eq_ok.mpr hspp
  ⟨exec_error nofun he ((bind_of_pass spp).trans (bind_of_error h)),
    exec_error nofun he (bind_of_error ((bind_of_pass spp).trans (bind_of_error h)))⟩

/-- Settles O37: ORDER and WINDOW fail at the first carrier already, a carrier's frequency where it is reached. -/
theorem bandPassConfigErrors : Obligations.BandPassConfigErrors := by
  intro s c k he hspp refused order window carrier
  refine ⟨fun ho => ⟨exec_bpf_band_error he hspp (requireBandPass_of_order ho), ?_⟩,
    fun ho hw => ⟨exec_bpf_band_error he hspp (requireBandPass_of_window ho hw), ?_⟩,
    fun ho hw hk => ⟨exec_bpf_band_error he hspp (requireBandPass_of_carrier ho hw hk), fun hlt => ?_⟩⟩
  · exact exec_eight_lanes_band_error he hspp (requireBandPasses_error (k := 0) nofun (requireBandPass_of_order ho))
  · exact exec_eight_lanes_band_error he hspp
      (requireBandPasses_error (k := 0) nofun (requireBandPass_of_window ho hw))
  · exact exec_eight_lanes_band_error he hspp (requireBandPasses_error hlt (requireBandPass_of_carrier ho hw hk))

theorem requireBandStop_of_order (h : ¬ s.orderOk) :
    requireBandStop s = .error ⟨.config, 0x060, s.cfg.order.toNat⟩ := bind_of_error (requireOrder_of_not h)

theorem requireBandStop_of_low (ho : s.orderOk)
    (h : ¬ (1 ≤ s.cfg.stopLo.toNat ∧ s.cfg.stopLo.toNat < s.cfg.stopHi.toNat)) :
    requireBandStop s = .error ⟨.config, 0x064, s.cfg.stopLo.toNat⟩ :=
  (bind_of_pass (requireOrder_eq_ok_iff.mpr ho)).trans
    (bind_of_error (require_eq_error.mpr ⟨by simpa using h, rfl⟩))

theorem requireBandStop_of_high (ho : s.orderOk) (h1 : 1 ≤ s.cfg.stopLo.toNat)
    (hlo : s.cfg.stopLo.toNat < s.cfg.stopHi.toNat) (h : s.cfg.fs.toNat ≤ 2 * s.cfg.stopHi.toNat) :
    requireBandStop s = .error ⟨.config, 0x068, s.cfg.stopHi.toNat⟩ :=
  (bind_of_pass (requireOrder_eq_ok_iff.mpr ho)).trans <|
    (bind_of_pass (require_eq_ok.mpr (by simp [h1, hlo]))).trans (require_eq_error.mpr ⟨by simpa using h, rfl⟩)

/-- BSF checks its band after FS, and EMBED after the checks of synthesis. -/
theorem exec_band_stop_error {c : Channel} (he : s.status.err = false) (hfs : s.cfg.fs ≠ 0)
    (h : requireBandStop s = .error e) :
    exec (.bsf c) s = .next (s.raise e) ∧
      (s.cfg.spp ≠ 0 ∧ s.cfg.amp.toNat ≤ 32767 → exec .embed s = .next (s.raise e)) :=
  ⟨exec_error nofun he ((bind_of_pass (require_eq_ok.mpr (decide_eq_true hfs))).trans (bind_of_error h)),
    fun ⟨hspp, hamp⟩ =>
      exec_error nofun he (bind_of_error ((synthesis_checks_pass hspp hamp).trans (bind_of_error h)))⟩

/-- Settles O38: FS is BSF's first check, and the band's own checks follow in order. -/
theorem bandStopConfigErrors : Obligations.BandStopConfigErrors := by
  intro s c he refused synthesis order low high
  exact ⟨fun hfs => exec_error nofun he (bind_of_error (by simp [hfs])),
    fun hfs ho => exec_band_stop_error he hfs (requireBandStop_of_order ho),
    fun hfs ho hlo => exec_band_stop_error he hfs (requireBandStop_of_low ho hlo),
    fun hfs ho h1 hlo hhi => exec_band_stop_error he hfs (requireBandStop_of_high ho h1 hlo hhi)⟩

/-! ### The segment -/

section
variable {α : Type} {x : Except Err α} (hspp : s.cfg.spp ≠ 0) (hrate : s.cfg.fs = s.cfg.refRate)
include hspp hrate

theorem bpf_config_passes {k : Carrier} (hk : s.bandPassOk k) :
    (do requireSpp s; requireBandPass s k; requireRate s; x) = x :=
  (bind_of_pass (requireSpp_eq_ok.mpr hspp)).trans <| (bind_of_pass (requireBandPass_eq_ok_iff.mpr hk)).trans <|
    bind_of_pass (requireRate_eq_ok.mpr hrate)

theorem xlanes_config_passes (hk : ∀ k, s.bandPassOk k) :
    (do requireSpp s; requireBandPasses s; requireRate s; x) = x :=
  (bind_of_pass (requireSpp_eq_ok.mpr hspp)).trans <| (bind_of_pass (requireBandPasses_eq_ok_iff.mpr hk)).trans <|
    bind_of_pass (requireRate_eq_ok.mpr hrate)

theorem demod_config_passes (hk : ∀ k, s.bandPassOk k) (hz : s.cfg.zone ≠ 0) :
    (do requireSpp s; requireBandPasses s; requireZone s; requireRate s; x) = x :=
  (bind_of_pass (requireSpp_eq_ok.mpr hspp)).trans <| (bind_of_pass (requireBandPasses_eq_ok_iff.mpr hk)).trans <|
    (bind_of_pass (requireZone_eq_ok.mpr hz)).trans <| bind_of_pass (requireRate_eq_ok.mpr hrate)

/-- The extraction commands with a valid configuration check the segment next. -/
theorem exec_segment_error {c : Channel} {k : Carrier} (he : s.status.err = false)
    (h : requireSegment s = .error e) :
    (s.bandPassOk k → exec (.bpf c k) s = .next (s.raise e)) ∧
      ((∀ j, s.bandPassOk j) → exec .xlanes s = .next (s.raise e) ∧
        (s.cfg.zone ≠ 0 → exec .demod s = .next (s.raise e))) :=
  ⟨fun hk => exec_error nofun he ((bpf_config_passes hspp hrate hk).trans (bind_of_error h)),
    fun hk => ⟨exec_error nofun he ((xlanes_config_passes hspp hrate hk).trans (bind_of_error h)),
      fun hz => exec_error nofun he
        (bind_of_error ((demod_config_passes hspp hrate hk hz).trans (bind_of_error h)))⟩⟩

end

theorem requireSegment_of_capacity (h : s.params.maxFrames < s.ainLen.toNat) :
    requireSegment s = .error ⟨.range, s.ainLen.toNat, s.params.maxFrames⟩ :=
  bind_of_error (requireWithin_of_lt h)

theorem requireSegment_of_end (hcap : s.ainLen.toNat ≤ s.params.maxFrames)
    (h : s.ainLen.toNat < s.segFrom + s.segLen) :
    requireSegment s = .error ⟨.range, s.segFrom + s.segLen, s.ainLen.toNat⟩ :=
  (within_passes hcap).trans (requireWithin_of_lt h)

/-- Settles O40: the segment's two limits, and then DEMOD's of the byte buffer. -/
theorem segmentRangeErrors : Obligations.SegmentRangeErrors := by
  intro s c k he hspp hrate
  refine ⟨fun h => exec_segment_error hspp hrate he (requireSegment_of_capacity h),
    fun hcap h => exec_segment_error hspp hrate he (requireSegment_of_end hcap h), fun hcap hend hk hz h => ?_⟩
  exact exec_error nofun he <| bind_of_error <| (demod_config_passes hspp hrate hk hz).trans <|
    (bind_of_pass (requireSegment_eq_ok.mpr ⟨hcap, hend⟩)).trans (bind_of_error (requireWithin_of_lt h))

/-! ### Too short a sequence -/

theorem requireLong_of_le {n : Nat} (h : n ≤ s.minLen) : requireLong s n = .error ⟨.short, n, s.minLen⟩ :=
  require_eq_error.mpr ⟨decide_eq_false (Nat.not_lt.mpr h), rfl⟩

theorem bsfBody_short {c : Channel} (hfs : s.cfg.fs ≠ 0) (hstop : s.bandStopOk)
    (hcap : s.chLen.toNat ≤ s.params.maxFrames) (h : s.chLen.toNat ≤ s.minLen) :
    bsfBody c s = .error ⟨.short, s.chLen.toNat, s.minLen⟩ :=
  (bind_of_pass (require_eq_ok.mpr (decide_eq_true hfs))).trans <|
    (bind_of_pass (requireBandStop_eq_ok_iff.mpr hstop)).trans <| (within_passes hcap).trans <|
      bind_of_error (requireLong_of_le h)

theorem embedBody_short (hspp : s.cfg.spp ≠ 0) (hamp : s.cfg.amp.toNat ≤ 32767) (hstop : s.bandStopOk)
    (hbytes : s.bytesLen.toNat ≤ s.params.maxBytes) (hframes : s.ainLen.toNat ≤ s.params.maxFrames)
    (hcap : s.bytesLen.toNat * s.cfg.spp ≤ s.ainLen.toNat) (h : s.ainLen.toNat ≤ s.minLen) :
    embedBody s = .error ⟨.short, s.ainLen.toNat, s.minLen⟩ :=
  bind_of_error <| (synthesis_checks_pass hspp hamp).trans <|
    (bind_of_pass (requireBandStop_eq_ok_iff.mpr hstop)).trans <| (within_passes hbytes).trans <|
      (within_passes hframes).trans <| (bind_of_pass (require_eq_ok.mpr (decide_eq_true hcap))).trans <|
        bind_of_error (requireLong_of_le h)

/-- Settles O41: the length of the sequence is the last check before its samples are read. -/
theorem shortErrors : Obligations.ShortErrors := by
  intro s c k he bound short
  refine ⟨fun hspp hrate hcap hend h => ?_,
    fun hfs hstop hcap h => exec_error nofun he (bsfBody_short hfs hstop hcap h),
    fun hspp hamp hstop hbytes hframes hcap h =>
      exec_error nofun he (embedBody_short hspp hamp hstop hbytes hframes hcap h)⟩
  have seg : requireSegment s = .ok () := requireSegment_eq_ok.mpr ⟨hcap, hend⟩
  have long := requireLong_of_le h
  refine ⟨fun hk => exec_error nofun he ?_, fun hk => ⟨exec_error nofun he ?_, fun hz hsyms => exec_error nofun he ?_⟩⟩
  · exact (bpf_config_passes hspp hrate hk).trans ((bind_of_pass seg).trans (bind_of_error long))
  · exact (xlanes_config_passes hspp hrate hk).trans ((bind_of_pass seg).trans (bind_of_error long))
  · exact bind_of_error <| (demod_config_passes hspp hrate hk hz).trans <| (bind_of_pass seg).trans <|
      (within_passes hsyms).trans (bind_of_error long)

end Sys2Proof.Machine
end

section
/-! The overlay mix (spec/43_stereo_mux.md R183, spec/00_scope.md R10). Each enclosure of the search rounds to the
same integer as the exact sum or holds a tie, and a last enclosure that still holds a tie is too narrow for a sum
that is not the tie itself (`twiceSum_separation`). -/

namespace Sys2Proof.Machine

/-! ### Rounding a real number -/

theorem rneReal_le (x : ℝ) : (rneReal x : ℝ) ≤ x + 1 / 2 := by
  have hfloor := Int.floor_le x
  unfold rneReal
  split_ifs <;> push_cast <;> linarith

theorem le_rneReal (x : ℝ) : x ≤ rneReal x + 1 / 2 := by
  have hfloor := Int.lt_floor_add_one x
  unfold rneReal
  split_ifs <;> push_cast <;> linarith

/-- Rounding is monotone: two numbers rounded the other way round would both be the tie between. -/
theorem rneReal_mono {x y : ℝ} (h : x ≤ y) : rneReal x ≤ rneReal y := by
  by_contra hlt
  have hstep : (rneReal y : ℝ) + 1 ≤ rneReal x := by exact_mod_cast Int.add_one_le_of_lt (not_le.mp hlt)
  have hx := rneReal_le x
  have hy := le_rneReal y
  obtain rfl : x = y := by linarith
  exact hlt le_rfl

/-- A tie goes to the even neighbour. -/
theorem rneReal_add_half (k : Int) : rneReal (k + 1 / 2) = roundTie k := by
  have hfloor : ⌊(k : ℝ) + 1 / 2⌋ = k := by rw [Int.floor_intCast_add]; norm_num
  rw [rneReal, hfloor, add_sub_cancel_left, if_neg (lt_irrefl _), if_neg (lt_irrefl _), roundTie]

/-- A number between two that round alike rounds so too. -/
theorem rneReal_eq_of_between {a x b : ℝ} (hax : a ≤ x) (hxb : x ≤ b) (h : rneReal a = rneReal b) :
    rneReal x = rneReal a :=
  le_antisymm ((rneReal_mono hxb).trans_eq h.symm) (rneReal_mono hax)

/-- Between two numbers that round apart lies the tie above the lower one's rounding. -/
theorem tie_between {a b : ℝ} (hab : a ≤ b) (h : rneReal a ≠ rneReal b) :
    a ≤ rneReal a + 1 / 2 ∧ (rneReal a : ℝ) + 1 / 2 ≤ b := by
  have hstep : (rneReal a : ℝ) + 1 ≤ rneReal b := by
    exact_mod_cast Int.add_one_le_of_lt (lt_of_le_of_ne (rneReal_mono hab) h)
  have hb := rneReal_le b
  exact ⟨le_rneReal a, by linarith⟩

theorem rneHalfAt_eq (w : Nat) (v : Int) : rneHalfAt w v = rneReal ((v : ℝ) / 2 ^ (w + 1)) := by
  rw [rneHalfAt, roundingIsNearestEven v _ (by positivity)]
  push_cast
  rfl

/-! ### One enclosure -/

section
variable {h : Int} {ss : Sines} {w : Nat}

/-- The exact sum lies in its enclosure. -/
theorem sum_mem_enclosure (hw : 64 ≤ w) (ok : ss.Ok) :
    ((twiceSum w h ss - twiceSumError w ss : Int) : ℝ) / 2 ^ (w + 1) ≤ h / 2 + ss.value ∧
      (h : ℝ) / 2 + ss.value ≤ ((twiceSum w h ss + twiceSumError w ss : Int) : ℝ) / 2 ^ (w + 1) := by
  have herr := abs_le.mp (twiceSum_error hw h ok)
  have hpow : (0 : ℝ) < 2 ^ (w + 1) := by positivity
  rw [div_le_iff₀ hpow, le_div_iff₀ hpow, pow_succ]
  push_cast
  constructor <;> linarith

/-- Where both ends of the enclosure round alike, the sum rounds so. -/
theorem rneReal_of_enclosure (hw : 64 ≤ w) (ok : ss.Ok)
    (heq : rneHalfAt w (twiceSum w h ss - twiceSumError w ss) =
      rneHalfAt w (twiceSum w h ss + twiceSumError w ss)) :
    rneHalfAt w (twiceSum w h ss - twiceSumError w ss) = rneReal (h / 2 + ss.value) := by
  obtain ⟨hlo, hhi⟩ := sum_mem_enclosure (h := h) hw ok
  rw [rneHalfAt_eq, rneHalfAt_eq] at heq
  rw [rneHalfAt_eq]
  exact (rneReal_eq_of_between hlo hhi heq).symm

/-- Where twice the sum is odd, the sum is a tie. -/
theorem rneReal_of_tie {lo : Int} (h2 : (h : ℝ) + 2 * ss.value = (2 * lo + 1 : Int)) :
    roundTie lo = rneReal (h / 2 + ss.value) := by
  rw [← rneReal_add_half]
  push_cast at h2
  congr 1
  linarith

/-- The enclosure at precision w is narrower than the distance of twice a sum from an integer it differs from. -/
def SeparatesTies (ss : Sines) (w : Nat) : Prop :=
  2 * twiceSumError w ss * (4 * ss.amplitude + 1) ^ ss.order < 2 ^ w

/-- Twice a sum within such an enclosure of an integer is that integer. -/
theorem SeparatesTies.eq_of_near (hsep : SeparatesTies ss w) (ok : ss.Ok) {k : Int}
    (hnear : 2 ^ w * |(h : ℝ) + 2 * ss.value - k| ≤ 2 * twiceSumError w ss) : (h : ℝ) + 2 * ss.value = k := by
  set e := twiceSumError w ss
  set B : ℝ := ((4 * ss.amplitude + 1 : Nat) : ℝ) ^ ss.order with hBdef
  have hpow : (0 : ℝ) < 2 ^ w := by positivity
  have hB : 1 ≤ B := one_le_pow₀ (by exact_mod_cast Nat.le_add_left 1 _)
  have hsmall : 2 * (e : ℝ) * B < 2 ^ w := by rw [hBdef]; exact_mod_cast hsep
  have hle : |(h : ℝ) + 2 * ss.value - k| ≤ 1 := by
    refine le_of_mul_le_mul_left ?_ hpow
    calc 2 ^ w * |(h : ℝ) + 2 * ss.value - k| ≤ 2 * e := hnear
      _ ≤ 2 * e * B := le_mul_of_one_le_right (by positivity) hB
      _ ≤ 2 ^ w * 1 := by rw [mul_one]; exact hsmall.le
  by_contra hne
  have hfar := twiceSum_separation ok hne hle
  refine absurd hsmall (not_lt.mpr ?_)
  calc (2 : ℝ) ^ w ≤ 2 ^ w * (|(h : ℝ) + 2 * ss.value - k| * B) := le_mul_of_one_le_right hpow.le hfar
    _ = 2 ^ w * |(h : ℝ) + 2 * ss.value - k| * B := (mul_assoc ..).symm
    _ ≤ 2 * e * B := by gcongr

/-- Where the ends of an enclosure so narrow round apart, the sum is the tie between. -/
theorem tie_of_enclosure (hw : 64 ≤ w) (ok : ss.Ok) (hsep : SeparatesTies ss w)
    (hne : rneHalfAt w (twiceSum w h ss - twiceSumError w ss) ≠
      rneHalfAt w (twiceSum w h ss + twiceSumError w ss)) :
    (h : ℝ) + 2 * ss.value = (2 * rneHalfAt w (twiceSum w h ss - twiceSumError w ss) + 1 : Int) := by
  refine hsep.eq_of_near ok ?_
  obtain ⟨hlo, hhi⟩ := sum_mem_enclosure (h := h) hw ok
  rw [rneHalfAt_eq, rneHalfAt_eq] at hne
  rw [rneHalfAt_eq]
  obtain ⟨tlo, thi⟩ := tie_between (hlo.trans hhi) hne
  generalize rneReal (((twiceSum w h ss - twiceSumError w ss : Int) : ℝ) / 2 ^ (w + 1)) = k at tlo thi ⊢
  have hpow : (0 : ℝ) < 2 ^ (w + 1) := by positivity
  rw [div_le_iff₀ hpow, pow_succ] at hlo tlo
  rw [le_div_iff₀ hpow, pow_succ] at hhi thi
  rw [← abs_of_pos (show (0 : ℝ) < 2 ^ w by positivity), ← abs_mul, abs_le]
  push_cast at hlo tlo hhi thi ⊢
  constructor <;> linarith

end

/-! ### The search -/

/-- The search rounds the exact sum, whatever precision it starts from, where its last one separates ties. -/
theorem roundSearch_eq {h : Int} {ss : Sines} (ok : ss.Ok) (n : Nat) {w : Nat} (hw : 64 ≤ w)
    (hsep : SeparatesTies ss (w * 2 ^ n)) : roundSearch h ss n w = rneReal (h / 2 + ss.value) := by
  induction n generalizing w with
  | zero =>
    rw [roundSearch]
    split_ifs with heq
    · exact rneReal_of_enclosure hw ok heq
    · exact rneReal_of_tie (tie_of_enclosure hw ok (by simpa using hsep) heq)
  | succ n ih =>
    rw [roundSearch]
    split_ifs with heq htie
    · exact rneReal_of_enclosure hw ok heq
    · exact rneReal_of_tie (twiceSumIs_sound ok htie)
    · exact ih (by omega) (by rwa [mul_comm 2 w, mul_assoc, ← pow_succ'])

theorem sixtyFour_mul_lt_two_pow {u : Nat} (hu : 64 ≤ u) : 64 * (2 * u + 9) < 2 ^ u := by
  induction u, hu using Nat.le_induction with
  | base => norm_num
  | succ u hu ih =>
    rw [pow_succ]
    omega

/-- The precision the search ends at separates ties. -/
theorem separatesTies_searchFuel {ss : Sines} :
    SeparatesTies ss ((64 + Nat.log2 (ss.amplitude + 1)) * 2 ^ searchFuel ss) := by
  set A := ss.amplitude with hA
  set L := Nat.log2 (A + 1)
  set M := ss.order * (Nat.log2 (4 * A + 1) + 1) with hM
  set F := 2 ^ searchFuel ss with hF
  set w := (64 + L) * F with hw
  have hMF : M < F := Nat.lt_log2_self
  have hF2 : 2 ≤ F := Nat.le_self_pow (Nat.succ_ne_zero _) 2
  have hamp : A < 2 ^ (L + 1) := (Nat.lt_succ_self A).trans Nat.lt_log2_self
  have hbase : (4 * A + 1) ^ ss.order ≤ 2 ^ M := by
    rw [hM, mul_comm ss.order, pow_mul]
    exact Nat.pow_le_pow_left Nat.lt_log2_self.le _
  have hwide : M + (L + 1) + w / 2 ≤ w := by
    have : 2 * L ≤ L * F := by rw [mul_comm 2]; exact Nat.mul_le_mul_left L hF2
    have : w = 64 * F + L * F := by rw [hw, add_mul]
    omega
  have hlong : 64 * (w + 8) < 2 ^ (w / 2) := by
    have : 64 * F ≤ w := Nat.mul_le_mul_right F (Nat.le_add_right 64 L)
    exact lt_of_le_of_lt (by omega) (sixtyFour_mul_lt_two_pow (u := w / 2) (by omega))
  calc 2 * twiceSumError w ss * (4 * A + 1) ^ ss.order
      = (4 * A + 1) ^ ss.order * A * (64 * (w + 8)) := by rw [twiceSumError, sinError, ← hA]; ring
    _ ≤ 2 ^ M * 2 ^ (L + 1) * (64 * (w + 8)) := by gcongr
    _ < 2 ^ M * 2 ^ (L + 1) * 2 ^ (w / 2) := by gcongr
    _ = 2 ^ (M + (L + 1) + w / 2) := by rw [pow_add _ (M + (L + 1)), pow_add _ M]
    _ ≤ 2 ^ w := Nat.pow_le_pow_right two_pos hwide

/-- The rounding of a sum is that of the exact real number. -/
theorem rneSum_eq {h : Int} {ss : Sines} (ok : ss.Ok) : rneSum h ss = rneReal (h / 2 + ss.value) := by
  rw [rneSum]
  split_ifs with hnil
  · obtain rfl := List.isEmpty_iff.mp hnil
    rw [roundingIsNearestEven h 2 two_pos, Sines.value_nil, add_zero]
    norm_num
  · exact roundSearch_eq ok _ (Nat.le_add_right 64 _) separatesTies_searchFuel

/-! ### Tones -/

/-- A tone is its rational and its irrational part. -/
theorem Tone.value_eq (t : Tone) : t.value = t.halves / 2 + t.sines.value := by
  cases t <;> simp [Tone.value, Tone.halves, Tone.sines]

theorem Tone.sines_ok {t : Tone} (h : t.wf = true) : t.sines.Ok := by
  cases t with
  | half _ => exact nofun
  | sine a p q =>
    simp only [Tone.wf, Bool.and_eq_true, decide_eq_true_eq] at h
    obtain ⟨⟨⟨-, hpq⟩, -⟩, -⟩ := h
    simp only [Tone.sines, Sines.Ok, List.mem_singleton, forall_eq]
    omega

theorem Sines.Ok.append {ss rs : Sines} (hs : ss.Ok) (hr : rs.Ok) : Sines.Ok (ss ++ rs) :=
  fun t ht => (List.mem_append.mp ht).elim (hs t) (hr t)

theorem Sines.value_append (ss rs : Sines) : Sines.value (ss ++ rs) = ss.value + rs.value := by
  simp [Sines.value]

/-- Settles O29: the parts of the five summands are added apart, and `rneSum_eq` rounds their exact sum. -/
theorem mixIsExact : Obligations.MixIsExact := by
  intro x t0 t1 t2 t3 h0 h1 h2 h3
  have ok := (((Tone.sines_ok h0).append (Tone.sines_ok h1)).append (Tone.sines_ok h2)).append (Tone.sines_ok h3)
  rw [mix, rneSum_eq ok, q16Real]
  simp only [Sines.value_append, Tone.value_eq]
  push_cast
  congr 2
  ring

/-- A sample in range is not changed by saturation. -/
theorem sat16_toInt (x : Sample) : sat16 x.toInt = x := by
  have hlo := BitVec.le_toInt x
  have hhi := BitVec.toInt_lt (x := x)
  rw [sat16, min_eq_right (by omega), max_eq_right (by omega), BitVec.ofInt_toInt]

/-- Settles O28: the sum is the sample, an integer. -/
theorem mixWithSilenceIsIdentity : Obligations.MixWithSilenceIsIdentity := by
  intro x
  have hsum : rneSum (2 * x.toInt) [] = x.toInt := by simp [rneSum, rneDiv]
  simpa [mix, Tone.halves, Tone.sines, hsum] using sat16_toInt x

end Sys2Proof.Machine
end

section
/-! DEMUX, OVL and MUX (spec/43_stereo_mux.md R182, R184, R185): the states their bodies leave, element by element
of the space each writes. -/

namespace Sys2Proof.Machine

/-- The elements of a run that is read from the start of an array. -/
theorem Buf.get_of_readRun {α : Type} {b : Buf α} {n i : Nat} {vs : List α} (h : Buf.readRun b 0 n = .ok vs)
    (hi : i < n) : Buf.get b i = vs[i]? := by
  rw [← (Buf.readRun_eq_ok h).2 i hi, Nat.zero_add]

/-- An element of a pair of arrays after a run is written from the start of both. -/
theorem Stereo.get_set_both (x : Stereo (Buf Sample)) (v : Channel → List Sample) (c : Channel) (i : Nat) :
    Buf.get (((x.set 0 (Buf.writeRun (x.get 0) 0 (v 0))).set 1
      (Buf.writeRun ((x.set 0 (Buf.writeRun (x.get 0) 0 (v 0))).get 1) 0 (v 1))).get c) i =
        if i < (v c).length then (v c)[i]? else Buf.get (x.get c) i := by
  match c with
  | 0 => simp [Stereo.get_set, Buf.get_writeRun]
  | 1 => simp [Stereo.get_set, Buf.get_writeRun]

/-- A copy of one pair of arrays into another, as far as the first is read. -/
theorem Stereo.get_copy (x y : Stereo (Buf Sample)) {v : Channel → List Sample} {n : Nat}
    (hread : ∀ c, Buf.readRun (y.get c) 0 n = .ok (v c)) (c : Channel) (i : Nat) :
    Buf.get (((x.set 0 (Buf.writeRun (x.get 0) 0 (v 0))).set 1
      (Buf.writeRun ((x.set 0 (Buf.writeRun (x.get 0) 0 (v 0))).get 1) 0 (v 1))).get c) i =
        if i < n then Buf.get (y.get c) i else Buf.get (x.get c) i := by
  rw [Stereo.get_set_both, (Buf.readRun_eq_ok (hread c)).1]
  split
  · next hi => exact (Buf.get_of_readRun (hread c) hi).symm
  · rfl

/-- Settles O42: the body writes both channels, from their start, with what it read. -/
theorem demuxCopiesInput : Obligations.DemuxCopiesInput := by
  intro s he hcap hw0 hw1
  have hw : ∀ c : Channel, s.written .ain c 0 s.ainLen.toNat := Fin.forall_fin_two.mpr ⟨hw0, hw1⟩
  choose v hread using fun c => readAin_of_written (hw c)
  simp only [readAin_eq_ok] at hread
  have hexec := exec_ok (i := .demux) nofun he (demuxBody_eq_ok.mpr ⟨hcap, v 0, hread 0, v 1, hread 1, rfl⟩)
  exact ⟨((s.mem.writeCh 0 0 (v 0)).writeCh 1 0 (v 1)).ch, hexec, Stereo.get_copy s.mem.ch s.mem.ain hread⟩

/-- Settles O45: the body writes both channels, from their start, with what it read. -/
theorem muxCopiesChannels : Obligations.MuxCopiesChannels := by
  intro s he hcap hw0 hw1
  have hw : ∀ c : Channel, s.written .ch c 0 s.chLen.toNat := Fin.forall_fin_two.mpr ⟨hw0, hw1⟩
  choose v hread using fun c => readCh_of_written (hw c)
  simp only [readCh_eq_ok] at hread
  have hexec := exec_ok (i := .mux) nofun he (muxBody_eq_ok.mpr ⟨hcap, v 0, hread 0, v 1, hread 1, rfl⟩)
  exact ⟨((s.mem.writeAout 0 0 (v 0)).writeAout 1 0 (v 1)).aout, hexec, Stereo.get_copy s.mem.aout s.mem.ch hread⟩

/-- Settles O46: below AIN_LEN, MUX copies the working channels that DEMUX copied from the input. -/
theorem demuxThenMuxReproducesInput : Obligations.DemuxThenMuxReproducesInput := by
  intro s he hcap hw0 hw1
  obtain ⟨ch, hdemux, hch⟩ := demuxCopiesInput s he hcap hw0 hw1
  have hw : ∀ c : Channel, s.written .ain c 0 s.ainLen.toNat := Fin.forall_fin_two.mpr ⟨hw0, hw1⟩
  have hwritten : ∀ c : Channel, ∀ j < s.ainLen.toNat, (Buf.get (ch.get c) (0 + j)).isSome := by
    intro c j hj
    have hain := written_ain_iff.mp (hw c) j hj
    rwa [hch, if_pos (by omega)]
  obtain ⟨aout, hmux, haout⟩ := muxCopiesChannels
    { s with status := { s.status with done := true }, chLen := s.ainLen, mem := { s.mem with ch := ch } }
    he hcap (written_ch_iff (c := 0).mpr (hwritten 0)) (written_ch_iff (c := 1).mpr (hwritten 1))
  refine ⟨_, _, hdemux, hmux, rfl, fun c i hi => ?_⟩
  rw [haout, if_pos hi, hch, if_pos hi]

/-- Settles O44: the body writes one channel, from its start, with the mix of what it read. -/
theorem ovlAddsFourLanes : Obligations.OvlAddsFourLanes := by
  intro s c he hcap hlane hwch hwtx
  obtain ⟨x, hx, hxlen, hxval⟩ := Buf.readRun_ok _ _ _ (written_ch_iff.mp hwch)
  choose t ht htlen htval using fun k => Buf.readRun_ok _ _ _ (written_tx_iff (l := laneOf c k).mp (hwtx k))
  have hexec := exec_ok (i := .ovl c) nofun he (ovlBody_eq_ok.mpr
    ⟨hcap, hlane, x, hx, t 0, ht 0, t 1, ht 1, t 2, ht 2, t 3, ht 3, rfl⟩)
  have hlen := mixRun_length hxlen (htlen 0) (htlen 1) (htlen 2) (htlen 3)
  simp only [Nat.zero_add] at hxval htval
  refine ⟨(s.mem.writeCh c 0 (mixRun x (t 0) (t 1) (t 2) (t 3))).ch, hexec,
    fun i v u0 u1 u2 u3 hi hv h0 h1 h2 h3 => ?_, fun d i hdi => ?_⟩
  · rw [Memory.writeCh_ch, Stereo.get_set_self, Buf.get_writeRun, if_pos (by omega), Nat.sub_zero]
    refine mixRun_getElem? ?_ ?_ ?_ ?_ ?_
    · rw [← hxval i hi, hv]
    · rw [← htval 0 i hi, h0]
    · rw [← htval 1 i hi, h1]
    · rw [← htval 2 i hi, h2]
    · rw [← htval 3 i hi, h3]
  · rw [Memory.writeCh_ch, Stereo.get_set]
    split
    · next hd => rw [Buf.get_writeRun, if_neg (by have := hdi.neg_resolve_left hd; omega), hd]
    · rfl

end Sys2Proof.Machine
end

section
/-! Where EMBED aborts (spec/43_stereo_mux.md R186, R187): its checks in order, after which nothing fails. -/

namespace Sys2Proof.Machine

variable {s : State} {e : Err}

/-! ### The checks before the capacity, and those after it -/

theorem embed_config_passes {α : Type} {x : Except Err α} (hspp : s.cfg.spp ≠ 0)
    (hamp : s.cfg.amp.toNat ≤ 32767) (hstop : s.bandStopOk) :
    (do requireSpp s; requireAmp s; requireBandStop s; x) = x :=
  (synthesis_checks_pass hspp hamp).trans (bind_of_pass (requireBandStop_eq_ok_iff.mpr hstop))

/-- A carrier that is long enough passes the capacity check. -/
theorem capacity_passes {α : Type} {x : Except Err α} {n frames info : Nat} (h : n ≤ frames) :
    (do require (n ≤ frames) ⟨.capacity, info, frames⟩; x) = x :=
  bind_of_pass (require_eq_ok.mpr (decide_eq_true h))

/-- The seven commands inside EMBED do not fail, so an error of EMBED is one of its checks. -/
theorem embedBody_eq_error : embedBody s = .error e ↔ embedChecks s = .error e := by
  refine ⟨fun h => ?_, fun h => bind_of_error h⟩
  obtain hchecks | ⟨⟨⟩, hok, -⟩ := bind_eq_error.mp h
  · exact hchecks
  · obtain ⟨t, ht⟩ := embedBody_ok hok
    rw [ht] at h
    cases h

theorem readElems_error_code {α : Type} {space : Space} {a i n : Nat} {b : Buf α}
    (h : readElems space a b i n = .error e) : e.code = .uninit := by
  obtain ⟨vs, hok, -⟩ | ⟨j, -, herr, -⟩ := readElems_cases space a b i n
  · rw [hok] at h
    cases h
  · rw [herr] at h
    cases h
    rfl

/-- Once the capacity check passed, a check of EMBED fails for a carrier too short to filter or an unwritten
element. -/
theorem embedChecks_error_code (hspp : s.cfg.spp ≠ 0) (hamp : s.cfg.amp.toNat ≤ 32767) (hstop : s.bandStopOk)
    (hbytes : s.bytesLen.toNat ≤ s.params.maxBytes) (hframes : s.ainLen.toNat ≤ s.params.maxFrames)
    (hcap : s.bytesLen.toNat * s.cfg.spp ≤ s.ainLen.toNat) (h : embedChecks s = .error e) :
    e.code = .short ∨ e.code = .uninit := by
  have hrest := ((embed_config_passes hspp hamp hstop).trans <| (within_passes hbytes).trans <|
    (within_passes hframes).trans (capacity_passes hcap)).symm.trans h
  obtain hlong | ⟨-, -, hread⟩ := bind_eq_error.mp hrest
  · obtain ⟨-, rfl⟩ := require_eq_error.mp hlong
    exact .inl rfl
  obtain hbyte | ⟨-, -, hread⟩ := bind_eq_error.mp hread
  · exact .inr (readElems_error_code hbyte)
  obtain h0 | ⟨-, -, hread⟩ := bind_eq_error.mp hread
  · exact .inr (readElems_error_code h0)
  obtain h1 | ⟨-, -, hread⟩ := bind_eq_error.mp hread
  · exact .inr (readElems_error_code h1)
  · exact absurd hread pure_ne_error

/-- Where SPP is valid, it is PULSE_US × FS / 10^6 without a rest (spec/10_state.md R31). -/
theorem ConfigRegs.spp_mul {r : ConfigRegs} (h : r.spp ≠ 0) : r.spp * 1000000 = r.pulseUs.toNat * r.fs.toNat :=
  ((samplesPerPulse r).1 r.spp (Nat.pos_of_ne_zero h)).mp rfl |>.symm

/-- A carrier has too few frames exactly when it lasts less than the pulses of all bytes. -/
theorem frames_lt_iff_duration_lt (hspp : s.cfg.spp ≠ 0) (frames bytes : Nat) :
    frames < bytes * s.cfg.spp ↔
      (frames : ℝ) / (s.cfg.fs.toNat : ℝ) < (bytes : ℝ) * (s.cfg.pulseUs.toNat : ℝ) / 1000000 := by
  have hfs : (0 : ℝ) < s.cfg.fs.toNat := by exact_mod_cast ConfigRegs.fs_pos_of_spp hspp
  have hmul : bytes * s.cfg.pulseUs.toNat * s.cfg.fs.toNat = bytes * s.cfg.spp * 1000000 := by
    rw [mul_assoc, mul_assoc, ConfigRegs.spp_mul hspp]
  rw [div_lt_div_iff₀ hfs (by norm_num)]
  norm_cast
  rw [hmul, Nat.mul_lt_mul_right (by norm_num)]

/-- Settles O47: the capacity is compared after the limits, and neither a later check nor a later step raises its
error. -/
theorem embedCapacity : Obligations.EmbedCapacity := by
  intro s he hspp hamp hstop hbytes hframes
  refine ⟨fun hlt => ?_, fun hcap t ht hterr hcode => ?_, frames_lt_iff_duration_lt hspp _ _⟩
  · have hcheck : require (s.bytesLen.toNat * s.cfg.spp ≤ s.ainLen.toNat)
        ⟨.capacity, s.bytesLen.toNat * s.cfg.pulseUs.toNat, s.ainLen.toNat⟩ = .error _ :=
      require_eq_error.mpr ⟨decide_eq_false (not_le.mpr hlt), rfl⟩
    have hexec := exec_error (i := .embed) nofun he <| bind_of_error <|
      (embed_config_passes hspp hamp hstop).trans <| (within_passes hbytes).trans <|
        (within_passes hframes).trans (bind_of_error hcheck)
    rw [hexec, State.raise, sat32_toNat_self]
    rfl
  · obtain ⟨h, -⟩ | ⟨-, h, -⟩ | ⟨-, -, u, hu, rfl⟩ | ⟨-, -, e, hbody, rfl⟩ := exec_cases ht
    · cases h
    · rw [he] at h
      cases h
    · rw [State.complete_status, Status.completed_err, (bodyOf_frame hu).err, he] at hterr
      cases hterr
    · rw [State.raise_status, Status.failed_code] at hcode
      obtain h | h := embedChecks_error_code hspp hamp hstop hbytes hframes hcap (embedBody_eq_error.mp hbody)
      all_goals
        rw [h] at hcode
        exact absurd hcode (by decide)

/-- EMBED with its limits and lengths passing reads its elements next. -/
theorem exec_embed_read_error (he : s.status.err = false) (hspp : s.cfg.spp ≠ 0)
    (hamp : s.cfg.amp.toNat ≤ 32767) (hstop : s.bandStopOk) (hbytes : s.bytesLen.toNat ≤ s.params.maxBytes)
    (hframes : s.ainLen.toNat ≤ s.params.maxFrames) (hcap : s.bytesLen.toNat * s.cfg.spp ≤ s.ainLen.toNat)
    (hlong : s.minLen < s.ainLen.toNat)
    (h : (do
      let _ ← s.readBytes 0 s.bytesLen.toNat
      let _ ← s.readAin 0 0 s.ainLen.toNat
      let _ ← s.readAin 1 0 s.ainLen.toNat) = .error e) : exec .embed s = .next (s.raise e) :=
  exec_error (i := .embed) nofun he <| bind_of_error <| (embed_config_passes hspp hamp hstop).trans <|
    (within_passes hbytes).trans <| (within_passes hframes).trans <| (capacity_passes hcap).trans <|
      (bind_of_pass (requireLong_eq_ok.mpr hlong)).trans h

/-- Settles O48: the two limits are checked in order, and the elements read in order after every other check. -/
theorem embedRangeAndUninitErrors : Obligations.EmbedRangeAndUninitErrors := by
  intro s j he hspp hamp hstop
  refine ⟨fun hlt => exec_error nofun he <| bind_of_error <| (embed_config_passes hspp hamp hstop).trans <|
      bind_of_error (requireWithin_of_lt hlt),
    fun hbytes hlt => exec_error nofun he <| bind_of_error <| (embed_config_passes hspp hamp hstop).trans <|
      (within_passes hbytes).trans <| bind_of_error (requireWithin_of_lt hlt),
    fun hbytes hframes hcap hlong => ?_⟩
  have aborts {e : Err} := exec_embed_read_error (e := e) he hspp hamp hstop hbytes hframes hcap hlong
  refine ⟨fun hu => aborts ?_, fun hb hu => aborts ?_, fun hb h0 hu => aborts ?_⟩ <;> rw [← Nat.zero_add j]
  · exact bind_of_error (readBytes_of_firstUnwritten hu)
  · obtain ⟨bytes, hbytes⟩ := readBytes_of_written hb
    exact (bind_of_ok hbytes).trans (readAin_both_error (c := 0) nofun hu)
  · obtain ⟨bytes, hbytes⟩ := readBytes_of_written hb
    exact (bind_of_ok hbytes).trans (readAin_both_error (c := 1) (forall_lt_one h0) hu)

end Sys2Proof.Machine
end

section
/-! EMBED (spec/43_stereo_mux.md R187, R188): the commands it runs, and what it leaves in the lanes, the working
channels and the output. -/

namespace Sys2Proof.Machine

variable {s t : State}

/-- The conditions of EMBED are its checks. -/
theorem State.embedOk.embedChecks (h : s.embedOk) : embedChecks s = .ok () := by
  obtain ⟨hspp, hamp, hstop, hbytes, hframes, hcap, hlong, hb, h0, h1⟩ := h
  obtain ⟨bytes, hbytesRead⟩ := readBytes_of_written hb
  obtain ⟨x0, hx0⟩ := readAin_of_written (c := 0) h0
  obtain ⟨x1, hx1⟩ := readAin_of_written (c := 1) h1
  exact embedChecks_eq_ok.mpr ⟨hspp, hamp, requireBandStop_eq_ok_iff.mpr hstop, hbytes, hframes, hcap, hlong,
    ⟨bytes, readBytes_eq_ok.mp hbytesRead⟩, ⟨x0, readAin_eq_ok.mp hx0⟩, x1, readAin_eq_ok.mp hx1⟩

/-- A command on the state a completed one left, where its body does not look at DONE. -/
theorem exec_after_complete {i : Instr} (hi : i ≠ .clr) (he : s.status.err = false)
    (h : bodyOf i s.complete = .ok t.complete) : exec i s.complete = .next t.complete ∧ t.status.err = false :=
  ⟨exec_ok (s := s.complete) (t := t.complete) hi he h, (bodyOf_frame h).err.trans he⟩

/-- Settles O49: the body of EMBED runs the bodies of its seven commands in order, and DONE, which the commands
set in between, is read by none of them. -/
theorem embedIsItsSevenCommands : Obligations.EmbedIsItsSevenCommands := by
  intro s he hok
  obtain ⟨-, -, s1, s2, s3, s4, s5, s6, t, -, -, ⟨r1, r2, r3, r4, r5, r6, r7⟩, -⟩ :=
    embedSteps_chain hok.embedChecks
  have h1 := exec_ok (i := .mod) nofun he r1
  have e1 := (modBody_frame r1).err.trans he
  obtain ⟨h2, e2⟩ := exec_after_complete (i := .demux) nofun e1 (demuxBody_complete r2)
  obtain ⟨h3, e3⟩ := exec_after_complete (i := .bsf 0) nofun e2 (bsfBody_complete r3)
  obtain ⟨h4, e4⟩ := exec_after_complete (i := .bsf 1) nofun e3 (bsfBody_complete r4)
  obtain ⟨h5, e5⟩ := exec_after_complete (i := .ovl 0) nofun e4 (ovlBody_complete r5)
  obtain ⟨h6, e6⟩ := exec_after_complete (i := .ovl 1) nofun e5 (ovlBody_complete r6)
  obtain ⟨h7, e7⟩ := exec_after_complete (i := .mux) nofun e6 (muxBody_complete r7)
  have hembed := exec_ok (i := .embed) nofun he (embedBody_eq_ok.mpr
    ⟨hok.embedChecks, s1, r1, s2, r2, s3, r3, s4, r4, s5, r5, s6, r6, r7⟩)
  exact ⟨_, _, _, _, _, _, _, h1, h2, h3, h4, h5, h6, h7, hembed, rfl, e7⟩

/-! ### The lanes -/

/-- What MOD, and so EMBED, leaves in the lanes, slot by slot (spec/41_lane_modulator.md R128). -/
theorem get_modulated (he : s.status.err = false) (hspp : s.cfg.spp ≠ 0) (hamp : s.cfg.amp.toNat ≤ 32767)
    (hbytes : s.bytesLen.toNat ≤ s.params.maxBytes) (hframes : s.bytesLen.toNat * s.cfg.spp ≤ s.params.maxFrames)
    (hw : s.written .bytes 0 0 s.bytesLen.toNat) {bytes : List Byte}
    (hread : Buf.readRun s.mem.bytes 0 s.bytesLen.toNat = .ok bytes) {tx : Lanes (Buf Tone)}
    (htx : tx = (s.mem.writeTxLanes (laneStream s bytes)).tx) :
    (∀ (l : Lane) (j n : Nat) (b : Byte), j < s.bytesLen.toNat → n < s.cfg.spp →
      Buf.get s.mem.bytes j = some b →
      Buf.get (tx.get l) (j * s.cfg.spp + n) = some (if b.getLsbD (7 - l.val) then
        numSynth s.cfg.amp.toNat (s.cfg.carrier (carrierOf l)) s.cfg.fs.toNat n else .half 0)) ∧
    ∀ (l : Lane) (i : Nat), s.bytesLen.toNat * s.cfg.spp ≤ i →
      Buf.get (tx.get l) i = Buf.get (s.mem.tx.get l) i := by
  obtain ⟨tx', hexec, hslots⟩ := modWritesEightLanes s he hspp hamp hbytes hframes hw
  rw [exec_ok (i := .mod) nofun he (modBody_eq_ok.mpr ⟨hspp, hamp, hbytes, hframes, bytes, hread, rfl⟩)] at hexec
  injection hexec with hstate
  obtain rfl : tx = tx' := htx.trans (congrArg (fun v => v.mem.tx) hstate)
  exact hslots

/-! ### The channels -/

/-- Below BYTES_LEN × SPP a channel holds the band-stopped carrier mixed with the elements of its lanes. -/
theorem embeddedRun_getElem?_of_lt {bytes : List Byte} {x : List Sample} {c : Channel} {i : Nat}
    (hb : bytes.length = s.bytesLen.toNat) (hx : s.bytesLen.toNat * s.cfg.spp ≤ x.length)
    (hi : i < s.bytesLen.toNat * s.cfg.spp) :
    let tx := (s.mem.writeTxLanes (laneStream s bytes)).tx
    ∃ v t0 t1 t2 t3, (bandStop s x)[i]? = some v ∧ Buf.get (tx.get (laneOf c 0)) i = some t0 ∧
      Buf.get (tx.get (laneOf c 1)) i = some t1 ∧ Buf.get (tx.get (laneOf c 2)) i = some t2 ∧
      Buf.get (tx.get (laneOf c 3)) i = some t3 ∧
      (embeddedRun s bytes x c)[i]? = some (mix v t0 t1 t2 t3) := by
  have htone : ∀ l, ∃ u, (laneStream s bytes l)[i]? = some u := fun l =>
    ⟨_, List.getElem?_eq_getElem (by rwa [laneStream_length, hb])⟩
  choose tone htone using htone
  have hget : ∀ l, Buf.get ((s.mem.writeTxLanes (laneStream s bytes)).tx.get l) i = some (tone l) := fun l => by
    rw [get_writeTxLanes_laneStream, hb, if_pos hi, htone]
  have hv : (bandStop s x)[i]? = some _ :=
    List.getElem?_eq_getElem (by rw [bandStop_length]; exact hi.trans_le hx)
  refine ⟨_, _, _, _, _, hv, hget _, hget _, hget _, hget _, ?_⟩
  rw [embeddedRun, List.getElem?_append_left (by rwa [embeddedRun_mixed_length hb hx])]
  exact mixRun_getElem? (by rwa [List.getElem?_take_of_lt hi]) (htone _) (htone _) (htone _) (htone _)

/-- From BYTES_LEN × SPP on it holds the band-stopped carrier. -/
theorem embeddedRun_getElem?_of_le {bytes : List Byte} {x : List Sample} {c : Channel} {i : Nat}
    (hb : bytes.length = s.bytesLen.toNat) (hx : s.bytesLen.toNat * s.cfg.spp ≤ x.length)
    (hi : s.bytesLen.toNat * s.cfg.spp ≤ i) : (embeddedRun s bytes x c)[i]? = (bandStop s x)[i]? := by
  have hmixed := embeddedRun_mixed_length (c := c) hb hx
  rw [embeddedRun, List.getElem?_append_right (by omega), hmixed, List.getElem?_drop, Nat.add_sub_cancel' hi]

/-- Settles O50: `embedSteps_chain` gives the state EMBED leaves and the runs in its channels, `embeddedRun` their
samples and `get_modulated` the lanes. -/
theorem embedOutput : Obligations.EmbedOutput := by
  intro s he hok
  have hchecks := hok.embedChecks
  obtain ⟨hspp, hamp, -, hbytes, hframes, hcap, -, hwritten, -⟩ := hok
  obtain ⟨bytes, x, s1, s2, s3, s4, s5, s6, t, hread, hx, ⟨r1, r2, r3, r4, r5, r6, r7⟩, ht, hruns, hbeyond⟩ :=
    embedSteps_chain hchecks
  have hb := (Buf.readRun_eq_ok hread).1
  have hxlen := fun c => (Buf.readRun_eq_ok (hx c)).1
  have hcap' : ∀ c, s.bytesLen.toNat * s.cfg.spp ≤ (x c).length := fun c => by rwa [hxlen]
  have hch := fun c i (hi : i < s.ainLen.toNat) => Buf.get_of_readRun (hruns c).1 hi
  have haout := fun c i (hi : i < s.ainLen.toNat) => Buf.get_of_readRun (hruns c).2 hi
  have hexec := exec_ok (i := .embed) nofun he (embedBody_eq_ok.mpr
    ⟨hchecks, s1, r1, s2, r2, s3, r3, s4, r4, s5, r5, s6, r6, r7⟩)
  obtain ⟨hslots, hlanes⟩ := get_modulated he hspp hamp hbytes (hcap.trans hframes) hwritten hread rfl
  refine ⟨x, (s.mem.writeTxLanes (laneStream s bytes)).tx, t.mem.ch, t.mem.aout,
    fun c => ⟨hxlen c, fun i hi => Buf.get_of_readRun (hx c) hi⟩, ?_, hslots, hlanes,
    fun c i hi => (hch c i hi).trans (haout c i hi).symm, hbeyond, ?_⟩
  · rw [hexec, ← sat32_eq_ofNat hcap]
    exact congrArg (fun v => Host.Outcome.next v.complete) ht
  · intro c a
    refine ⟨fun i hi => ?_, fun i hi hlen => ?_⟩
    · rw [haout c i (hi.trans_le hcap)]
      exact embeddedRun_getElem?_of_lt hb (hcap' c) hi
    · rw [haout c i hlen]
      exact embeddedRun_getElem?_of_le hb (hcap' c) hi

end Sys2Proof.Machine
end

section
/-! The envelope slicer (spec/44_envelope_slicer.md R210 to R218): the decision of a segment, and the states the
bodies of DECIDE, DECODE and DEMOD leave. A zone and a symbol slot are both the elements j × n to (j + 1) × n − 1 of
a sequence, so the facts about `slice` serve both. -/

namespace Sys2Proof.Machine

variable {s : State}

/-! ### Slices -/

theorem slice_getElem? {α : Type} {xs : List α} {j n i : Nat} (hi : i < n) : (slice xs j n)[i]? = xs[j + i]? := by
  rw [slice, List.getElem?_take_of_lt hi, List.getElem?_drop]

theorem slice_length {α : Type} {xs : List α} {j n : Nat} (h : j + n ≤ xs.length) : (slice xs j n).length = n := by
  rw [slice, List.length_take, List.length_drop]
  omega

/-- Block j of n elements ends inside `count` such blocks. -/
theorem block_end_le {j count : Nat} (n : Nat) (hj : j < count) : j * n + n ≤ count * n := by
  rw [← Nat.succ_mul]
  exact Nat.mul_le_mul_right n hj

/-! ### The envelope -/

theorem peaks_getD {z j : Nat} {seg : List Sample} (hj : j < seg.length / z) :
    ((zones z seg).map peak).getD j 0 = peak (slice seg (j * z) z) := by
  simp [zones, hj]

theorem envelope_bit_iff (r : ConfigRegs) (seg : List Sample) :
    (envelope r seg).bit = true ↔ 1 ≤ seg.length / r.zone.toNat ∧
      r.thrCenti.toNat * (seg.length / r.zone.toNat) < 100 * ((zones r.zone.toNat seg).map peak).sum := by
  simp [envelope, exceedsThreshold]

/-- Settles O51: a zone's samples are those of its slice, none above its peak and one at it. -/
theorem envelopeDecision : Obligations.EnvelopeDecision := by
  intro r seg hz z e
  have hzpos : 0 < z := one_le_toNat_of_ne hz
  refine ⟨(zones z seg).map peak, by simp, envelope_zones r seg, rfl, fun j hj => ?_, envelope_bit_iff r seg⟩
  have hlen : (slice seg (j * z) z).length = z := slice_length ((block_end_le z hj).trans (Nat.div_mul_le_self ..))
  rw [peaks_getD hj]
  refine ⟨fun i hi => ?_, ?_⟩
  · refine ⟨(slice seg (j * z) z)[i], ?_, le_peak (List.getElem_mem _)⟩
    rw [← slice_getElem? hi, List.getElem?_eq_getElem]
  · obtain ⟨v, hv, hpeak⟩ := peak_mem (List.ne_nil_of_length_pos (hlen ▸ hzpos))
    obtain ⟨i, hi, rfl⟩ := List.getElem_of_mem hv
    have hiz : i < z := hlen ▸ hi
    exact ⟨i, hiz, _, by rw [← slice_getElem? hiz, List.getElem?_eq_getElem], hpeak⟩

/-! ### DECIDE -/

/-- Settles O52: the slot is read whole, and its zones are too few to saturate their register. -/
theorem decideWritesDecision : Obligations.DecideWritesDecision := by
  intro s c k he hspp hz hrate hcap hslot hw
  obtain ⟨seg, hread, hlen, hval⟩ := Buf.readRun_ok _ _ _ (written_rx_iff (l := laneOf c k) |>.mp hw)
  have hexec := exec_ok (i := .decide c k) nofun he
    (decideBody_eq_ok.mpr ⟨hspp, hz, hrate, hcap, hslot, seg, hread, rfl⟩)
  have hzones : (envelope s.cfg seg).zones ≤ s.rxLen.toNat :=
    calc (envelope s.cfg seg).zones ≤ seg.length := by rw [envelope_zones]; exact Nat.div_le_self ..
      _ = s.cfg.spp := hlen
      _ ≤ (s.symIdx.toNat + 1) * s.cfg.spp := Nat.le_mul_of_pos_left _ (Nat.succ_pos _)
      _ ≤ s.rxLen.toNat := hslot
  rw [sat32_eq_ofNat hzones] at hexec
  exact ⟨seg, hlen, hval, hexec⟩

/-! ### DECODE -/

/-- A symbol's byte carries the decision of each lane's slot at the lane's bit (R216, R121). -/
theorem laneBit_symbolByte (r : ConfigRegs) (lanes : Lanes (List Sample)) (j : Nat) (l : Lane) :
    laneBit (symbolByte r lanes j) l = (envelope r (slice (lanes.get l) (j * r.spp) r.spp)).bit := by
  rw [symbolByte, laneBit_bitsToByte (by simp)]
  simp

theorem decodeSymbols_getElem? {r : ConfigRegs} {lanes : Lanes (List Sample)} {count j : Nat} (hj : j < count) :
    (decodeSymbols r lanes count)[j]? = some (symbolByte r lanes j) := by
  simp [decodeSymbols, hj]

/-- The eight lanes are read where all are written. -/
theorem readRxLanes_of_written {n : Nat} (h : ∀ l : Lane, s.written .rx l 0 n) :
    ∃ lanes, readRxLanes s n = .ok lanes := by
  choose run hread using fun l => readRx_of_written (h l)
  refine ⟨Lanes.ofFn run, readRxLanes_eq_ok.mpr fun l => ?_⟩
  rw [Lanes.get_ofFn]
  exact readRx_eq_ok.mp (hread l)

/-- A block of a lane that was read holds the lane's elements. -/
theorem get_of_readRxLanes {n j len i : Nat} {lanes : Lanes (List Sample)} (h : readRxLanes s n = .ok lanes)
    (hend : j + len ≤ n) (hi : i < len) (l : Lane) :
    Buf.get (s.mem.rx.get l) (j + i) = (slice (lanes.get l) j len)[i]? := by
  rw [slice_getElem? hi]
  exact Buf.get_of_readRun (readRxLanes_eq_ok.mp h l) (by omega)

/-- Settles O53: byte j is that of the eight lanes' slot j, and the bytes beyond the last symbol are not written. -/
theorem decodeWritesBytes : Obligations.DecodeWritesBytes := by
  intro s he hspp hz hrate hcap hbytes hw
  obtain ⟨lanes, hread⟩ := readRxLanes_of_written hw
  have hexec := exec_ok (i := .decode) nofun he
    (decodeBody_eq_ok.mpr ⟨hspp, hz, hrate, hcap, hbytes, lanes, hread, rfl⟩)
  rw [sat32_eq_ofNat (w := s.rxLen) (Nat.div_le_self ..)] at hexec
  refine ⟨_, hexec, fun j hj => ⟨symbolByte s.cfg lanes j, ?_, fun l => ?_⟩, fun j hj => ?_⟩
  · rw [Buf.get_writeRun, decodeSymbols_length, if_pos (by omega)]
    exact decodeSymbols_getElem? hj
  · have hend := block_end_le s.cfg.spp hj
    have hlen := (Buf.readRun_eq_ok (readRxLanes_eq_ok.mp hread l)).1
    exact ⟨slice (lanes.get l) (j * s.cfg.spp) s.cfg.spp, slice_length (hend.trans_eq hlen.symm),
      fun n hn => get_of_readRxLanes hread hend hn l, laneBit_symbolByte s.cfg lanes j l⟩
  · rw [Buf.get_writeRun, decodeSymbols_length, if_neg (by omega)]

/-! ### DEMOD -/

/-- The conditions of DEMOD are its checks. -/
theorem State.demodOk.demodChecks (h : s.demodOk) : demodChecks s = .ok () := by
  obtain ⟨hspp, hk, hz, hrate, ⟨hcap, hend, hlong⟩, hsyms, h0, h1⟩ := h
  obtain ⟨x0, hx0⟩ := readAin_of_written (c := 0) h0
  obtain ⟨x1, hx1⟩ := readAin_of_written (c := 1) h1
  exact demodChecks_eq_ok.mpr ⟨hspp, requireBandPasses_eq_ok_iff.mpr hk, hz, hrate, ⟨hcap, hend⟩, hsyms, hlong,
    ⟨x0, readAin_eq_ok.mp hx0⟩, x1, readAin_eq_ok.mp hx1⟩

/-- Settles O54: the body of DEMOD runs the bodies of XLANES and DECODE, and DECODE does not read DONE, which
XLANES sets. -/
theorem demodIsXlanesThenDecode : Obligations.DemodIsXlanesThenDecode := by
  intro s he hok
  obtain ⟨u, t, hx, hd, -, ht⟩ := demodSteps_chain hok.demodChecks
  have hxlanes := exec_ok (i := .xlanes) nofun he hx
  obtain ⟨hdecode, -⟩ := exec_after_complete (i := .decode) nofun ((xlanesBody_frame hx).err.trans he)
    (decodeBody_complete hd)
  have hdemod := exec_ok (i := .demod) nofun he (demodBody_eq_ok.mpr ⟨hok.demodChecks, u, hx, hd⟩)
  have hstate := congrArg (β := Host.Outcome State Fault Refusal) (fun v => .next v.complete) ht
  exact ⟨u.complete, t.mem.rx, t.mem.bytes, hxlanes, hdecode.trans hstate, hdemod.trans hstate⟩

end Sys2Proof.Machine
end

section
/-! The control commands (spec/45_control.md R240, R241). -/

namespace Sys2Proof

/-- A legal word holds the fields of its command (spec/30_encoding.md R90, R94). -/
theorem Fields.ofWord_of_decode {w : Word} {i : Instr} (h : decode w = .ok i) : Fields.ofWord w = i.fields := by
  obtain ⟨-, hfields⟩ := i.encodes
  rw [eq_encode_of_decode h, hfields]

/-- NOP's opcode is no other command's (spec/30_encoding.md R94). -/
theorem Instr.eq_nop_of_fields_opc {i : Instr} (h : i.fields.opc = 0x01) : i = .nop := by
  cases i with
  | nop => rfl
  | _ => simp [Instr.fields] at h

end Sys2Proof

namespace Sys2Proof.Machine

/-- Settles O20: NOP's body succeeds and changes nothing, its word is `encode .nop`, and a legal word with its
opcode is that word. -/
theorem nopSetsDone : Obligations.NopSetsDone := by
  have hword (w : Word) : decode w = .ok .nop ↔ w = 0x00000001 := decodeAndEncodeAgree w .nop
  refine ⟨fun s he => exec_ok nofun he rfl, fun s he => command_discarded (body := bodyOf .nop) he, hword,
    fun w hopc hne i hd => ?_⟩
  have hi : i = .nop := Instr.eq_nop_of_fields_opc (Fields.ofWord_of_decode hd ▸ hopc)
  exact hne ((hword w).mp (hi ▸ hd))

/-- Settles O21: CLR is `State.clearError` in every state, its word is `encode .clr`, and any other command is
discarded in the error state. -/
theorem clrLeavesErrorState : Obligations.ClrLeavesErrorState := by
  refine ⟨exec_clr, fun w => decodeAndEncodeAgree w .clr, fun i s t he hexec hleft => ?_⟩
  by_contra hi
  obtain rfl := exec_discarded hexec hi he
  exact absurd he (by simp [hleft])

end Sys2Proof.Machine
end

section
/-! Exceptions and the idle block (spec/60_exceptions.md R254, R255, R266). -/

namespace Sys2Proof.Machine

/-- In any state, a write to CMD of a word that is no command is a command whose one check fails. -/
theorem step_undecoded {s : State} {w : Word} {rest : List HostAction} {x : IllegalWord}
    (hp : s.pending = .regWrite 4 0 w :: rest) (hd : decode w = .error x) :
    step s = command { s with cmd := w, pending := rest } (fun _ => .error ⟨.illegal, w.toNat, 0⟩) := by
  simp only [step, fetch_command hp, State.issue, hd]

/-- Settles O5: a legal word runs its command and an illegal one aborts, both through `command`, which discards
them; CLR alone is not run through it. -/
theorem errorStateDiscardsAllButClr : Obligations.ErrorStateDiscardsAllButClr := by
  refine fun s w rest hp he => ⟨fun hne => ?_, fun hclr => ?_⟩
  · cases hd : decode w with
    | ok i =>
      have hi : i ≠ .clr := fun h => hne (h ▸ hd)
      rw [stepRunsDecodedCommand s w rest i hp hd, exec_eq_command hi]
      exact command_discarded he
    | error x => exact (step_undecoded hp hd).trans (command_discarded he)
  · exact (stepRunsDecodedCommand s w rest .clr hp hclr).trans (exec_clr _)

/-- A command that enters the error state is one whose body fails: a body that succeeds keeps ERR, and CLR
clears it. -/
theorem exec_enters_error {i : Instr} {s t : State} (he : s.status.err = false) (h : exec i s = .next t)
    (ht : t.status.err = true) : ∃ e, bodyOf i s = .error e ∧ t = s.raise e := by
  obtain ⟨-, rfl⟩ | ⟨-, he', -⟩ | ⟨-, -, u, hu, rfl⟩ | ⟨-, -, hraise⟩ := exec_cases h
  · cases ht
  · simp [he] at he'
  · have hkept : u.status.err = s.status.err := (bodyOf_frame hu).err
    exact absurd (hkept.symm.trans ht) (by simp [he])
  · exact hraise

/-- Settles O15: `State.raise` writes STATUS and the information words alone, and a command that enters the error
state has done nothing but raise its body's error. -/
theorem errorsAreAllOrNothing : Obligations.ErrorsAreAllOrNothing := by
  refine ⟨fun s => ?_, fun i s t he h ht => ?_⟩
  · refine ⟨?_, ?_, ?_, ?_, ?_, ?_, ?_⟩ <;> exact fun i0 i1 => rfl
  · obtain ⟨e, -, hraise⟩ := exec_enters_error he h ht
    exact ⟨e, hraise⟩

/-- Settles O6: with an empty queue the fetch finishes with the state as it is. -/
theorem idleBlockKeepsItsState : Obligations.IdleBlockKeepsItsState := by
  intro s hp
  simp only [step, State.fetch, hp]

end Sys2Proof.Machine
end

section
/-! Platform reset (spec/70_reset_and_hazards.md R280 to R283): the step of the host's reset, and what it leaves. -/

namespace Sys2Proof.Machine

/-- In any state, the error state included, a reset at the head of the queue is one step. -/
theorem step_reset {s : State} {rest : List HostAction} (hp : s.pending = .reset :: rest) :
    step s = .next (State.platformReset { s with pending := rest }) := by
  simp only [step, State.fetch, hp]

/-- No register keeps anything of the state before a reset. -/
theorem State.readReg_platformReset (s : State) (r : Reg) : s.platformReset.readReg r = State.reset.readReg r := by
  cases r <;> rfl

/-- R281: the pulse's 20 ms at 44100 Hz, a value that fits its register. -/
theorem ConfigRegs.sppWord_reset : ConfigRegs.reset.sppWord = 882 := by
  have hspp : ConfigRegs.reset.spp = 882 := (ConfigRegs.spp_eq_iff _ (by decide)).mpr (by decide)
  rw [ConfigRegs.sppWord, hspp, if_pos (by decide)]
  rfl

/-- Settles O10: the step is `State.platformReset`, whose registers are those of `State.reset` and whose memory is
empty; SPP alone is not stored but computed. -/
theorem resetSetsEveryRegister : Obligations.ResetSetsEveryRegister := by
  intro s rest hp
  refine ⟨_, step_reset hp, ?_⟩
  simp only [State.readReg_platformReset, State.platformReset_mem]
  refine ⟨fun r hr => ?_, rfl, rfl, rfl, ConfigRegs.sppWord_reset, rfl, rfl, rfl, rfl, rfl, rfl, rfl, rfl, rfl, rfl,
    rfl, Memory.element_empty⟩
  fin_cases hr <;> rfl

/-- Settles O11: `State.reset` is what a platform reset makes of it, and every platform reset gives the invariant. -/
theorem invariantHoldsAtReset : Obligations.InvariantHoldsAtReset :=
  State.reset.platformReset_inv

end Sys2Proof.Machine
end

section
/-! The stego Frame's header (spec/80_host_interface.md R311 to R317): parsing what was built gives every field
back. -/

namespace Sys2Proof.Machine

/-- R313: the four bytes of a word, most significant first, make up the word. -/
theorem append_extractLsb'_bytes (w : Word) :
    w.extractLsb' 24 8 ++ w.extractLsb' 16 8 ++ w.extractLsb' 8 8 ++ w.extractLsb' 0 8 = w := by
  rw [BitVec.extractLsb'_append_extractLsb'_eq_extractLsb' (start₂ := 24) rfl,
    BitVec.extractLsb'_append_extractLsb'_eq_extractLsb' (start₂ := 16) rfl,
    BitVec.extractLsb'_append_extractLsb'_eq_extractLsb' (start₂ := 8) rfl]
  exact BitVec.extractLsb'_eq_self

/-- R314: the reader's `control_byte >> 1`. -/
theorem Header.control_extractLsb'_one (h : Header) : h.control.extractLsb' 1 7 = h.nameLen :=
  BitVec.extractLsb'_append_eq_left

/-- R314: the reader's `control_byte AND 1`. -/
theorem Header.control_getLsbD_zero (h : Header) : h.control.getLsbD 0 = h.encrypted :=
  BitVec.getLsbD_append.trans (by simp)

/-- The version code is given back too, which R325 does not ask. -/
@[simp] theorem parseHeader_bytes (h : Header) : parseHeader h.bytes = some h := by
  simp only [Header.bytes, signature, List.cons_append, List.nil_append, parseHeader, append_extractLsb'_bytes,
    Header.control_extractLsb'_one, Header.control_getLsbD_zero]

@[simp] theorem Header.length_bytes (h : Header) : h.bytes.length = 10 := rfl

@[simp] theorem Header.hasSignature_bytes (h : Header) : hasSignature h.bytes = true := rfl

theorem buildHeader_of_le {nameLen : Nat} (hn : nameLen ≤ 127) (payloadLen : Word) (encrypted : Bool)
    (version : Byte) :
    buildHeader payloadLen nameLen encrypted version =
      .ok ⟨payloadLen, BitVec.ofNat 7 nameLen, encrypted, version⟩ :=
  if_pos hn

/-- R317: a filename too long for the 7-bit field has no header. -/
theorem buildHeader_of_lt {nameLen : Nat} (hn : 127 < nameLen) (payloadLen : Word) (encrypted : Bool)
    (version : Byte) : buildHeader payloadLen nameLen encrypted version = .error .inputConstraint :=
  if_neg hn.not_ge

/-- Settles O59: up to 127 bytes the header is built and parses back to itself, its 7-bit field holding the
length without loss; from 128 on it is not built. -/
theorem headerFidelity : Obligations.HeaderFidelity := by
  refine fun payloadLen nameLen encrypted version => ⟨fun hn => ?_, fun hn => buildHeader_of_lt hn _ _ _⟩
  have hfits : (BitVec.ofNat 7 nameLen).toNat = nameLen :=
    (BitVec.toNat_ofNat _ _).trans (Nat.mod_eq_of_lt (Nat.lt_succ_of_le hn))
  exact ⟨_, _, buildHeader_of_le hn _ _ _, Header.length_bytes _, Header.hasSignature_bytes _, parseHeader_bytes _,
    rfl, hfits, rfl⟩

end Sys2Proof.Machine
end
